-- ==== Sys2Proof/Config.lean ====
section
/-! DEFINITION. The parameters of HTB (spec/00_scope.md rule R7).

CW is the one open parameter of the spec; the model fixes it at the spec's default, 32
(DESIGN CHOICE, unsafe for a block of another CW: log entry 1). Every other number is the
spec's or follows from CW as rule R7 says. -/

namespace Sys2Proof.Config

/-- Bits of one frequency count (R7, decision D3: open, default 32; log entry 1). -/
abbrev CW : Nat := 32

/-- Bits of a node weight (R7: CW + 8, so that a sum of 256 counts is exact). -/
abbrev WW : Nat := CW + 8

/-- Bits of a weighted length sum (R7: CW + 16). -/
abbrev AW : Nat := CW + 16

/-- Number of byte values (R7). -/
abbrev NSYM : Nat := 256

/-- Bits of a byte value (R7). -/
abbrev SYMW : Nat := 8

/-- Node slots: at most 256 leaves and 255 internal nodes (R7). -/
abbrev NNODE : Nat := 511

/-- Bits of a node index (R7). -/
abbrev IDXW : Nat := 9

/-- Greatest code length (R7). -/
abbrev MAXLEN : Nat := 255

/-- Bits of a code length (R7). -/
abbrev LENW : Nat := 8

/-- Entries of the traversal stack (R7). -/
abbrev STKDEPTH : Nat := 256

/-- Bits of a command word (R7). -/
abbrev CMDW : Nat := 16

/-- Bits of the response data bus (R7). -/
abbrev DOUTW : Nat := 272

end Sys2Proof.Config
end

