-- ==== Sys2Proof/Word.lean ====
section
/-! DEFINITION. The word types of HTB, one for each width of spec/00_scope.md rule R7. All are
unsigned (R8: there is no signed value and no sign extension anywhere). -/

namespace Sys2Proof

/-- A command word, `cmd[15:0]` (R63). -/
abbrev Cmd := BitVec Config.CMDW

/-- A frequency count, CW bits (R14). -/
abbrev Count := BitVec Config.CW

/-- A node weight, WW bits (R16). -/
abbrev Weight := BitVec Config.WW

/-- A weighted length sum, AW bits (R33, R34). -/
abbrev Sum := BitVec Config.AW

/-- A byte value, 8 bits (R12, "byte value (0–255)"). -/
abbrev Sym := BitVec Config.SYMW

/-- A node index, 9 bits (R15). Index 511 names no entry of NODE. -/
abbrev NodeIdx := BitVec Config.IDXW

/-- A code length or depth, 8 bits (R19, R21). -/
abbrev Len := BitVec Config.LENW

/-- A path value, 255 bits (R19, R21): first path bit most significant (R49). -/
abbrev Path := BitVec Config.MAXLEN

/-- The response data bus (R37). -/
abbrev Dout := BitVec Config.DOUTW

end Sys2Proof
end

