-- ==== Sys2Proof/Syntax.lean ====
section
/-! DEFINITION. The ten commands (spec/30_encoding.md rule R69), one constructor for each row of
spec/opcode_table.json. -/

namespace Sys2Proof

/-- A decoded command with its operands as they stand in the word (R68). The count that `WRF`
stores is not in the word: it comes on the data port (R63, R68) and stands in State as `din`. -/
inductive Instr where
  /-- NOP, format Z (R139). -/
  | nop
  /-- CLR, format Z (R82). -/
  | clr
  /-- WRF b, format B (R83). -/
  | wrf (b : Sym)
  /-- RDF b, format B (R85). -/
  | rdf (b : Sym)
  /-- BUILD, format Z (R87). -/
  | build
  /-- ASSIGN, format Z (R113). -/
  | assign
  /-- RDN i, format N (R103). -/
  | rdn (i : NodeIdx)
  /-- RDC b, format B (R135). -/
  | rdc (b : Sym)
  /-- RDS, format Z (R140). -/
  | rds
  /-- RDW s, format S (R137): s = 0 selects WLEN, s = 1 selects WLENRAW (R67). -/
  | rdw (s : BitVec 1)
  deriving DecidableEq, Repr

end Sys2Proof
end

