-- ==== Sys2Proof/WellFormed.lean ====
section
/-! DEFINITION. Well-formedness of a command word (spec/30_encoding.md rules R64 to R67, R70,
R71). The operands of `Instr` have exactly the widths of their formats, so every `Instr` is a
legal command; what can be ill-formed is a WORD, and each of its checks is here. -/

namespace Sys2Proof

/-- The four formats (R64 to R67). -/
inductive Format where
  /-- No operand: `cmd[11:0]` must be 0 (R64). -/
  | z
  /-- A byte value: `cmd[11:8]` must be 0 (R65). -/
  | b
  /-- A node index: `cmd[11:9]` must be 0 (R66). -/
  | n
  /-- A select bit: `cmd[11:1]` must be 0 (R67). -/
  | s
  deriving DecidableEq, Repr

/-- The number of low bits a format gives its operand; the rest of `arg` must be 0 (R63). -/
def Format.operandBits : Format → Nat
  | .z => 0
  | .b => 8
  | .n => 9
  | .s => 1

/-- The format of each of the sixteen opcodes; 0xA to 0xF are reserved (R69, R70). -/
def opcodeFormat (op : Nat) : Option Format :=
  match op with
  | 0 => some .z
  | 1 => some .z
  | 2 => some .b
  | 3 => some .b
  | 4 => some .z
  | 5 => some .z
  | 6 => some .n
  | 7 => some .b
  | 8 => some .z
  | 9 => some .s
  | _ => none

/-- A word is a command exactly when its opcode `w[15:12]` is defined and the bits of `w[11:0]`
above its format's operand are all 0 (R63, R70, R71). -/
def wellFormedWord (w : Cmd) : Bool :=
  match opcodeFormat (w.toNat / 4096) with
  | some f => decide (w.toNat % 4096 < 2 ^ f.operandBits)
  | none => false

end Sys2Proof
end

