-- ==== Sys2Proof/Decode.lean ====
section
/-! DEFINITION. Decoding and encoding (spec/30_encoding.md rules R69 to R74). -/

namespace Sys2Proof

/-- What a 16-bit word is. The two ways a word can fail to be a command are kept apart by name;
both are ILLEGAL (R145). -/
inductive Decoded where
  /-- One of the ten commands (R69). -/
  | command (i : Instr)
  /-- Opcode 0xA to 0xF (R70). -/
  | reservedOpcode
  /-- A defined opcode with a nonzero must-be-0 bit (R71). -/
  | reservedBits
  deriving DecidableEq, Repr

/-- The opcode field, `cmd[15:12]` (R63). -/
def opField (w : Cmd) : BitVec 4 := w.extractLsb' 12 4

/-- The argument field, `cmd[11:0]` (R63). -/
def argField (w : Cmd) : BitVec 12 := w.extractLsb' 0 12

/-- The operand `b = cmd[7:0]` (R68). -/
def symField (w : Cmd) : Sym := w.extractLsb' 0 8

/-- The operand `i = cmd[8:0]` (R68). -/
def idxField (w : Cmd) : NodeIdx := w.extractLsb' 0 9

/-- The operand `s = cmd[0]` (R68). -/
def selField (w : Cmd) : BitVec 1 := w.extractLsb' 0 1

/-- A command if the must-be-0 bits are 0, else a word refused for them (R71). -/
def guardBits (zero : Bool) (i : Instr) : Decoded := if zero then .command i else .reservedBits

/-- Decoding, total on all 65536 words (R74). -/
def decode (w : Cmd) : Decoded :=
  let arg := argField w
  match (opField w).toNat with
  | 0x0 => guardBits (arg == 0) .nop
  | 0x1 => guardBits (arg == 0) .clr
  | 0x2 => guardBits (arg.extractLsb' 8 4 == 0) (.wrf (symField w))
  | 0x3 => guardBits (arg.extractLsb' 8 4 == 0) (.rdf (symField w))
  | 0x4 => guardBits (arg == 0) .build
  | 0x5 => guardBits (arg == 0) .assign
  | 0x6 => guardBits (arg.extractLsb' 9 3 == 0) (.rdn (idxField w))
  | 0x7 => guardBits (arg.extractLsb' 8 4 == 0) (.rdc (symField w))
  | 0x8 => guardBits (arg == 0) .rds
  | 0x9 => guardBits (arg.extractLsb' 1 11 == 0) (.rdw (selField w))
  | _ => .reservedOpcode

/-- Encoding, the inverse of decoding (R74). -/
def encode : Instr → Cmd
  | .nop => 0x0000#16
  | .clr => 0x1000#16
  | .wrf b => 0x2000#16 + b.setWidth 16
  | .rdf b => 0x3000#16 + b.setWidth 16
  | .build => 0x4000#16
  | .assign => 0x5000#16
  | .rdn i => 0x6000#16 + i.setWidth 16
  | .rdc b => 0x7000#16 + b.setWidth 16
  | .rds => 0x8000#16
  | .rdw s => 0x9000#16 + s.setWidth 16

/-- One row of the opcode map (R69): a word `w` is the row's command exactly when
`w & mask = match`. -/
structure OpcodeRow where
  mnemonic : String
  pattern : Cmd
  mask : Cmd
  deriving DecidableEq, Repr

/-- The opcode map (R69). -/
def opcodeTable : List OpcodeRow :=
  [⟨"NOP", 0x0000#16, 0xFFFF#16⟩,
   ⟨"CLR", 0x1000#16, 0xFFFF#16⟩,
   ⟨"WRF", 0x2000#16, 0xFF00#16⟩,
   ⟨"RDF", 0x3000#16, 0xFF00#16⟩,
   ⟨"BUILD", 0x4000#16, 0xFFFF#16⟩,
   ⟨"ASSIGN", 0x5000#16, 0xFFFF#16⟩,
   ⟨"RDN", 0x6000#16, 0xFE00#16⟩,
   ⟨"RDC", 0x7000#16, 0xFF00#16⟩,
   ⟨"RDS", 0x8000#16, 0xFFFF#16⟩,
   ⟨"RDW", 0x9000#16, 0xFFFE#16⟩]

/-- The mnemonic of a command, as the opcode map spells it (R69). -/
def mnemonic : Instr → String
  | .nop => "NOP"
  | .clr => "CLR"
  | .wrf _ => "WRF"
  | .rdf _ => "RDF"
  | .build => "BUILD"
  | .assign => "ASSIGN"
  | .rdn _ => "RDN"
  | .rdc _ => "RDC"
  | .rds => "RDS"
  | .rdw _ => "RDW"

/-- Whether a word matches a row of the opcode map (R69). -/
def OpcodeRow.accepts (r : OpcodeRow) (w : Cmd) : Bool := (w &&& r.mask) == r.pattern

/-- The host's reading of one word: the low `nbits` bits of `w`, the rest 0. Every command is one
16-bit word (R63), so a word that does not fit in 16 bits is no command. -/
def decodeTableWord (nbits w : Nat) : Option Instr :=
  let v := w % 2 ^ nbits
  if v < 2 ^ Config.CMDW then
    match decode (BitVec.ofNat Config.CMDW v) with
    | .command i => some i
    | .reservedOpcode => none
    | .reservedBits => none
  else none

end Sys2Proof
end

