-- ==== Sys2Proof/Machine/State.lean ====
section
/-! DEFINITION. The state of HTB (spec/10_state.md), as plain data, and its value after reset. -/

namespace Sys2Proof.Machine

/-- A memory: the entries that differ from what an unlisted index reads as, by rising index
(log entry 8). `Memory.read` and `Memory.write` (Machine/Ops.lean) are the only accesses. -/
abbrev Memory (α : Type) := List (Nat × α)

/-- The `kind` field of a node (R16): 0 = Leaf, 1 = Internal. -/
inductive NodeKind where
  | leaf
  | internal
  deriving DecidableEq, Repr

/-- One NODE entry (R16). -/
structure Node where
  kind : NodeKind
  weight : Weight
  sym : Sym
  left : NodeIdx
  right : NodeIdx
  deriving DecidableEq, Repr

/-- One CODE entry (R19). -/
structure CodeEntry where
  rawlen : Len
  len : Len
  bits : Path
  deriving DecidableEq, Repr

/-- One STK entry (R21): a pending visit. -/
structure StkEntry where
  node : NodeIdx
  depth : Len
  path : Path
  deriving DecidableEq, Repr

/-- The sequencer phase PH (R30). The values 5 to 7 never occur and have no name. -/
inductive Phase where
  | idle
  | scan
  | merge
  | clear
  | walk
  deriving DecidableEq, Repr

/-- The response code, and the value of ERRCODE (R144, R29). -/
inductive RspCode where
  /-- 0: the command executed. -/
  | ok
  /-- 1: the word is not one of the ten commands (R145). -/
  | illegal
  /-- 2: the command needs a product that is not current (R146). -/
  | seq
  /-- 3: the node index names no node (R147). -/
  | index
  deriving DecidableEq, Repr

/-- The data of a response, as the record of its fields (R78: packed only at the boundary, by
`pack` of Machine/Operands.lean). -/
inductive RspData where
  /-- All 0: every command that is not a read, and every refusal (R77). -/
  | nothing
  /-- `RDF b`. -/
  | count (c : Count)
  /-- `RDN i`. -/
  | node (n : Node)
  /-- `RDC b`. -/
  | code (e : CodeEntry)
  /-- `RDS`. -/
  | status (v : BitVec 32)
  /-- `RDW s`. -/
  | sum (v : Sum)
  deriving DecidableEq, Repr

/-- One response (R77). -/
structure Response where
  code : RspCode
  data : RspData
  deriving DecidableEq, Repr

/-- The inputs of the block at one sampling of the port (R36, R37). -/
structure PortIn where
  rst : Bool
  cmdValid : Bool
  cmd : Cmd
  din : Count
  rspReady : Bool
  deriving DecidableEq, Repr

/-- The whole state of HTB (R13), and after it the three fields of the model's own. -/
@[ext]
structure State where
  /-- FREQ, 256 counts (R14). -/
  freq : Memory Count
  /-- NODE, 511 nodes (R15). -/
  node : Memory Node
  /-- CODE, 256 codes (R18). -/
  code : Memory CodeEntry
  /-- CAND, 511 bits (R20). -/
  cand : Memory Bool
  /-- STK, 256 pending visits (R21). -/
  stk : Memory StkEntry
  /-- NEXT (R22). -/
  next : BitVec 9
  /-- NLEAF (R23). -/
  nleaf : BitVec 9
  /-- ROOT (R24). -/
  root : NodeIdx
  /-- BUILT (R25). -/
  built : Bool
  /-- CODEV (R26). -/
  codev : Bool
  /-- EMPTY (R27). -/
  empty : Bool
  /-- SINGLE (R28). -/
  single : Bool
  /-- ERR (R29). -/
  err : Bool
  /-- ERRCODE (R29): `ok` is its value 0. -/
  errcode : RspCode
  /-- PH (R30). -/
  ph : Phase
  /-- IX (R30). -/
  ix : BitVec 9
  /-- SP (R31). -/
  sp : BitVec 9
  /-- M1 (R32). -/
  m1 : NodeIdx
  /-- M2 (R32). -/
  m2 : NodeIdx
  /-- WLEN (R33). -/
  wlen : Sum
  /-- WLENRAW (R34). -/
  wlenraw : Sum
  /-- MODEL'S OWN: the data word taken with the command being executed (R36, R168; log entry 5). -/
  din : Count
  /-- MODEL'S OWN: the response held until it is taken, or none (R37; log entry 4). -/
  rsp : Option Response
  /-- MODEL'S OWN: the port inputs the host has yet to apply, the next one first (log entry 3). -/
  host : List PortIn
  deriving DecidableEq, Repr

/-- Why the machine could stop. The spec has no fault (R159); each of these is met only in a state
that no run reaches, where the spec's procedures have no answer (log entry 9). All are safe: the
model stops where nothing is known of the hardware. -/
inductive Fault where
  /-- Raised by ASSIGN's walk (R115) and its micro-operation A3 (R131) when the node to visit is
  index 511, which names no entry of NODE. Safe. -/
  | noSuchNode
  /-- Raised by ASSIGN's walk (R115) and A3 (R131) at an internal node of depth 255, whose
  children's depth does not fit the 8-bit depth (R124). Safe. -/
  | pathTooLong
  /-- Raised by the micro-operations B1 and B3 (R97, R99) when they would make a node with
  NEXT = 511. Safe. -/
  | nodeStoreFull
  /-- Raised by the micro-operation A3 (R131) when it would use a slot of STK above 255. Safe. -/
  | stackOverflow
  /-- Raised by the micro-operations when none is enabled: IX above 256 in SCAN or CLEAR, or no
  candidate in MERGE (R100: "cannot occur"). Safe. -/
  | noMicroOp
  deriving DecidableEq, Repr

/-- Why the model could have no meaning for a command. No meaning of this model answers so, and no
arm of exec does. -/
inductive Refusal where
  /-- An instruction whose meaning is not written yet. Safe. -/
  | notModelled (mnemonic : String)
  deriving DecidableEq, Repr

/-- The state right after reset (R41, R161). NODE, CODE, CAND, STK, M1 and M2, which R41 leaves
unspecified and unreachable, are all zero (DESIGN CHOICE: log entry 7); `din` and `host` are the
model's own (log entries 3 and 5). -/
def State.reset : State where
  freq := []
  node := []
  code := []
  cand := []
  stk := []
  next := 0
  nleaf := 0
  root := 0
  built := false
  codev := false
  empty := false
  single := false
  err := false
  errcode := .ok
  ph := .idle
  ix := 0
  sp := 0
  m1 := 0
  m2 := 0
  wlen := 0
  wlenraw := 0
  din := 0
  rsp := none
  host := []

end Sys2Proof.Machine
end

