-- ==== Sys2Proof/Machine/Operands.lean ====
section
/-! DEFINITION. Bit lengths, field values and response packing (spec/00_scope.md rule R8,
spec/30_encoding.md rules R68, R77, R78, spec/20_memory.md rules R49, R50). -/

namespace Sys2Proof.Machine

/-- `bitlen(v)`: the number of bits of the shortest binary numeral of `v` (R8). -/
def bitlen {w : Nat} (v : BitVec w) : Nat := if v.toNat = 0 then 0 else Nat.log2 v.toNat + 1

/-- `kind` as a bit (R16). -/
def NodeKind.toBit : NodeKind → BitVec 1
  | .leaf => 0#1
  | .internal => 1#1

/-- PH as its 3-bit value (R30). -/
def Phase.toBits : Phase → BitVec 3
  | .idle => 0#3
  | .scan => 1#3
  | .merge => 2#3
  | .clear => 3#3
  | .walk => 4#3

/-- `rsp_code[1:0]` (R144). -/
def RspCode.toBits : RspCode → BitVec 2
  | .ok => 0#2
  | .illegal => 1#2
  | .seq => 2#2
  | .index => 3#2

/-- A NODE entry packed for `RDN`: right in the lowest bits, then left, sym, weight, kind (R78). -/
def packNode (n : Node) : BitVec (1 + Config.WW + 8 + 9 + 9) :=
  n.kind.toBit ++ n.weight ++ n.sym ++ n.left ++ n.right

/-- A CODE entry packed for `RDC`: BITS in the lowest bits, then LEN, RAWLEN (R78). -/
def packCode (e : CodeEntry) : BitVec (8 + 8 + 255) := e.rawlen ++ e.len ++ e.bits

/-- The data of a response on `dout[271:0]`: every bit not named is 0 (R78). -/
def pack : RspData → Dout
  | .nothing => 0
  | .count c => c.setWidth Config.DOUTW
  | .node n => (packNode n).setWidth Config.DOUTW
  | .code e => (packCode e).setWidth Config.DOUTW
  | .status v => v.setWidth Config.DOUTW
  | .sum v => v.setWidth Config.DOUTW

/-- `rsp_valid` (R37). -/
def rspValid (s : State) : Bool := s.rsp.isSome

/-- `rsp_code[1:0]` while a response is held (R37, R77). -/
def rspCode (s : State) : BitVec 2 :=
  match s.rsp with
  | some r => r.code.toBits
  | none => 0

/-- `dout[271:0]` while a response is held (R37, R77). -/
def dout (s : State) : Dout :=
  match s.rsp with
  | some r => pack r.data
  | none => 0

/-- `cmd_ready`: PH = IDLE and the response of the previous command has been taken (R36). -/
def cmdReady (s : State) : Bool := decide (s.ph = .idle) && s.rsp.isNone

/-- The low `n` bits of a numeral as a bit-string, first bit first: bit `n - 1` down to bit 0
(R49, R50). -/
def bitString (v : Path) : Nat → List Bool
  | 0 => []
  | n + 1 => v.getLsbD n :: bitString v n

/-- The raw path of a CODE entry (R19, R50). -/
def CodeEntry.rawPath (e : CodeEntry) : List Bool := bitString e.bits e.rawlen.toNat

/-- The stored, stripped code of a CODE entry (R19, R50). -/
def CodeEntry.storedCode (e : CodeEntry) : List Bool := bitString e.bits e.len.toNat

end Sys2Proof.Machine
end

