-- ==== Sys2Proof/Machine/Flags.lean ====
section
/-! DEFINITION. The STATUS view and the flag computations (spec/10_state.md rules R25 to R29, R35,
R39, spec/41_tree_build.md rule R95). -/

namespace Sys2Proof.Machine

/-- A flag as a bit. -/
def flagBit (b : Bool) : BitVec 1 := if b then 1#1 else 0#1

/-- STATUS = {0[5:0], ROOT[8:0], NLEAF[8:0], 0, ERRCODE[1:0], ERR, SINGLE, EMPTY, CODEV, BUILT}
(R35, R140). -/
def status (s : State) : BitVec 32 :=
  (0#6 ++ s.root ++ s.nleaf ++ 0#1 ++ s.errcode.toBits ++ flagBit s.err ++ flagBit s.single
    ++ flagBit s.empty ++ flagBit s.codev ++ flagBit s.built : BitVec 32)

/-- The value `BUILD` gives EMPTY: k = 0 (R27, R95). -/
def emptyFlag (nleaf : BitVec 9) : Bool := nleaf == 0

/-- The value `BUILD` gives SINGLE: k = 1 (R28, R95). -/
def singleFlag (nleaf : BitVec 9) : Bool := nleaf == 1

/-- The value `BUILD` gives ROOT: 0 for k <= 1, else NEXT - 1 (R24, R95). -/
def rootIndex (nleaf next : BitVec 9) : NodeIdx := if nleaf.toNat ≤ 1 then 0 else next - 1

/-- `tree_exists`: BUILT = 1 and EMPTY = 0 (R39). -/
def treeExists (s : State) : Bool := s.built && !s.empty

/-- ERRCODE after a refusal: the first code is kept (R29, R150). -/
def nextErrcode (s : State) (c : RspCode) : RspCode := if s.err then s.errcode else c

end Sys2Proof.Machine
end

