-- ==== Sys2Proof/Machine/Ops.lean ====
section
/-! DEFINITION. The named operations over the memories and registers: entry reads and writes
(spec/00_scope.md rule R9, spec/20_memory.md rules R46, R51), `respond`, `refuse`
(spec/60_exceptions.md rule R150) and `invalidate` (spec/40_frequency_table.md rule R84). There is
no return from a refusal to model (R152). -/

namespace Sys2Proof.Machine

/-! ### Memories -/

/-- `M[a]`: the listed entry, or `fill` where none is listed (R9; log entry 8). -/
def Memory.read {α : Type} (fill : α) (m : Memory α) (a : Nat) : α :=
  match m with
  | [] => fill
  | (k, v) :: rest => if k = a then v else Memory.read fill rest a

/-- The list with `(a, v)` put in at its place by rising index. -/
def Memory.insert {α : Type} (m : Memory α) (a : Nat) (v : α) : Memory α :=
  match m with
  | [] => [(a, v)]
  | (k, x) :: rest => if a < k then (a, v) :: (k, x) :: rest else (k, x) :: Memory.insert rest a v

/-- The list without the entry at `a`. -/
def Memory.erase {α : Type} (m : Memory α) (a : Nat) : Memory α :=
  match m with
  | [] => []
  | (k, x) :: rest => if k = a then Memory.erase rest a else (k, x) :: Memory.erase rest a

/-- `M[a] <- v`, the whole entry (R9, R51). Writing what an unlisted index reads as removes the
entry, so that equal memories are equal lists (log entry 8). -/
def Memory.write {α : Type} [DecidableEq α] (fill : α) (m : Memory α) (a : Nat) (v : α) : Memory α :=
  if v = fill then Memory.erase m a else Memory.insert (Memory.erase m a) a v

/-- The canonical form: indices strictly rising, all below `size`, no entry equal to `fill`
(log entry 8). -/
def Memory.wf {α : Type} [DecidableEq α] (fill : α) (size : Nat) (m : Memory α) : Bool :=
  match m with
  | [] => true
  | (k, v) :: rest =>
    decide (k < size) && decide (v ≠ fill) && rest.all (fun e => decide (k < e.1))
      && Memory.wf fill size rest

/-- What an unlisted entry of FREQ reads as: 0 (R41). -/
def freqFill : Count := 0

/-- What an unlisted entry of NODE reads as (unspecified and unreachable in R41: log entry 7). -/
def nodeFill : Node := ⟨.leaf, 0, 0, 0, 0⟩

/-- What an unlisted entry of CODE reads as: the empty code, which is what ASSIGN clears every
entry to (R114). -/
def codeFill : CodeEntry := ⟨0, 0, 0⟩

/-- What an unlisted entry of CAND reads as: not a candidate, which is what BUILD clears every entry
to (R87). -/
def candFill : Bool := false

/-- What an unlisted entry of STK reads as (unspecified and unreachable in R41: log entry 7). -/
def stkFill : StkEntry := ⟨0, 0, 0⟩

/-- `FREQ[b]` (R14). -/
def freqAt (s : State) (b : Sym) : Count := Memory.read freqFill s.freq b.toNat

/-- `FREQ[b] <- c` (R14). -/
def setFreq (s : State) (b : Sym) (c : Count) : State :=
  { s with freq := Memory.write freqFill s.freq b.toNat c }

/-- `NODE[i]` (R15). -/
def nodeAt (s : State) (i : NodeIdx) : Node := Memory.read nodeFill s.node i.toNat

/-- `NODE[i] <- n` (R15). -/
def setNode (s : State) (i : NodeIdx) (n : Node) : State :=
  { s with node := Memory.write nodeFill s.node i.toNat n }

/-- `CODE[b]` (R18). -/
def codeAt (s : State) (b : Sym) : CodeEntry := Memory.read codeFill s.code b.toNat

/-- `CODE[b] <- e` (R18). -/
def setCode (s : State) (b : Sym) (e : CodeEntry) : State :=
  { s with code := Memory.write codeFill s.code b.toNat e }

/-- `CAND[i]` (R20). -/
def candAt (s : State) (i : NodeIdx) : Bool := Memory.read candFill s.cand i.toNat

/-- `CAND[i] <- v` (R20). -/
def setCand (s : State) (i : NodeIdx) (v : Bool) : State :=
  { s with cand := Memory.write candFill s.cand i.toNat v }

/-- `STK[j]` (R21). -/
def stkAt (s : State) (j : Nat) : StkEntry := Memory.read stkFill s.stk j

/-- `STK[j] <- e` (R21). -/
def setStk (s : State) (j : Nat) (e : StkEntry) : State :=
  { s with stk := Memory.write stkFill s.stk j e }

/-- `for b in 0..255: FREQ[b] <- 0` (R82): the memory with nothing listed. -/
def clearFreq (s : State) : State := { s with freq := [] }

/-- `for b in 0..255: CODE[b] <- {0, 0, 0}` (R113, R114): the memory with nothing listed. -/
def clearCode (s : State) : State := { s with code := [] }

/-- `for i in 0..510: CAND[i] <- 0` (R87): the memory with nothing listed. -/
def clearCand (s : State) : State := { s with cand := [] }

/-- Every byte value, ascending: the order of `for b in 0..255` (R9, R88). -/
def allSyms : List Sym := (List.range Config.NSYM).map (BitVec.ofNat Config.SYMW)

/-- Every node index that names an entry of NODE, ascending: 0 to 510 (R15). -/
def allNodes : List NodeIdx := (List.range Config.NNODE).map (BitVec.ofNat Config.IDXW)

/-! ### Responses and refusals -/

/-- `respond(code, data)`: a command completes with its response (R9, R77). -/
def respond (c : RspCode) (d : RspData) (s : State) : Host.Outcome State Fault Refusal :=
  .next { s with rsp := some ⟨c, d⟩ }

/-- `refuse <Code>`: what a refusal does, all of it (R150, R151). ERRCODE keeps the first code,
ERR is set, nothing else of the machine is written; the response is {Code, 0}. -/
def refuse (c : RspCode) (s : State) : Host.Outcome State Fault Refusal :=
  respond c .nothing { s with errcode := nextErrcode s c, err := true }

/-- `invalidate()`: withdraw everything derived from the old table (R84). -/
def invalidate (s : State) : State :=
  { s with
    built := false, codev := false, empty := false, single := false,
    nleaf := 0, next := 0, root := 0,
    wlen := 0, wlenraw := 0 }

end Sys2Proof.Machine
end

