-- ==== Sys2Proof/Machine/Encoding.lean ====
section
/-! DEFINITION. Encoding assignment, ASSIGN, RDC and RDW (spec/42_encoding_assign.md). -/

namespace Sys2Proof.Machine

/-- The CODE entry of a leaf at depth `d` with path value `p`: the raw length is `d`, the stored
length is that of `p` without leading zeros (R116, R117, R118). -/
def leafCode (d : Len) (p : Path) : CodeEntry := ⟨d, BitVec.ofNat Config.LENW (bitlen p), p⟩

/-- `w * len`, the exact (WW + 8)-bit product (R124). -/
def weighted (w : Weight) (l : Len) : Sum := w.setWidth Config.AW * l.setWidth Config.AW

/-- `emit(sym, w, d, p)` (R116). -/
def emit (s : State) (n : Node) (d : Len) (p : Path) : State :=
  let e := leafCode d p
  let s1 := setCode s n.sym e
  { s1 with
    wlenraw := s.wlenraw + weighted n.weight e.rawlen
    wlen := s.wlen + weighted n.weight e.len }

/-- `walk(n, d, p)` (R115): left appends "0", right appends "1", a leaf is emitted. `room` is how
many more levels the 8-bit depth can hold, MAXLEN at the root. In a tree that `BUILD` made neither
fault is met (R109, R124); they stand for trees it never makes (log entry 9). -/
def walk : (room : Nat) → NodeIdx → Len → Path → State → Except Fault State
  | 0, n, d, p, s =>
    if n.toNat < Config.NNODE then
      match (nodeAt s n).kind with
      | .leaf => .ok (emit s (nodeAt s n) d p)
      | .internal => .error .pathTooLong
    else .error .noSuchNode
  | room + 1, n, d, p, s =>
    if n.toNat < Config.NNODE then
      match (nodeAt s n).kind with
      | .leaf => .ok (emit s (nodeAt s n) d p)
      | .internal =>
        match walk room (nodeAt s n).left (d + 1) (2 * p) s with
        | .error r => .error r
        | .ok s1 => walk room (nodeAt s n).right (d + 1) (2 * p + 1) s1
    else .error .noSuchNode

/-- The clearing that begins `ASSIGN` (R113, R114). -/
def clearAssign (s : State) : State := clearCode { s with wlen := 0, wlenraw := 0 }

/-- The walk of the whole tree, skipped when there is none (R113, R121). -/
def walkTree (s : State) : Except Fault State :=
  if s.empty then .ok s else walk Config.MAXLEN s.root 0 0 s

/-- The end of `ASSIGN`: the table is current, the tree is consumed (R113, R123). -/
def consumeTree (s : State) : State := { s with codev := true, built := false }

/-- `ASSIGN` (R113). It ends with SP = 0, IX = 0 and PH = IDLE (R125, R132; log entries 11, 12). -/
def execAssign (s : State) : Host.Outcome State Fault Refusal :=
  if s.built = false then refuse .seq s
  else
    match walkTree (clearAssign s) with
    | .error r => .fault r
    | .ok s1 => respond .ok .nothing { consumeTree s1 with sp := 0, ix := 0, ph := .idle }

/-- `RDC b` (R135). -/
def execRdc (b : Sym) (s : State) : Host.Outcome State Fault Refusal :=
  if s.codev = false then refuse .seq s else respond .ok (.code (codeAt s b)) s

/-- The sum that `RDW` selects (R67, R137). -/
def selectedSum (sel : BitVec 1) (s : State) : Sum := if sel = 0 then s.wlen else s.wlenraw

/-- `RDW s` (R137). -/
def execRdw (sel : BitVec 1) (s : State) : Host.Outcome State Fault Refusal :=
  if s.codev = false then refuse .seq s else respond .ok (.sum (selectedSum sel s)) s

end Sys2Proof.Machine
end

