-- ==== Sys2Proof/Machine/Frequency.lean ====
section
/-! DEFINITION. The frequency table commands CLR, WRF, RDF (spec/40_frequency_table.md). -/

namespace Sys2Proof.Machine

/-- `CLR` (R82): zero FREQ, invalidate, clear the error record. -/
def execClr (s : State) : Host.Outcome State Fault Refusal :=
  respond .ok .nothing { invalidate (clearFreq s) with err := false, errcode := .ok }

/-- `WRF b, c` (R83): the count is the data word taken with the command. -/
def execWrf (b : Sym) (s : State) : Host.Outcome State Fault Refusal :=
  respond .ok .nothing (invalidate (setFreq s b s.din))

/-- `RDF b` (R85). -/
def execRdf (b : Sym) (s : State) : Host.Outcome State Fault Refusal :=
  respond .ok (.count (freqAt s b)) s

end Sys2Proof.Machine
end

