-- ==== Sys2Proof/Machine/Misc.lean ====
section
/-! DEFINITION. Status and no-operation, NOP and RDS (spec/43_status_and_misc.md). -/

namespace Sys2Proof.Machine

/-- `NOP` (R139): responds, writes nothing. -/
def execNop (s : State) : Host.Outcome State Fault Refusal := respond .ok .nothing s

/-- `RDS` (R140): reading STATUS does not clear ERR. -/
def execRds (s : State) : Host.Outcome State Fault Refusal := respond .ok (.status (status s)) s

end Sys2Proof.Machine
end

