-- ==== Sys2Proof/Machine/Tree.lean ====
section
/-! DEFINITION. Tree construction, BUILD and RDN (spec/41_tree_build.md). -/

namespace Sys2Proof.Machine

/-! ### Leaves (R88) -/

/-- The leaf that `BUILD` makes for a byte value (R88). -/
def leafNode (s : State) (b : Sym) : Node := ⟨.leaf, (freqAt s b).setWidth Config.WW, b, 0, 0⟩

/-- One turn of the leaf loop, which is also the work of micro-operation B1 (R88, R97). -/
def leafStep (s : State) (b : Sym) : State :=
  if freqAt s b = 0 then s
  else
    let s1 := setCand (setNode s s.next (leafNode s b)) s.next true
    { s1 with next := s.next + 1, nleaf := s.nleaf + 1 }

/-- `make_leaves()`: one leaf for each byte value with a count that is not 0, ascending (R88). -/
def makeLeaves (s : State) : State := allSyms.foldl leafStep s

/-! ### Merging (R91 to R94) -/

/-- The candidates, by rising index (R20). -/
def candidates (s : State) : List NodeIdx := allNodes.filter (candAt s)

/-- `popcount(CAND)`: the number of entries of CAND that are 1 (R9). -/
def candCount (s : State) : Nat := (candidates s).length

/-- `key(i) = { NODE[i].weight, ~i[8:0] }`, WW + 9 bits (R92). -/
def key (s : State) (i : NodeIdx) : BitVec (Config.WW + Config.IDXW) := (nodeAt s i).weight ++ ~~~i

/-- The entry of a list whose key is least, or none of an empty list. -/
def leastBy (k : NodeIdx → BitVec (Config.WW + Config.IDXW)) : List NodeIdx → Option NodeIdx
  | [] => none
  | i :: rest =>
    match leastBy k rest with
    | none => some i
    | some j => if k j < k i then some j else some i

/-- `extract_min()` without its removal: the candidate whose key is least (R92). It is only asked
for when there is a candidate; of an empty set it answers 0. -/
def leastCandidate (s : State) : NodeIdx := (leastBy (key s) (candidates s)).getD 0

/-- The internal node that a merge round makes of its two extractions (R91, R93). -/
def mergedNode (s : State) (m1 m2 : NodeIdx) : Node :=
  ⟨.internal, (nodeAt s m1).weight + (nodeAt s m2).weight, 0, m1, m2⟩

/-- One merge round, which is also the work of micro-operation B3 (R91, R99): M1 and M2 are
extracted, the new node takes index NEXT and becomes a candidate (R94). -/
def mergeRound (s : State) : State :=
  let m1 := leastCandidate s
  let s1 := { setCand s m1 false with m1 := m1 }
  let m2 := leastCandidate s1
  let s2 := { setCand s1 m2 false with m2 := m2 }
  let s3 := setCand (setNode s2 s.next (mergedNode s2 m1 m2)) s.next true
  { s3 with next := s.next + 1 }

/-- `merge_all()`: rounds while two candidates are left (R91). The loop runs k - 1 rounds, at most
255, so the fuel `BUILD` gives it is never used up. -/
def mergeAll : Nat → State → State
  | 0, s => s
  | fuel + 1, s => if 2 ≤ candCount s then mergeAll fuel (mergeRound s) else s

/-! ### The command (R87, R95) -/

/-- The first line of `BUILD` (R87). -/
def clearBuild (s : State) : State := clearCand { s with next := 0, nleaf := 0, root := 0 }

/-- `finish()` (R95). -/
def finish (s : State) : State :=
  { s with
    root := rootIndex s.nleaf s.next
    empty := emptyFlag s.nleaf
    single := singleFlag s.nleaf
    built := true }

/-- `if NLEAF >= 2 then merge_all()` (R87). -/
def mergeIfTwo (s : State) : State := if 2 ≤ s.nleaf.toNat then mergeAll Config.NNODE s else s

/-- The state `BUILD` makes, before its response (R87). The sequencer ends in IDLE with IX = 0, as
the micro-operations B2 and B4 leave it (R98, R100; log entry 11). -/
def buildState (s : State) : State :=
  { finish (mergeIfTwo (makeLeaves (clearBuild s))) with ix := 0, ph := .idle }

/-- `BUILD` (R87): never refused, in any state. -/
def execBuild (s : State) : Host.Outcome State Fault Refusal := respond .ok .nothing (buildState s)

/-- `RDN i` (R103): SEQ is checked before INDEX (R149). -/
def execRdn (i : NodeIdx) (s : State) : Host.Outcome State Fault Refusal :=
  if s.built = false then refuse .seq s
  else if s.next ≤ i then refuse .index s
  else respond .ok (.node (nodeAt s i)) s

end Sys2Proof.Machine
end

