-- ==== Sys2Proof/Machine/Dispatch.lean ====
section
/-! DEFINITION. One arm for each command (spec/30_encoding.md rule R69). -/

namespace Sys2Proof.Machine

def exec (i : Instr) (s : State) : Host.Outcome State Fault Refusal :=
  match i with
  | .nop => Sys2Proof.Machine.execNop s
  | .clr => Sys2Proof.Machine.execClr s
  | .wrf b => Sys2Proof.Machine.execWrf b s
  | .rdf b => Sys2Proof.Machine.execRdf b s
  | .build => Sys2Proof.Machine.execBuild s
  | .assign => Sys2Proof.Machine.execAssign s
  | .rdn n => Sys2Proof.Machine.execRdn n s
  | .rdc b => Sys2Proof.Machine.execRdc b s
  | .rds => Sys2Proof.Machine.execRds s
  | .rdw sel => Sys2Proof.Machine.execRdw sel s

end Sys2Proof.Machine
end

