-- ==== Sys2Proof/Machine/Micro.lean ====
section
/-! DEFINITION. The micro-operations that refine BUILD and ASSIGN (spec/41_tree_build.md rules R96
to R100, spec/42_encoding_assign.md rules R128 to R132), chosen by PH, IX and SP (R30). The faults
here stand for states that no run reaches (log entry 9). -/

namespace Sys2Proof.Machine

/-- B0, start (R96). -/
def microB0 (s : State) : State :=
  { clearBuild s with empty := false, single := false, built := false, ix := 0, ph := .scan }

/-- B1, scan step (R97). -/
def microB1 (s : State) : Host.Outcome State Fault Refusal :=
  let b : Sym := s.ix.setWidth Config.SYMW
  if freqAt s b ≠ 0 ∧ s.next.toNat = Config.NNODE then .fault .nodeStoreFull
  else .next { leafStep s b with ix := s.ix + 1 }

/-- The common end of B2 and B4 (R98, R100): finish, back to IDLE, respond. -/
def completeBuild (s : State) : Host.Outcome State Fault Refusal :=
  respond .ok .nothing { finish s with ix := 0, ph := .idle }

/-- B2, scan end (R98). -/
def microB2 (s : State) : Host.Outcome State Fault Refusal :=
  if 2 ≤ s.nleaf.toNat then .next { s with ph := .merge } else completeBuild s

/-- B3, merge round (R99). -/
def microB3 (s : State) : Host.Outcome State Fault Refusal :=
  if s.next.toNat = Config.NNODE then .fault .nodeStoreFull else .next (mergeRound s)

/-- B4, merge end (R100). -/
def microB4 (s : State) : Host.Outcome State Fault Refusal := completeBuild s

/-- A0, start (R128). -/
def microA0 (s : State) : State :=
  { s with wlen := 0, wlenraw := 0, codev := false, ix := 0, ph := .clear }

/-- A1, clear step (R129). -/
def microA1 (s : State) : State :=
  { setCode s (s.ix.setWidth Config.SYMW) codeFill with ix := s.ix + 1 }

/-- A2, clear end (R130). -/
def microA2 (s : State) : State :=
  let s1 := { s with sp := 0 }
  let s2 := if s.empty then s1 else { setStk s1 0 ⟨s.root, 0, 0⟩ with sp := 1 }
  { s2 with ph := .walk }

/-- A3, visit (R131): pop; a leaf is emitted, an internal node's children are pushed, left last. -/
def microA3 (s : State) : Host.Outcome State Fault Refusal :=
  let top := s.sp.toNat - 1
  if Config.STKDEPTH ≤ top then .fault .stackOverflow
  else
    let e := stkAt s top
    if Config.NNODE ≤ e.node.toNat then .fault .noSuchNode
    else
      let n := nodeAt s e.node
      match n.kind with
      | .leaf => .next (emit { s with sp := s.sp - 1 } n e.depth e.path)
      | .internal =>
        if e.depth.toNat = Config.MAXLEN then .fault .pathTooLong
        else if Config.STKDEPTH ≤ top + 1 then .fault .stackOverflow
        else
          let s1 := setStk s top ⟨n.right, e.depth + 1, 2 * e.path + 1⟩
          let s2 := setStk s1 (top + 1) ⟨n.left, e.depth + 1, 2 * e.path⟩
          .next { s2 with sp := s.sp + 1 }

/-- A4, end (R132). -/
def microA4 (s : State) : Host.Outcome State Fault Refusal :=
  respond .ok .nothing { consumeTree s with ix := 0, ph := .idle }

/-- The one micro-operation that is enabled while a command is in progress (R30, R96 to R100, R128
to R132). In IDLE none is. -/
def microOp (s : State) : Host.Outcome State Fault Refusal :=
  match s.ph with
  | .idle => .next s
  | .scan =>
    if s.ix.toNat < Config.NSYM then microB1 s
    else if s.ix.toNat = Config.NSYM then microB2 s
    else .fault .noMicroOp
  | .merge =>
    if 2 ≤ candCount s then microB3 s
    else if candCount s = 1 then microB4 s
    else .fault .noMicroOp
  | .clear =>
    if s.ix.toNat < Config.NSYM then .next (microA1 s)
    else if s.ix.toNat = Config.NSYM then .next (microA2 s)
    else .fault .noMicroOp
  | .walk => if s.sp = 0 then microA4 s else microA3 s

/-- How the refined machine begins a command: `BUILD` with B0, `ASSIGN` with its SEQ check and A0,
every other command whole, in IDLE (R30, R96, R128). -/
def startMicro (i : Instr) (s : State) : Host.Outcome State Fault Refusal :=
  match i with
  | .build => .next (microB0 s)
  | .assign => if s.built = false then refuse .seq s else .next (microA0 s)
  | .nop => exec .nop s
  | .clr => exec .clr s
  | .wrf b => exec (.wrf b) s
  | .rdf b => exec (.rdf b) s
  | .rdn n => exec (.rdn n) s
  | .rdc b => exec (.rdc b) s
  | .rds => exec .rds s
  | .rdw sel => exec (.rdw sel) s

end Sys2Proof.Machine
end

