-- ==== Sys2Proof/Machine/Port.lean ====
section
/-! DEFINITION. The command port, the response port and reset (spec/10_state.md rules R36, R37,
spec/70_reset_and_hazards.md rules R161, R162, R169): what one step does with one sampling of the
port inputs. -/

namespace Sys2Proof.Machine

/-- The inputs of a port on which the host does nothing. -/
def idleInput : PortIn := ⟨false, false, 0, 0, false⟩

/-- The inputs at the next sampling; a host with nothing left to apply does nothing. -/
def portIn (s : State) : PortIn := s.host.headD idleInput

/-- The host's inputs after this sampling. -/
def hostRest (s : State) : State := { s with host := s.host.tail }

/-- A held response is taken when `rsp_ready = 1` (R37). -/
def takeResponse (q : PortIn) (s : State) : State := if q.rspReady then { s with rsp := none } else s

/-- `rst = 1` replaces the state by the reset state, whatever was in progress (R161, R162). The
host's remaining inputs are not the machine's and stay (log entry 3). -/
def resetBy (s : State) : State := { State.reset with host := s.host }

/-- A command is accepted: `cmd` and `din` are taken (R36), the word is decoded (R74), an ILLEGAL
word is refused (R145), and a command is run by `run`. -/
def accept (run : Instr → State → Host.Outcome State Fault Refusal) (q : PortIn) (s : State) :
    Host.Outcome State Fault Refusal :=
  let s1 := { s with din := q.din }
  match decode q.cmd with
  | .command i => run i s1
  | .reservedOpcode => refuse .illegal s1
  | .reservedBits => refuse .illegal s1

/-- One sampling of the port. Reset comes first (R162). While a command is in progress one
micro-operation runs and a presented command is not accepted (R36, V9). In IDLE a presented command
is accepted if no response is held (R36); otherwise the port only takes the response. -/
def tick (run : Instr → State → Host.Outcome State Fault Refusal) (s : State) :
    Host.Outcome State Fault Refusal :=
  let q := portIn s
  let s0 := hostRest s
  if q.rst then .next (resetBy s0)
  else if s.ph ≠ .idle then microOp (takeResponse q s0)
  else if cmdReady s && q.cmdValid then accept run q s0
  else .next (takeResponse q s0)

/-- The refined machine: `BUILD` and `ASSIGN` run one micro-operation a step (R101, R134). -/
def microStep (s : State) : Host.Outcome State Fault Refusal := tick startMicro s

/-- A port input that presents a command word with its data word (R36). -/
def present (w : Cmd) (d : Count) : PortIn := ⟨false, true, w, d, false⟩

/-- A port input that takes the held response (R37). -/
def take : PortIn := ⟨false, false, 0, 0, true⟩

/-- A port input that resets the block (R161). -/
def pulseRst : PortIn := ⟨true, false, 0, 0, false⟩

/-- `s` with a command word about to be presented and the port ready for it: IDLE and no response
held (R36). The data word is the one taken last. -/
def presentNext (s : State) (w : Cmd) : State :=
  { s with ph := .idle, rsp := none, host := present w s.din :: s.host }

end Sys2Proof.Machine
end

