-- ==== Sys2Proof/Machine/Step.lean ====
section
/-! DEFINITION. One step of the machine: one sampling of the port, in which an accepted command runs
whole (spec/00_scope.md rule R11). -/

namespace Sys2Proof.Machine

/-- One step (R11): a command that is accepted runs to completion in it. -/
def step (s : State) : Host.Outcome State Fault Refusal := tick exec s

/-- `s` with one command word placed where the next step takes its command: HTB stores no program
(R30, R59), so the word is presented on the command port, which is made ready for it (log entry
13). -/
def State.withFetchWord (s : State) (nbits w : Nat) : State :=
  presentNext s (BitVec.ofNat Config.CMDW (w % 2 ^ nbits))

end Sys2Proof.Machine
end

