-- ==== Sys2Proof/Machine/Asm.lean ====
section
/-! DEFINITION. The assembler syntax and the pseudo-instructions (spec/30_encoding.md rules R75, R76):
from the text of a command sequence to the words and data words that a host presents. What a line
may look like beyond the spec's words is log entry 15. -/

namespace Sys2Proof.Machine

/-- One line: one of the ten commands with its operands as numbers, or a pseudo-instruction. -/
inductive AsmLine where
  | nop
  | clr
  | wrf (b c : Nat)
  | rdf (b : Nat)
  | build
  | assign
  | rdn (i : Nat)
  | rdc (b : Nat)
  | rds
  | rdw (s : Nat)
  /-- `RUN` (R76). -/
  | run
  /-- `LOAD b1:c1, b2:c2, ...` (R76). -/
  | load (entries : List (Nat × Nat))
  /-- `RDWS` (R76). -/
  | rdws
  /-- `RDWR` (R76). -/
  | rdwr
  deriving DecidableEq, Repr

/-- A command word with the data word presented beside it (R63). -/
abbrev PortWord := Cmd × Count

/-- A command that ignores its data word: it is written as 0 (R75). -/
def plainWord (i : Instr) : PortWord := (encode i, 0)

/-- `WRF b, c` with its operands in range, or none (R75). -/
def wrfWord (b c : Nat) : Option PortWord :=
  if b < 2 ^ Config.SYMW ∧ c < 2 ^ Config.CW then
    some (encode (.wrf (BitVec.ofNat Config.SYMW b)), BitVec.ofNat Config.CW c)
  else none

/-- A command with one byte-value operand, or none when it is out of range (R75). -/
def symWord (f : Sym → Instr) (b : Nat) : Option PortWord :=
  if b < 2 ^ Config.SYMW then some (plainWord (f (BitVec.ofNat Config.SYMW b))) else none

/-- The `WRF` words of a `LOAD`, in the order written (R76). -/
def loadWords : List (Nat × Nat) → Option (List PortWord)
  | [] => some []
  | (b, c) :: rest =>
    match wrfWord b c, loadWords rest with
    | some w, some ws => some (w :: ws)
    | _, _ => none

/-- The words of one line; an operand out of its range is an error of the assembler, never an
encoded word (R75). -/
def assembleLine : AsmLine → Option (List PortWord)
  | .nop => some [plainWord .nop]
  | .clr => some [plainWord .clr]
  | .wrf b c => (wrfWord b c).map fun w => [w]
  | .rdf b => (symWord .rdf b).map fun w => [w]
  | .build => some [plainWord .build]
  | .assign => some [plainWord .assign]
  | .rdn i =>
    if i < 2 ^ Config.IDXW then some [plainWord (.rdn (BitVec.ofNat Config.IDXW i))] else none
  | .rdc b => (symWord .rdc b).map fun w => [w]
  | .rds => some [plainWord .rds]
  | .rdw s => if s < 2 then some [plainWord (.rdw (BitVec.ofNat 1 s))] else none
  | .run => some [plainWord .build, plainWord .assign]
  | .load entries => (loadWords entries).map fun ws => plainWord .clr :: ws
  | .rdws => some [plainWord (.rdw 0)]
  | .rdwr => some [plainWord (.rdw 1)]

/-- The words of a sequence of lines, in order (R75). -/
def assemble : List AsmLine → Option (List PortWord)
  | [] => some []
  | l :: rest =>
    match assembleLine l, assemble rest with
    | some ws, some more => some (ws ++ more)
    | _, _ => none

/-! ### The text (R75) -/

/-- A blank between the parts of a line. -/
def isBlank (c : Char) : Bool := c == ' ' || c == '\t' || c == '\r'

/-- The text without the blanks at its two ends. -/
def trim (t : List Char) : List Char := ((t.dropWhile isBlank).reverse.dropWhile isBlank).reverse

/-- The parts of a text between the occurrences of a character. -/
def splitAt (sep : Char) : List Char → List (List Char)
  | [] => [[]]
  | c :: rest =>
    match splitAt sep rest with
    | [] => [[c]]
    | part :: parts => if c == sep then [] :: part :: parts else (c :: part) :: parts

/-- The value of a digit, decimal or hexadecimal. -/
def digit (c : Char) : Option Nat :=
  let n := c.toNat
  if 48 ≤ n ∧ n ≤ 57 then some (n - 48)
  else if 65 ≤ n ∧ n ≤ 70 then some (n - 55)
  else if 97 ≤ n ∧ n ≤ 102 then some (n - 87)
  else none

/-- The value of a run of digits in a base, after the value so far. -/
def digits (base : Nat) : Nat → List Char → Option Nat
  | v, [] => some v
  | v, c :: rest =>
    match digit c with
    | some d => if d < base then digits base (base * v + d) rest else none
    | none => none

/-- A number: decimal, or hexadecimal with `0x` (R75). -/
def number (t : List Char) : Option Nat :=
  match trim t with
  | [] => none
  | '0' :: 'x' :: c :: rest => digits 16 0 (c :: rest)
  | c :: rest => digits 10 0 (c :: rest)

/-- One entry `b:c` of a `LOAD` (R76). -/
def loadEntry (t : List Char) : Option (Nat × Nat) :=
  match splitAt ':' t with
  | [b, c] =>
    match number b, number c with
    | some b, some c => some (b, c)
    | _, _ => none
  | _ => none

/-- Every entry of a `LOAD`. -/
def loadEntries : List (List Char) → Option (List (Nat × Nat))
  | [] => some []
  | t :: rest =>
    match loadEntry t, loadEntries rest with
    | some e, some es => some (e :: es)
    | _, _ => none

/-- The line a mnemonic and its operand parts stand for (R75, R76). -/
def lineOf (name : List Char) (parts : List (List Char)) : Option AsmLine :=
  match name, parts with
  | ['N', 'O', 'P'], [] => some .nop
  | ['C', 'L', 'R'], [] => some .clr
  | ['W', 'R', 'F'], [b, c] =>
    match number b, number c with
    | some b, some c => some (.wrf b c)
    | _, _ => none
  | ['R', 'D', 'F'], [b] => (number b).map .rdf
  | ['B', 'U', 'I', 'L', 'D'], [] => some .build
  | ['A', 'S', 'S', 'I', 'G', 'N'], [] => some .assign
  | ['R', 'D', 'N'], [i] => (number i).map .rdn
  | ['R', 'D', 'C'], [b] => (number b).map .rdc
  | ['R', 'D', 'S'], [] => some .rds
  | ['R', 'D', 'W'], [s] => (number s).map .rdw
  | ['R', 'U', 'N'], [] => some .run
  | ['L', 'O', 'A', 'D'], parts => (loadEntries parts).map .load
  | ['R', 'D', 'W', 'S'], [] => some .rdws
  | ['R', 'D', 'W', 'R'], [] => some .rdwr
  | _, _ => none

/-- One line of text without its comment and its outer blanks; an empty one stands for no line. -/
def parseBody (t : List Char) : Option (List AsmLine) :=
  match t with
  | [] => some []
  | c :: rest =>
    let body := c :: rest
    let name := body.takeWhile fun c => !isBlank c
    let operands := trim (body.dropWhile fun c => !isBlank c)
    let parts := match operands with
      | [] => []
      | c :: rest => splitAt ',' (c :: rest)
    (lineOf name parts).map fun l => [l]

/-- One line of text: a `;` starts a comment to the end of the line (R75). -/
def parseLine (t : List Char) : Option (List AsmLine) :=
  parseBody (trim (t.takeWhile fun c => c != ';'))

/-- Every line of a text. -/
def parseLines : List (List Char) → Option (List AsmLine)
  | [] => some []
  | t :: rest =>
    match parseLine t, parseLines rest with
    | some ls, some more => some (ls ++ more)
    | _, _ => none

/-- The words of a text, one command a line (R75). -/
def assembleText (t : List Char) : Option (List PortWord) :=
  match parseLines (splitAt '\n' t) with
  | some ls => assemble ls
  | none => none

/-! ### Presenting a sequence -/

/-- The port inputs with which a host runs a sequence of words: each is presented and its response
is then taken (R36, R37, R56). -/
def runInputs : List PortWord → List PortIn
  | [] => []
  | (w, d) :: rest => present w d :: take :: runInputs rest

/-- `s` with the host about to present a sequence of words; nothing else is changed. -/
def loadHost (s : State) (ws : List PortWord) : State := { s with host := runInputs ws ++ s.host }

end Sys2Proof.Machine
end

