-- ==== Sys2Proof/Safety.lean ====
section
/-! DEFINITION. The notions that statements about HTB are made in: what each part of the state being
kept means, the tree read off NODE (spec/00_scope.md rule R10), the facts of spec/10_state.md rule
R40, and a step that does not stop. -/

namespace Sys2Proof.Machine

/-! ### What is kept -/

/-- Every entry of FREQ reads as before. -/
def FreqKept (s t : State) : Prop := ∀ b, freqAt t b = freqAt s b

/-- Every entry of NODE reads as before. -/
def NodeKept (s t : State) : Prop := ∀ i, nodeAt t i = nodeAt s i

/-- Every entry of CODE reads as before. -/
def CodeKept (s t : State) : Prop := ∀ b, codeAt t b = codeAt s b

/-- Every entry of CAND reads as before. -/
def CandKept (s t : State) : Prop := ∀ i, candAt t i = candAt s i

/-- Every entry of STK reads as before. -/
def StkKept (s t : State) : Prop := ∀ j, stkAt t j = stkAt s j

/-- NEXT, NLEAF and ROOT are as before. -/
def CountsKept (s t : State) : Prop := t.next = s.next ∧ t.nleaf = s.nleaf ∧ t.root = s.root

/-- BUILT, CODEV, EMPTY and SINGLE are as before. -/
def FlagsKept (s t : State) : Prop :=
  t.built = s.built ∧ t.codev = s.codev ∧ t.empty = s.empty ∧ t.single = s.single

/-- ERR and ERRCODE are as before. -/
def ErrorKept (s t : State) : Prop := t.err = s.err ∧ t.errcode = s.errcode

/-- PH, IX and SP are as before. -/
def SequencerKept (s t : State) : Prop := t.ph = s.ph ∧ t.ix = s.ix ∧ t.sp = s.sp

/-- M1 and M2 are as before. -/
def ScratchKept (s t : State) : Prop := t.m1 = s.m1 ∧ t.m2 = s.m2

/-- WLEN and WLENRAW are as before. -/
def SumsKept (s t : State) : Prop := t.wlen = s.wlen ∧ t.wlenraw = s.wlenraw

/-- The model's own port fields, but for the response, are as before. -/
def PortKept (s t : State) : Prop := t.din = s.din ∧ t.host = s.host

/-- The response held in `t` (R77). -/
def Responds (t : State) (c : RspCode) (d : RspData) : Prop := t.rsp = some ⟨c, d⟩

/-- Everything of the machine but ERR, ERRCODE and the response is as before. -/
def AllButErrorKept (s t : State) : Prop :=
  FreqKept s t ∧ NodeKept s t ∧ CodeKept s t ∧ CandKept s t ∧ StkKept s t ∧ CountsKept s t ∧
    FlagsKept s t ∧ SequencerKept s t ∧ ScratchKept s t ∧ SumsKept s t ∧ PortKept s t

/-- Everything of the machine but the response is as before. -/
def StateKept (s t : State) : Prop := AllButErrorKept s t ∧ ErrorKept s t

/-- Everything that a refusal writes (R150): ERR is set, ERRCODE keeps the first code, the response
is {code, 0}, and nothing else changes. -/
def Refused (s t : State) (c : RspCode) : Prop :=
  AllButErrorKept s t ∧ t.err = true ∧ (s.err = false → t.errcode = c) ∧
    (s.err = true → t.errcode = s.errcode) ∧ Responds t c .nothing

/-- What `invalidate()` leaves (R84). -/
def Invalidated (t : State) : Prop :=
  t.built = false ∧ t.codev = false ∧ t.empty = false ∧ t.single = false ∧
    t.nleaf = 0 ∧ t.next = 0 ∧ t.root = 0 ∧ t.wlen = 0 ∧ t.wlenraw = 0

/-! ### Present bytes and trees -/

/-- The present bytes, ascending (R12, R39). -/
def presentSyms (s : State) : List Sym := allSyms.filter fun b => freqAt s b ≠ 0

/-- k, as FREQ gives it (R12). -/
def presentCount (s : State) : Nat := (presentSyms s).length

/-- The sum of all 256 counts (R105). -/
def totalCount (s : State) : Nat := (allSyms.map fun b => (freqAt s b).toNat).sum

/-- A tree term (R10). -/
inductive HTree where
  | leaf (sym : Sym) (w : Weight)
  | internal (w : Weight) (l r : HTree)
  deriving DecidableEq, Repr

/-- The weight of a tree's root. -/
def HTree.weight : HTree → Weight
  | .leaf _ w => w
  | .internal w _ _ => w

/-- The leaves of a tree from left to right. -/
def HTree.leaves : HTree → List (Sym × Weight)
  | .leaf b w => [(b, w)]
  | .internal _ l r => l.leaves ++ r.leaves

/-- The sum over the leaves of weight times depth, when the root has depth `d`. -/
def HTree.cost (d : Nat) : HTree → Nat
  | .leaf _ w => w.toNat * d
  | .internal _ l r => l.cost (d + 1) + r.cost (d + 1)

/-- The subtree that a route leads to: "0" (false) is left, "1" (true) is right (R115). -/
def HTree.follow : List Bool → HTree → Option HTree
  | [], t => some t
  | x :: rest, .internal _ l r => HTree.follow rest (if x then r else l)
  | _ :: _, .leaf _ _ => none

/-- The path value of a route: its binary numeral, first bit most significant (R12, R115). -/
def pathValue (route : List Bool) : Nat := route.foldl (fun v x => 2 * v + x.toNat) 0

/-- `T` is the tree read off NODE at index `i`, `tree(i)` of R10. -/
inductive TreeAt (s : State) : NodeIdx → HTree → Prop where
  | leaf {i : NodeIdx} (hi : i.toNat < Config.NNODE) (hk : (nodeAt s i).kind = .leaf) :
      TreeAt s i (.leaf (nodeAt s i).sym (nodeAt s i).weight)
  | internal {i : NodeIdx} {l r : HTree} (hi : i.toNat < Config.NNODE)
      (hk : (nodeAt s i).kind = .internal) (hl : TreeAt s (nodeAt s i).left l)
      (hr : TreeAt s (nodeAt s i).right r) : TreeAt s i (.internal (nodeAt s i).weight l r)

/-! ### Codes -/

/-- The sum over all bytes of count times a length (R122). -/
def weightedSum (s : State) (len : CodeEntry → Len) : Nat :=
  (allSyms.map fun b => (freqAt s b).toNat * (len (codeAt s b)).toNat).sum

/-- The sum of the weights of the internal nodes NODE[k .. 2k - 2] (R138 item 7). -/
def internalWeight (s : State) (k : Nat) : Nat :=
  ((List.range (k - 1)).map fun r => (nodeAt s (BitVec.ofNat Config.IDXW (k + r))).weight.toNat).sum

/-! ### The facts of R40 -/

/-- Every memory is in its canonical form, with entries only where the memory has them (R46;
log entry 8). -/
def MemoriesCanonical (s : State) : Prop :=
  Memory.wf freqFill Config.NSYM s.freq = true ∧ Memory.wf nodeFill Config.NNODE s.node = true ∧
    Memory.wf codeFill Config.NSYM s.code = true ∧ Memory.wf candFill Config.NNODE s.cand = true ∧
    Memory.wf stkFill Config.STKDEPTH s.stk = true

/-- NODE[0 .. NEXT - 1] is the tree that `BUILD` makes from the present FREQ (R40 item 5). -/
def NodesMatchFreq (s : State) : Prop := ∀ i, i < s.next → nodeAt s i = nodeAt (buildState s) i

/-- CODE, WLEN and WLENRAW are what `BUILD` followed by `ASSIGN` make from the present FREQ (R40
item 6). -/
def TableMatchesFreq (s : State) : Prop :=
  ∃ t, execAssign (buildState s) = .next t ∧ CodeKept t s ∧ SumsKept t s

/-- The facts that hold between commands (R40), and with them PH = IDLE and IX = 0 (R30). -/
structure Consistent (s : State) : Prop where
  /-- Between commands (R30). -/
  idle : s.ph = .idle ∧ s.ix = 0
  /-- R40 item 1. -/
  stack : s.sp = 0
  /-- R40 item 2. -/
  emptySingle : (s.empty = true → s.nleaf = 0) ∧ (s.single = true → s.nleaf = 1) ∧
    ¬(s.empty = true ∧ s.single = true)
  /-- R40 item 3. -/
  nextCount : s.next.toNat = 2 * s.nleaf.toNat - 1
  /-- R40 item 4. -/
  rootPlace : s.root.toNat = 2 * s.nleaf.toNat - 2
  /-- R40 item 5. -/
  tree : s.built = true → s.nleaf.toNat = presentCount s ∧ s.empty = decide (presentCount s = 0) ∧
    s.single = decide (presentCount s = 1) ∧ NodesMatchFreq s
  /-- R40 item 6. -/
  table : s.codev = true → TableMatchesFreq s
  /-- R40 item 7: with BUILT = 0 and CODEV = 0 no BUILD has run since the last invalidation. -/
  withdrawn : s.built = false → s.codev = false → Invalidated s
  /-- R40 item 8. -/
  error : s.err = false ↔ s.errcode = .ok
  /-- NLEAF is a count of byte values (R23). -/
  leafBound : s.nleaf.toNat ≤ Config.NSYM
  /-- The memories are canonical (log entry 8). -/
  memories : MemoriesCanonical s

/-- What the host can learn by commands from a state is the same in both: everything but CAND, STK,
M1, M2, and but NODE and CODE where BUILT, NEXT and CODEV keep them from being read (R41, R170). -/
structure SameVisible (s t : State) : Prop where
  freq : FreqKept s t
  counts : CountsKept s t
  flags : FlagsKept s t
  error : ErrorKept s t
  sequencer : SequencerKept s t
  sums : SumsKept s t
  port : PortKept s t
  response : t.rsp = s.rsp
  nodes : s.built = true → ∀ i, i < s.next → nodeAt t i = nodeAt s i
  codes : s.codev = true → CodeKept s t

/-! ### Runs -/

/-- The commands that read (R53). -/
def isRead : Instr → Bool
  | .rdf _ => true
  | .rdn _ => true
  | .rdc _ => true
  | .rds => true
  | .rdw _ => true
  | .nop => false
  | .clr => false
  | .wrf _ => false
  | .build => false
  | .assign => false

/-- The response code that a command meets in a state, as the table of R148 gives it. -/
def refusalCause (i : Instr) (s : State) : RspCode :=
  match i with
  | .nop => .ok
  | .clr => .ok
  | .wrf _ => .ok
  | .rdf _ => .ok
  | .build => .ok
  | .assign => if s.built then .ok else .seq
  | .rdn n => if s.built then (if n < s.next then .ok else .index) else .seq
  | .rdc _ => if s.codev then .ok else .seq
  | .rds => .ok
  | .rdw _ => if s.codev then .ok else .seq

/-- `s` with another error record. -/
def withError (s : State) (e : Bool) (c : RspCode) : State := { s with err := e, errcode := c }

/-- Commands with their data words, executed one after another (R56). -/
def runCommands : List (Instr × Count) → State → Host.Outcome State Fault Refusal
  | [], s => .next s
  | (i, d) :: rest, s =>
    match exec i { s with din := d } with
    | .next t => runCommands rest t
    | .fault r => .fault r
    | .refused r => .refused r

/-- Command words with their data words, decoded and executed one after another (R56, R74). -/
def runWords : List PortWord → State → Host.Outcome State Fault Refusal
  | [], s => .next s
  | (w, d) :: rest, s =>
    match accept exec (present w d) s with
    | .next t => runWords rest t
    | .fault r => .fault r
    | .refused r => .refused r

/-- The outcome is a next state: the machine does not stop. -/
def Completes (o : Host.Outcome State Fault Refusal) : Prop := ∃ t, o = .next t

/-- The outcome with its next state changed by `f`. -/
def mapNext (f : State → State) : Host.Outcome State Fault Refusal → Host.Outcome State Fault Refusal
  | .next s => .next (f s)
  | .fault r => .fault r
  | .refused r => .refused r

/-- `n` steps of the refined machine, stopping at a fault or refusal. -/
def microRun : Nat → State → Host.Outcome State Fault Refusal
  | 0, s => .next s
  | n + 1, s =>
    match microStep s with
    | .next t => microRun n t
    | .fault r => .fault r
    | .refused r => .refused r

/-- A command word stands at the port, will be accepted, and is not overridden by reset. -/
def Accepts (s : State) (i : Instr) : Prop :=
  cmdReady s = true ∧ (portIn s).rst = false ∧ (portIn s).cmdValid = true ∧
    decode (portIn s).cmd = .command i

/-- The state in which an accepted command runs: its data word is taken and the port input is used
up (R36). -/
def accepted (s : State) : State := { hostRest s with din := (portIn s).din }

/-- A word stands at the port that will be taken although it may be no command. -/
def Presents (s : State) : Prop :=
  cmdReady s = true ∧ (portIn s).rst = false ∧ (portIn s).cmdValid = true

/-- None of the next `n` port inputs is a reset. -/
def NoReset (n : Nat) (s : State) : Prop := ∀ q ∈ s.host.take n, q.rst = false

end Sys2Proof.Machine
end

