-- ==== Sys2Proof/Certificates/Slice0/Obligations.lean ====
section
/-! DEFINITION. The statements about the model, for the provers. Each docstring names the rule of
spec/ that the statement formalises. Titles and texts are in OBLIGATIONS.json. -/

section

open Sys2Proof Sys2Proof.Machine

/-! ### Reset -/

/-- R41: every value that the rule gives. The rule leaves NODE, CODE, CAND, STK, M1 and M2 without
a value, and nothing is said of them here. -/
def Obligations.ResetLeavesSpecifiedValues : Prop :=
  (∀ b, freqAt State.reset b = 0) ∧
    State.reset.next = 0 ∧ State.reset.nleaf = 0 ∧ State.reset.root = 0 ∧
    State.reset.built = false ∧ State.reset.codev = false ∧ State.reset.empty = false ∧
    State.reset.single = false ∧ State.reset.err = false ∧ State.reset.errcode.toBits = 0 ∧
    State.reset.ph.toBits = 0 ∧ State.reset.ph = .idle ∧ State.reset.ix = 0 ∧
    State.reset.sp = 0 ∧ State.reset.wlen = 0 ∧ State.reset.wlenraw = 0 ∧
    status State.reset = 0x00000000#32 ∧ rspValid State.reset = false ∧
    cmdReady State.reset = true

/-- R162, R163: reset at any time leaves the reset state, whatever was in progress. The host's
remaining inputs are not the machine's (log entry 3). -/
def Obligations.RstReplacesAnyState : Prop :=
  ∀ s, (portIn s).rst = true →
    step s = .next { State.reset with host := s.host.tail } ∧
      microStep s = .next { State.reset with host := s.host.tail }

/-- R164: every command is legal straight after reset, and what each does there. -/
def Obligations.StraightAfterReset : Prop :=
  (∃ t, exec .build State.reset = .next t ∧ Responds t .ok .nothing ∧ t.nleaf = 0 ∧
      t.empty = true) ∧
    (∃ t, exec .assign State.reset = .next t ∧ Refused State.reset t .seq) ∧
    (∀ i, ∃ t, exec (.rdn i) State.reset = .next t ∧ Refused State.reset t .seq) ∧
    (∀ b, ∃ t, exec (.rdc b) State.reset = .next t ∧ Refused State.reset t .seq) ∧
    (∀ x, ∃ t, exec (.rdw x) State.reset = .next t ∧ Refused State.reset t .seq) ∧
    (∀ b, ∃ t, exec (.rdf b) State.reset = .next t ∧ Responds t .ok (.count 0)) ∧
    (∃ t, exec .rds State.reset = .next t ∧ Responds t .ok (.status 0)) ∧
    (∃ t, exec .clr State.reset = .next t ∧ StateKept State.reset t ∧ Responds t .ok .nothing) ∧
    (∃ t, exec .nop State.reset = .next t ∧ Responds t .ok .nothing) ∧
    (∀ b, ∃ t, exec (.wrf b) State.reset = .next t ∧ Responds t .ok .nothing)

/-! ### The ports -/

/-- R36, R74: a step in which a command is accepted is that command's execution. -/
def Obligations.StepRunsDecodedCommand : Prop :=
  ∀ s i, Accepts s i → step s = exec i (accepted s)

/-- R36, with log entry 13: a word placed by `withFetchWord` is the command of the next step. -/
def Obligations.FetchWordRunsItsCommand : Prop :=
  ∀ (s : State) (w : Cmd) i, decode w = .command i →
    step (s.withFetchWord 16 w.toNat) = exec i { s with ph := .idle, rsp := none }

/-- R145, R150: a word that is none of the ten commands is refused with ILLEGAL, whatever `din`
holds. -/
def Obligations.IllegalWordIsRefused : Prop :=
  ∀ s, Presents s → wellFormedWord (portIn s).cmd = false →
    ∃ t, step s = .next t ∧ Refused (accepted s) t .illegal

/-- R36, R169 and V9 of spec/93_implementation_defined.md: a command presented while
`cmd_ready = 0` is as if it was not presented. -/
def Obligations.CommandNotReadyIsAsNotPresented : Prop :=
  ∀ s q rest w d, s.host = q :: rest → cmdReady s = false →
    step s = step { s with host := { q with cmdValid := false, cmd := w, din := d } :: rest } ∧
      microStep s =
        microStep { s with host := { q with cmdValid := false, cmd := w, din := d } :: rest }

/-- R37: a response is held, stable, until a sampling with `rsp_ready = 1`, and then the port is
ready for the next command (R36). -/
def Obligations.ResponseIsHeldUntilTaken : Prop :=
  ∀ s r, s.ph = .idle → s.rsp = some r → (portIn s).rst = false →
    ((portIn s).rspReady = false → step s = .next { s with host := s.host.tail }) ∧
      ((portIn s).rspReady = true →
        step s = .next { s with rsp := none, host := s.host.tail } ∧
          cmdReady { s with rsp := none, host := s.host.tail } = true)

/-- R77: each command that completes answers one response; its data is all 0 unless it is a read
command that executed; and the codes are R144's. -/
def Obligations.EveryCommandAnswers : Prop :=
  (∀ i s t, exec i s = .next t → ∃ r, t.rsp = some r ∧ rspValid t = true ∧
      rspCode t = r.code.toBits ∧ (r.code ≠ .ok ∨ isRead i = false → dout t = 0)) ∧
    RspCode.ok.toBits = 0 ∧ RspCode.illegal.toBits = 1 ∧ RspCode.seq.toBits = 2 ∧
    RspCode.index.toBits = 3

/-! ### Encoding -/

/-- R74: words written out from the encodings decode to what they stand for. -/
def Obligations.DecodeSamples : Prop :=
  decode 0b0000000000000000#16 = .command .nop ∧ decode 0b0001000000000000#16 = .command .clr ∧
    decode 0b0010000001000001#16 = .command (.wrf 0x41) ∧
    decode 0b0011000001000001#16 = .command (.rdf 0x41) ∧
    decode 0b0100000000000000#16 = .command .build ∧
    decode 0b0101000000000000#16 = .command .assign ∧
    decode 0b0110000111111110#16 = .command (.rdn 510) ∧
    decode 0b0111000001000010#16 = .command (.rdc 0x42) ∧
    decode 0b1000000000000000#16 = .command .rds ∧
    decode 0b1001000000000001#16 = .command (.rdw 1) ∧
    decode 0b0010000101000001#16 = .reservedBits ∧ decode 0b1010000000000000#16 = .reservedOpcode

/-- R74: `decode(encode(c)) = c` for every command, and `encode(decode(w)) = w` for every word that
is not ILLEGAL. -/
def Obligations.DecodeEncodeAgree : Prop :=
  (∀ i, decode (encode i) = .command i) ∧ (∀ w i, decode w = .command i → encode i = w)

/-- R69: a word is the command of a row exactly when `w & mask = match`; the rows do not overlap; a
word that matches no row is refused. -/
def Obligations.DecodeFollowsOpcodeTable : Prop :=
  (∀ w, ∀ r ∈ opcodeTable,
      r.accepts w = true ↔ ∃ i, decode w = .command i ∧ mnemonic i = r.mnemonic) ∧
    (∀ w, ∀ r ∈ opcodeTable, ∀ r' ∈ opcodeTable,
      r.accepts w = true → r'.accepts w = true → r = r') ∧
    (∀ w, (∀ r ∈ opcodeTable, r.accepts w = false) ↔ ∀ i, decode w ≠ .command i)

/-- R70, R71: the reserved opcodes, the must-be-0 bits, and nothing else, make a word illegal. -/
def Obligations.CommandsAreTheWellFormedWords : Prop :=
  (∀ w : Cmd, decode w = .reservedOpcode ↔ 0xA ≤ w.toNat / 4096) ∧
    (∀ w, (∃ i, decode w = .command i) ↔ wellFormedWord w = true) ∧
    (∀ w : Cmd, decode w = .reservedBits ↔ w.toNat / 4096 ≤ 9 ∧ wellFormedWord w = false)

/-- R68: the operands are used as they stand, and `din` is used by `WRF` alone. -/
def Obligations.OperandsAsTheyStand : Prop :=
  (∀ w b, decode w = .command (.wrf b) ∨ decode w = .command (.rdf b) ∨
      decode w = .command (.rdc b) → b.toNat = w.toNat % 256) ∧
    (∀ w i, decode w = .command (.rdn i) → i.toNat = w.toNat % 512) ∧
    (∀ w x, decode w = .command (.rdw x) → x.toNat = w.toNat % 2) ∧
    (∀ (s : State) b d, ∃ t, exec (.wrf b) { s with din := d } = .next t ∧ freqAt t b = d) ∧
    (∀ (i : Instr) (s : State) d, (∀ b, i ≠ .wrf b) →
      exec i { s with din := d } = mapNext (fun t => { t with din := d }) (exec i s))

/-- R78: where each field of an executed read's response lies on `dout`, every other bit being 0. -/
def Obligations.ResponsePacking : Prop :=
  (∀ s b t, exec (.rdf b) s = .next t →
      (dout t).extractLsb' 0 32 = freqAt s b ∧ (dout t).extractLsb' 32 240 = 0) ∧
    (∀ s i t, s.built = true → i < s.next → exec (.rdn i) s = .next t →
      (dout t).extractLsb' 0 9 = (nodeAt s i).right ∧
      (dout t).extractLsb' 9 9 = (nodeAt s i).left ∧
      (dout t).extractLsb' 18 8 = (nodeAt s i).sym ∧
      (dout t).extractLsb' 26 40 = (nodeAt s i).weight ∧
      (dout t).extractLsb' 66 1 = (nodeAt s i).kind.toBit ∧
      (dout t).extractLsb' 67 205 = 0) ∧
    (∀ s b t, s.codev = true → exec (.rdc b) s = .next t →
      (dout t).extractLsb' 0 255 = (codeAt s b).bits ∧
      (dout t).extractLsb' 255 8 = (codeAt s b).len ∧
      (dout t).extractLsb' 263 8 = (codeAt s b).rawlen ∧ (dout t).extractLsb' 271 1 = 0) ∧
    (∀ s t, exec .rds s = .next t →
      (dout t).extractLsb' 0 32 = status s ∧ (dout t).extractLsb' 32 240 = 0) ∧
    (∀ s x t, s.codev = true → exec (.rdw x) s = .next t →
      (dout t).extractLsb' 0 48 = (if x = 0 then s.wlen else s.wlenraw) ∧
      (dout t).extractLsb' 48 224 = 0)

/-- R75: the command word and data word of each line of the syntax; an operand out of range is an
error, never an encoded word. -/
def Obligations.AssemblerLines : Prop :=
  assembleLine .nop = some [(0x0000#16, 0)] ∧ assembleLine .clr = some [(0x1000#16, 0)] ∧
    assembleLine .build = some [(0x4000#16, 0)] ∧ assembleLine .assign = some [(0x5000#16, 0)] ∧
    assembleLine .rds = some [(0x8000#16, 0)] ∧
    (∀ b c, assembleLine (.wrf b c) = if b < 256 ∧ c < 2 ^ 32 then
      some [(BitVec.ofNat 16 (0x2000 + b), BitVec.ofNat 32 c)] else none) ∧
    (∀ b, assembleLine (.rdf b) = if b < 256 then
      some [(BitVec.ofNat 16 (0x3000 + b), 0)] else none) ∧
    (∀ i, assembleLine (.rdn i) = if i ≤ 511 then
      some [(BitVec.ofNat 16 (0x6000 + i), 0)] else none) ∧
    (∀ b, assembleLine (.rdc b) = if b < 256 then
      some [(BitVec.ofNat 16 (0x7000 + b), 0)] else none) ∧
    (∀ x, assembleLine (.rdw x) = if x ≤ 1 then
      some [(BitVec.ofNat 16 (0x9000 + x), 0)] else none)

/-- R76: the expansion of each pseudo-instruction. What a `LOAD` leaves is the listed counts over an
all-zero table, and the order of its entries does not matter as long as no byte value is listed
twice. -/
def Obligations.PseudoInstructions : Prop :=
  assembleLine .run = some [(0x4000#16, 0), (0x5000#16, 0)] ∧
    assembleLine .rdws = some [(0x9000#16, 0)] ∧ assembleLine .rdwr = some [(0x9001#16, 0)] ∧
    (∀ es, es ≠ [] → (∀ e ∈ es, e.1 < 256 ∧ e.2 < 2 ^ 32) → assembleLine (.load es) =
      some ((0x1000#16, 0) ::
        es.map fun e => (BitVec.ofNat 16 (0x2000 + e.1), BitVec.ofNat 32 e.2))) ∧
    (∀ es, (∃ e ∈ es, ¬(e.1 < 256 ∧ e.2 < 2 ^ 32)) → assembleLine (.load es) = none) ∧
    (∀ es ws s, es ≠ [] → assembleLine (.load es) = some ws → (es.map Prod.fst).Nodup →
      ∃ t, runWords ws s = .next t ∧ Invalidated t ∧
        (∀ e ∈ es, freqAt t (BitVec.ofNat 8 e.1) = BitVec.ofNat 32 e.2) ∧
        (∀ b : Sym, b.toNat ∉ es.map Prod.fst → freqAt t b = 0) ∧
        ∀ es' ws' t', es'.Perm es → assembleLine (.load es') = some ws' →
          runWords ws' s = .next t' → FreqKept t t' ∧ SameVisible { t with din := t'.din } t')

/-! ### The frequency table -/

/-- R82: `CLR` always executes; it zeroes FREQ, invalidates and clears the error record, leaves the
other memories, and from an idle machine leaves the reset state in everything observable. No other
command clears ERR. -/
def Obligations.ClrZeroesTheTable : Prop :=
  (∀ s, ∃ t, exec .clr s = .next t ∧ Responds t .ok .nothing ∧ (∀ b, freqAt t b = 0) ∧
    Invalidated t ∧ t.err = false ∧ t.errcode = .ok ∧ NodeKept s t ∧ CodeKept s t ∧
    CandKept s t ∧ StkKept s t ∧ SequencerKept s t ∧ ScratchKept s t ∧ PortKept s t ∧
    (s.ph = .idle → s.ix = 0 → s.sp = 0 →
      SameVisible { State.reset with din := s.din, host := s.host, rsp := t.rsp } t)) ∧
    ∀ i s t, exec i s = .next t → s.err = true → t.err = false → i = .clr

/-- R83, R84: `WRF` always executes; it writes one entry of FREQ with the data word, invalidates,
and writes nothing else, ERR and ERRCODE included. -/
def Obligations.WrfWritesOneEntry : Prop :=
  ∀ b s, ∃ t, exec (.wrf b) s = .next t ∧ Responds t .ok .nothing ∧ freqAt t b = s.din ∧
    (∀ x, x ≠ b → freqAt t x = freqAt s x) ∧ Invalidated t ∧ NodeKept s t ∧ CodeKept s t ∧
    CandKept s t ∧ StkKept s t ∧ ErrorKept s t ∧ SequencerKept s t ∧ ScratchKept s t ∧
    PortKept s t

/-- R83: two `WRF` to different byte values commute, of two `WRF` to the same byte value the later
wins, and a `WRF` followed by an `RDF` returns the written count (R56). -/
def Obligations.WritesCommuteAndTheLaterWins : Prop :=
  (∀ b x c d s, b ≠ x → ∃ t u, runCommands [(.wrf b, c), (.wrf x, d)] s = .next t ∧
      runCommands [(.wrf x, d), (.wrf b, c)] s = .next u ∧ FreqKept t u ∧
      SameVisible { t with din := u.din } u) ∧
    (∀ b c d s, ∃ t, runCommands [(.wrf b, c), (.wrf b, d)] s = .next t ∧
      runCommands [(.wrf b, d)] s = .next t) ∧
    (∀ b c d s, ∃ t, runCommands [(.wrf b, c), (.rdf b, d)] s = .next t ∧
      Responds t .ok (.count c))

/-- R85: `RDF` always executes, responds the entry, and writes nothing; after reset or `CLR` it
returns 0. -/
def Obligations.RdfResponds : Prop :=
  (∀ b s, ∃ t, exec (.rdf b) s = .next t ∧ Responds t .ok (.count (freqAt s b)) ∧
      StateKept s t) ∧
    (∀ b, freqAt State.reset b = 0) ∧
    (∀ b s u, exec .clr s = .next u → ∃ t, exec (.rdf b) u = .next t ∧ Responds t .ok (.count 0))

/-- R53: a read has no side effect and repeating it returns the same response; a `WRF` repeated with
the same data word leaves the same state. -/
def Obligations.ReadsAndWritesRepeat : Prop :=
  (∀ i s t d, isRead i = true → exec i s = .next t → Responds t .ok d →
      StateKept s t ∧ exec i t = .next t) ∧
    (∀ b s t, exec (.wrf b) s = .next t → exec (.wrf b) t = .next t) ∧
    (∀ s t, exec .clr s = .next t → ∀ b, freqAt t b = 0)

/-! ### NOP and RDS -/

/-- R139: `NOP` responds code 0, data 0 in any state and writes no state, not even ERR. -/
def Obligations.NopChangesNothing : Prop :=
  ∀ s, ∃ t, exec .nop s = .next t ∧ Responds t .ok .nothing ∧ StateKept s t

/-- R140, R35: `RDS` always executes, writes no state, and responds the fields of STATUS in their
places, the reserved bits 0. -/
def Obligations.RdsReadsStatus : Prop :=
  ∀ s, ∃ t v, exec .rds s = .next t ∧ Responds t .ok (.status v) ∧ StateKept s t ∧
    v.getLsbD 0 = s.built ∧ v.getLsbD 1 = s.codev ∧ v.getLsbD 2 = s.empty ∧
    v.getLsbD 3 = s.single ∧ v.getLsbD 4 = s.err ∧ v.extractLsb' 5 2 = s.errcode.toBits ∧
    v.getLsbD 7 = false ∧ v.extractLsb' 8 9 = s.nleaf ∧ v.extractLsb' 17 9 = s.root ∧
    v.extractLsb' 26 6 = 0

/-! ### BUILD and RDN -/

/-- R95, with R87 and R153: `BUILD` completes in every state; the counts, ROOT and flags it leaves,
and the one candidate left, the root. -/
def Obligations.BuildCompletes : Prop :=
  ∀ s, ∃ t, exec .build s = .next t ∧ Responds t .ok .nothing ∧
    t.nleaf.toNat = presentCount s ∧
    t.next.toNat = (if presentCount s = 0 then 0 else 2 * presentCount s - 1) ∧
    t.root.toNat = (if presentCount s ≤ 1 then 0 else 2 * presentCount s - 2) ∧
    t.empty = decide (presentCount s = 0) ∧ t.single = decide (presentCount s = 1) ∧
    t.built = true ∧
    (1 ≤ presentCount s → (∃ T, TreeAt t t.root T) ∧ ∀ i, candAt t i = true ↔ i = t.root) ∧
    (presentCount s = 0 → ∀ i, candAt t i = false)

/-- R111: what `BUILD` leaves alone; a table made earlier stays readable. With R38 and R61, also
NODE at and above NEXT, and M1 and M2 when no merge round runs. -/
def Obligations.BuildFrame : Prop :=
  ∀ s t, exec .build s = .next t →
    FreqKept s t ∧ CodeKept s t ∧ t.codev = s.codev ∧ SumsKept s t ∧ StkKept s t ∧
      t.sp = s.sp ∧ ErrorKept s t ∧ PortKept s t ∧
      (∀ i, t.next ≤ i → nodeAt t i = nodeAt s i) ∧ (presentCount s ≤ 1 → ScratchKept s t) ∧
      (s.codev = true → ∀ b, ∃ u, exec (.rdc b) t = .next u ∧ Responds u .ok (.code (codeAt s b)))

/-- R88: the leaves, one for each present byte in ascending byte value, and the candidates. -/
def Obligations.BuildMakesLeaves : Prop :=
  ∀ s, (presentSyms s).Pairwise (· < ·) ∧ (∀ b, b ∈ presentSyms s ↔ freqAt s b ≠ 0) ∧
    (makeLeaves (clearBuild s)).nleaf.toNat = presentCount s ∧
    (makeLeaves (clearBuild s)).next.toNat = presentCount s ∧
    (∀ i, candAt (makeLeaves (clearBuild s)) i = true ↔ i.toNat < presentCount s) ∧
    ∀ j (h : j < (presentSyms s).length), ∀ t, exec .build s = .next t →
      nodeAt (makeLeaves (clearBuild s)) (BitVec.ofNat 9 j) =
          ⟨.leaf, (freqAt s (presentSyms s)[j]).setWidth 40, (presentSyms s)[j], 0, 0⟩ ∧
        nodeAt t (BitVec.ofNat 9 j) =
          ⟨.leaf, (freqAt s (presentSyms s)[j]).setWidth 40, (presentSyms s)[j], 0, 0⟩

/-- R92: the candidate chosen is the one of least key; the least weight wins, and among equal
weights the highest index; keys of distinct nodes differ. -/
def Obligations.ExtractMinIsLeast : Prop :=
  ∀ s, (∀ i, (key s i).toNat = (nodeAt s i).weight.toNat * 512 + (511 - i.toNat)) ∧
    (∀ i j, key s i = key s j → i = j) ∧
    ∀ c : NodeIdx, c.toNat < 511 → candAt s c = true →
      candAt s (leastCandidate s) = true ∧ (leastCandidate s).toNat < 511 ∧
        (c ≠ leastCandidate s → key s (leastCandidate s) < key s c ∧
          ((nodeAt s (leastCandidate s)).weight < (nodeAt s c).weight ∨
            (nodeAt s (leastCandidate s)).weight = (nodeAt s c).weight ∧ c < leastCandidate s))

/-- R99, with R91, R93, R94: the merge round takes the two candidates of least key, first and
second, makes their parent at NEXT with the first on the left, and makes it a candidate. -/
def Obligations.MergeRoundTakesTheTwoLeast : Prop :=
  ∀ s, s.ph = .merge → 2 ≤ candCount s → s.next.toNat < 511 →
    ∃ t, microOp s = .next t ∧ candAt s t.m1 = true ∧ candAt s t.m2 = true ∧ t.m1 ≠ t.m2 ∧
      (∀ c : NodeIdx, c.toNat < 511 → candAt s c = true → c ≠ t.m1 → key s t.m1 < key s c) ∧
      (∀ c : NodeIdx, c.toNat < 511 → candAt s c = true → c ≠ t.m1 → c ≠ t.m2 →
        key s t.m2 < key s c) ∧
      (nodeAt s t.m1).weight ≤ (nodeAt s t.m2).weight ∧
      nodeAt t s.next =
        ⟨.internal, (nodeAt s t.m1).weight + (nodeAt s t.m2).weight, 0, t.m1, t.m2⟩ ∧
      (∀ i, i ≠ s.next → nodeAt t i = nodeAt s i) ∧
      (∀ i, candAt t i = true ↔ i = s.next ∨ candAt s i = true ∧ i ≠ t.m1 ∧ i ≠ t.m2) ∧
      t.next = s.next + 1 ∧ t.nleaf = s.nleaf ∧ t.root = s.root ∧ FlagsKept s t ∧
      FreqKept s t ∧ CodeKept s t ∧ StkKept s t ∧ ErrorKept s t ∧ SequencerKept s t ∧
      SumsKept s t ∧ PortKept s t ∧ t.rsp = s.rsp

/-- R104: k leaves at indices 0 to k - 1, internal nodes at k to 2k - 2, and each present byte, and
no absent byte, is the `sym` of exactly one leaf. -/
def Obligations.BuildNodeCounts : Prop :=
  ∀ s t, exec .build s = .next t →
    (∀ i : NodeIdx, i.toNat < presentCount s → (nodeAt t i).kind = .leaf) ∧
      (∀ i : NodeIdx, presentCount s ≤ i.toNat → i.toNat < 2 * presentCount s - 1 →
        (nodeAt t i).kind = .internal) ∧
      t.next.toNat = 2 * presentCount s - 1 ∧
      (∀ b, freqAt s b ≠ 0 →
        ∃! i, i < t.next ∧ (nodeAt t i).kind = .leaf ∧ (nodeAt t i).sym = b) ∧
      (∀ b, freqAt s b = 0 → ∀ i, i < t.next → (nodeAt t i).kind = .leaf → (nodeAt t i).sym ≠ b)

/-- R105: weights, and with R108 that every sum is exact. -/
def Obligations.BuildWeights : Prop :=
  ∀ s t, exec .build s = .next t →
    (∀ i, i < t.next → (nodeAt t i).kind = .leaf →
        (nodeAt t i).weight.toNat = (freqAt s (nodeAt t i).sym).toNat) ∧
      (∀ i, i < t.next → (nodeAt t i).kind = .internal → (nodeAt t i).weight.toNat =
        (nodeAt t (nodeAt t i).left).weight.toNat + (nodeAt t (nodeAt t i).right).weight.toNat) ∧
      (∀ i T, i < t.next → TreeAt t i T →
        (nodeAt t i).weight.toNat = (T.leaves.map fun p => (freqAt s p.1).toNat).sum) ∧
      (1 ≤ presentCount s → (nodeAt t t.root).weight.toNat = totalCount s) ∧
      (∀ i j : NodeIdx, presentCount s ≤ i.toNat → i ≤ j → j < t.next →
        (nodeAt t i).weight ≤ (nodeAt t j).weight)

/-- R110: a node's children have lower indices and differ, and every node but the root is the child
of exactly one internal node. -/
def Obligations.BuildOwnership : Prop :=
  ∀ s t, exec .build s = .next t →
    (∀ n, n < t.next → (nodeAt t n).kind = .internal →
        (nodeAt t n).left < n ∧ (nodeAt t n).right < n ∧
          (nodeAt t n).left ≠ (nodeAt t n).right) ∧
      (∀ i, i < t.next → i ≠ t.root → ∃! n, n < t.next ∧ (nodeAt t n).kind = .internal ∧
        ((nodeAt t n).left = i ∨ (nodeAt t n).right = i)) ∧
      (∀ n, n < t.next → (nodeAt t n).kind = .internal →
        (nodeAt t n).left ≠ t.root ∧ (nodeAt t n).right ≠ t.root)

/-- R106: `BUILD` is a function of FREQ alone, and two `BUILD` in a row leave the same tree. -/
def Obligations.BuildDependsOnFreqOnly : Prop :=
  (∀ s s' t t', FreqKept s s' → exec .build s = .next t → exec .build s' = .next t' →
      CountsKept t t' ∧ t'.built = t.built ∧ t'.empty = t.empty ∧ t'.single = t.single ∧
        ∀ i, i < t.next → nodeAt t' i = nodeAt t i) ∧
    (∀ s t u, exec .build s = .next t → exec .build t = .next u →
      CountsKept t u ∧ FlagsKept t u ∧ ∀ i, i < t.next → nodeAt u i = nodeAt t i)

/-- R109: no leaf of a tree with k leaves is deeper than k - 1, so every depth of a tree that `BUILD`
makes is at most 255. -/
def Obligations.DepthIsBounded : Prop :=
  (∀ (T : HTree) route b w, T.follow route = some (.leaf b w) →
      route.length ≤ T.leaves.length - 1) ∧
    (∀ s t T route b w, exec .build s = .next t → 1 ≤ presentCount s → TreeAt t t.root T →
      T.leaves.length = presentCount s ∧
        (T.follow route = some (.leaf b w) →
          route.length ≤ presentCount s - 1 ∧ route.length ≤ 255))

/-- R101: the micro-operations compute `BUILD`, in 258 steps for k <= 1 and 258 + k otherwise, at
most 514, and not in fewer. The host's inputs during the command are passed over (log entry 2). -/
def Obligations.BuildMicroOpsAgree : Prop :=
  ∀ s n, Accepts s .build →
    n = (if presentCount s ≤ 1 then 258 else 258 + presentCount s) → NoReset n s →
    n ≤ 514 ∧ (∃ t, exec .build (accepted s) = .next t ∧
        microRun n s = .next { t with host := s.host.drop n }) ∧
      ∀ m, 1 ≤ m → m < n → ∃ u, microRun m s = .next u ∧ u.ph ≠ .idle ∧ rspValid u = false

/-- R107: no binary tree over the same leaves has a smaller sum of weight times depth than the tree
`BUILD` makes, and that sum is what `ASSIGN` then leaves in WLENRAW. The spec takes the first part
from general knowledge and asks that it be proved of the model (G1). -/
def Obligations.BuildIsOptimal : Prop :=
  ∀ s t T, 1 ≤ presentCount s → exec .build s = .next t → TreeAt t t.root T →
    (∀ T' : HTree, T'.leaves.Perm T.leaves → T.cost 0 ≤ T'.cost 0) ∧
      ∃ u, exec .assign t = .next u ∧ u.wlenraw.toNat = T.cost 0

/-- R103, R149: what `RDN` answers; SEQ is found before INDEX, and index 511 is always refused. -/
def Obligations.RdnServesNode : Prop :=
  ∀ s i, (s.built = false → ∃ t, exec (.rdn i) s = .next t ∧ Refused s t .seq) ∧
    (s.built = true → s.next ≤ i → ∃ t, exec (.rdn i) s = .next t ∧ Refused s t .index) ∧
    (s.built = true → i < s.next → ∃ t, exec (.rdn i) s = .next t ∧
      Responds t .ok (.node (nodeAt s i)) ∧ StateKept s t) ∧
    (i = 511 → ∃ t, exec (.rdn i) s = .next t ∧ (Refused s t .seq ∨ Refused s t .index))

/-! ### ASSIGN, RDC and RDW -/

/-- R113, R125: `ASSIGN` with a current tree executes, and its frame. The facts of R40 rule out
trees that no run has. IX = 0 is the model's reading of A4 (log entry 11). -/
def Obligations.AssignCompletes : Prop :=
  ∀ s, Consistent s → s.built = true → ∃ t, exec .assign s = .next t ∧ Responds t .ok .nothing ∧
    t.codev = true ∧ t.built = false ∧ t.sp = 0 ∧ t.ph = .idle ∧ t.ix = 0 ∧ FreqKept s t ∧
    NodeKept s t ∧ CandKept s t ∧ CountsKept s t ∧ t.empty = s.empty ∧ t.single = s.single ∧
    ErrorKept s t ∧ ScratchKept s t ∧ PortKept s t

/-- R115 to R118: each present byte's raw path is its leaf's route from the root, LEN is the bit
length of the path value, and the stored code is the raw path without its leading zeros. -/
def Obligations.AssignCodesAreRoutes : Prop :=
  ∀ s, Consistent s → s.built = true → s.empty = false →
    ∃ t T, exec .assign s = .next t ∧ TreeAt s s.root T ∧
      (∀ b, freqAt s b ≠ 0 → ∃! route, T.follow route = some (.leaf b ((freqAt s b).setWidth 40))) ∧
      ∀ route b w, T.follow route = some (.leaf b w) →
        (codeAt t b).rawlen.toNat = route.length ∧ (codeAt t b).bits.toNat = pathValue route ∧
          (codeAt t b).len.toNat = bitlen (codeAt t b).bits ∧ (codeAt t b).rawPath = route ∧
          (codeAt t b).storedCode = route.dropWhile (fun x => !x)

/-- R119, R120, R121: absent bytes, the one-leaf tree, and no tree at all. -/
def Obligations.AssignEdgeCases : Prop :=
  ∀ s, Consistent s → s.built = true → ∃ t, exec .assign s = .next t ∧ Responds t .ok .nothing ∧
    (∀ b, freqAt s b = 0 → codeAt t b = ⟨0, 0, 0⟩) ∧
    (s.single = true → (∀ b, codeAt t b = ⟨0, 0, 0⟩) ∧ t.wlen = 0 ∧ t.wlenraw = 0) ∧
    (s.empty = true → (∀ b, codeAt t b = ⟨0, 0, 0⟩) ∧ t.wlen = 0 ∧ t.wlenraw = 0 ∧
      t.codev = true ∧ t.built = false)

/-- R122: the two sums after `ASSIGN`. -/
def Obligations.AssignSums : Prop :=
  ∀ s, Consistent s → s.built = true → ∃ t, exec .assign s = .next t ∧
    t.wlenraw.toNat = weightedSum t CodeEntry.rawlen ∧
    t.wlen.toNat = weightedSum t CodeEntry.len ∧ t.wlen ≤ t.wlenraw

/-- R138: what is true of every table that `ASSIGN` makes, item by item. -/
def Obligations.TableFacts : Prop :=
  ∀ s t, Consistent s → s.built = true → exec .assign s = .next t →
    (∀ b, freqAt s b = 0 → codeAt t b = ⟨0, 0, 0⟩) ∧
      (∀ b, freqAt s b ≠ 0 → (codeAt t b).rawlen.toNat ≤ presentCount s - 1 ∧
        (codeAt t b).bits.toNat < 2 ^ (codeAt t b).rawlen.toNat ∧
        (codeAt t b).len.toNat = bitlen (codeAt t b).bits ∧
        (codeAt t b).len ≤ (codeAt t b).rawlen ∧
        ∀ T route w, TreeAt s s.root T → T.follow route = some (.leaf b w) →
          (codeAt t b).rawlen.toNat = route.length) ∧
      (2 ≤ presentCount s → ∀ b, freqAt s b ≠ 0 → 1 ≤ (codeAt t b).rawlen.toNat) ∧
      (∀ b c, freqAt s b ≠ 0 → freqAt s c ≠ 0 → b ≠ c →
        ¬(codeAt t b).rawPath <+: (codeAt t c).rawPath) ∧
      (1 ≤ presentCount s → ∃! b, freqAt s b ≠ 0 ∧ (codeAt t b).bits = 0) ∧
      (t.wlenraw.toNat = weightedSum t CodeEntry.rawlen ∧
        t.wlen.toNat = weightedSum t CodeEntry.len ∧ t.wlen ≤ t.wlenraw) ∧
      (2 ≤ presentCount s → t.wlenraw.toNat = internalWeight s (presentCount s)) ∧
      (∀ s' t', Consistent s' → s'.built = true → FreqKept s s' → exec .assign s' = .next t' →
        CodeKept t t' ∧ SumsKept t t')

/-- R127: the raw paths are prefix-free, the stored codes need not be, and the facts (a) to (d). -/
def Obligations.OnlyRawPathsArePrefixFree : Prop :=
  (∀ s t, Consistent s → s.built = true → exec .assign s = .next t →
    (∀ b c, freqAt s b ≠ 0 → freqAt s c ≠ 0 → b ≠ c →
        ¬(codeAt t b).rawPath <+: (codeAt t c).rawPath) ∧
      (1 ≤ presentCount s → ∃! b, freqAt s b ≠ 0 ∧ (codeAt t b).bits = 0 ∧
        (codeAt t b).len = 0 ∧ ∀ x ∈ (codeAt t b).rawPath, x = false) ∧
      (∀ b c, freqAt s b ≠ 0 → freqAt s c ≠ 0 → b ≠ c →
        (codeAt t b).rawlen = (codeAt t c).rawlen → (codeAt t b).bits ≠ (codeAt t c).bits) ∧
      (∀ b c, freqAt s b ≠ 0 → freqAt s c ≠ 0 → b ≠ c →
        ((codeAt t b).storedCode = (codeAt t c).storedCode ↔
          (codeAt t b).bits = (codeAt t c).bits)) ∧
      (2 ≤ presentCount s → ((presentSyms s).map fun b =>
        2 ^ (255 - (codeAt t b).rawlen.toNat)).sum = 2 ^ 255)) ∧
    ∃ s t b c, Consistent s ∧ s.built = true ∧ exec .assign s = .next t ∧ freqAt s b ≠ 0 ∧
      freqAt s c ≠ 0 ∧ b ≠ c ∧ (codeAt t b).storedCode = (codeAt t c).storedCode

/-- R134: the micro-operations compute `ASSIGN`, in 259 steps for k = 0 and 258 + 2k otherwise, at
most 770, and not in fewer. STK, which R125 does not name, is left out (log entry 12); the host's
inputs during the command are passed over (log entry 2). -/
def Obligations.AssignMicroOpsAgree : Prop :=
  ∀ s n, Consistent s → s.built = true → Accepts s .assign →
    n = (if presentCount s = 0 then 259 else 258 + 2 * presentCount s) → NoReset n s →
    n ≤ 770 ∧ (∃ t u, exec .assign (accepted s) = .next t ∧ microRun n s = .next u ∧
        { u with stk := t.stk } = { t with host := s.host.drop n }) ∧
      ∀ m, 1 ≤ m → m < n → ∃ u, microRun m s = .next u ∧ u.ph ≠ .idle ∧ rspValid u = false

/-- R123: `ASSIGN` consumes the tree; NODE and the record of the last build stay, but until the
next `BUILD` a read of the tree and a second `ASSIGN` are refused with SEQ. -/
def Obligations.AssignConsumesTheTree : Prop :=
  ∀ s t, s.built = true → exec .assign s = .next t →
    t.built = false ∧ NodeKept s t ∧ CountsKept s t ∧ t.empty = s.empty ∧ t.single = s.single ∧
      ∀ js u, (∀ j ∈ js, j.1 ≠ .build) → runCommands js t = .next u →
        (∃ v, exec .assign u = .next v ∧ Refused u v .seq) ∧
          ∀ i, ∃ v, exec (.rdn i) u = .next v ∧ Refused u v .seq

/-- R50, with R49: the bits of a code in order, and the leading zeros that stripping removes. -/
def Obligations.CodeBitOrder : Prop :=
  ∀ s b, Consistent s → s.codev = true →
    (codeAt s b).storedCode.length = (codeAt s b).len.toNat ∧
      (codeAt s b).rawPath.length = (codeAt s b).rawlen.toNat ∧
      (∀ j, j < (codeAt s b).len.toNat → (codeAt s b).storedCode[j]? =
        some ((codeAt s b).bits.getLsbD ((codeAt s b).len.toNat - 1 - j))) ∧
      (∀ j, j < (codeAt s b).rawlen.toNat → (codeAt s b).rawPath[j]? =
        some ((codeAt s b).bits.getLsbD ((codeAt s b).rawlen.toNat - 1 - j))) ∧
      (∀ j, j < (codeAt s b).rawlen.toNat - (codeAt s b).len.toNat →
        (codeAt s b).rawPath[j]? = some false) ∧
      (0 < (codeAt s b).len.toNat → (codeAt s b).storedCode[0]? = some true)

/-- R135: what `RDC` answers; an absent byte's entry is all zero. -/
def Obligations.RdcServesCode : Prop :=
  ∀ s b, (s.codev = false → ∃ t, exec (.rdc b) s = .next t ∧ Refused s t .seq) ∧
    (s.codev = true → ∃ t, exec (.rdc b) s = .next t ∧
      Responds t .ok (.code (codeAt s b)) ∧ StateKept s t) ∧
    (Consistent s → s.codev = true → freqAt s b = 0 → codeAt s b = ⟨0, 0, 0⟩)

/-- R137: what `RDW` answers. -/
def Obligations.RdwServesSums : Prop :=
  ∀ s, (s.codev = false → ∀ x, ∃ t, exec (.rdw x) s = .next t ∧ Refused s t .seq) ∧
    (s.codev = true → (∃ t, exec (.rdw 0) s = .next t ∧ Responds t .ok (.sum s.wlen) ∧
        StateKept s t) ∧
      (∃ t, exec (.rdw 1) s = .next t ∧ Responds t .ok (.sum s.wlenraw) ∧ StateKept s t)) ∧
    (Consistent s → s.codev = true → presentCount s ≤ 1 → s.wlen = 0 ∧ s.wlenraw = 0)

/-! ### Refusals -/

/-- R146: when SEQ is raised. -/
def Obligations.SeqIsRaisedWithoutAProduct : Prop :=
  ∀ s, (s.built = false → (∃ t, exec .assign s = .next t ∧ Refused s t .seq) ∧
      ∀ i, ∃ t, exec (.rdn i) s = .next t ∧ Refused s t .seq) ∧
    (s.codev = false → (∀ b, ∃ t, exec (.rdc b) s = .next t ∧ Refused s t .seq) ∧
      ∀ x, ∃ t, exec (.rdw x) s = .next t ∧ Refused s t .seq)

/-- R150, R151: a refusal, of a command or of a word that is none, writes ERR, ERRCODE and the
response {code, 0}, and nothing else. -/
def Obligations.RefusalWritesOnlyTheErrorRecord : Prop :=
  (∀ i s t c d, exec i s = .next t → t.rsp = some ⟨c, d⟩ → c ≠ .ok →
      Refused s t c ∧ dout t = 0) ∧
    ∀ s t, Presents s → step s = .next t → rspCode t ≠ 0 →
      ∃ c, c ≠ .ok ∧ rspCode t = c.toBits ∧ Refused (accepted s) t c ∧ dout t = 0

/-- R148, R149: which command is refused, and with what: undefined words, and for the ten commands
the table's conditions, SEQ before INDEX. -/
def Obligations.WhichCommandsAreRefused : Prop :=
  (∀ s, Presents s → wellFormedWord (portIn s).cmd = false →
      ∃ t, step s = .next t ∧ Responds t .illegal .nothing) ∧
    (∀ i s, (i = .assign → Consistent s) →
      ∃ t d, exec i s = .next t ∧ Responds t (refusalCause i s) d)

/-- R152: no command is refused or altered because ERR = 1: with another error record a command
leaves the same state but for that record, with the same response but for what `RDS` reads of it.
Only `CLR` and reset clear the record, and while ERR = 1 a further refusal does not change it. -/
def Obligations.ErrAltersNoCommand : Prop :=
  (∀ i s t, i ≠ .clr → s.err = true → exec i s = .next t → ErrorKept s t) ∧
    (∀ s, (portIn s).rst = false → (decode (portIn s).cmd ≠ .command .clr ∨
      (portIn s).cmdValid = false) → s.err = true → ∀ t, step s = .next t → ErrorKept s t) ∧
  ∀ i s e c, (i ≠ .rds → mapNext (fun t => withError t false .ok) (exec i (withError s e c)) =
      mapNext (fun t => withError t false .ok) (exec i s)) ∧
    (i = .rds → ∃ t u, exec i (withError s e c) = .next t ∧ exec i s = .next u ∧
      withError { t with rsp := none } false .ok = withError { u with rsp := none } false .ok ∧
      rspCode t = 0 ∧ rspCode u = 0)

/-! ### The life of the products -/

/-- The table of R165: the flags each command leaves. -/
def Obligations.FlagLife : Prop :=
  ∀ i s t, exec i s = .next t →
    ((i = .clr ∨ ∃ b, i = .wrf b) → t.built = false ∧ t.codev = false) ∧
      (i = .build → t.built = true ∧ t.codev = s.codev) ∧
      (i = .assign → refusalCause i s = .ok → t.built = false ∧ t.codev = true) ∧
      ((isRead i = true ∨ i = .nop ∨ refusalCause i s ≠ .ok) →
        t.built = s.built ∧ t.codev = s.codev)

/-- R166: a `WRF` or `CLR` withdraws the tree and the table, whatever it wrote: the tree until
`BUILD` has run again, the table until `BUILD` and `ASSIGN` have. -/
def Obligations.WriteWithdrawsTreeAndTable : Prop :=
  ∀ i s t, (i = .clr ∨ ∃ b, i = .wrf b) → exec i s = .next t →
    ∀ js u, runCommands js t = .next u →
      ((∀ j ∈ js, j.1 ≠ .build) → (∃ v, exec .assign u = .next v ∧ Refused u v .seq) ∧
        ∀ n, ∃ v, exec (.rdn n) u = .next v ∧ Refused u v .seq) ∧
      ((∀ j ∈ js, j.1 ≠ .build) ∨ (∀ j ∈ js, j.1 ≠ .assign) →
        (∀ b, ∃ v, exec (.rdc b) u = .next v ∧ Refused u v .seq) ∧
        ∀ x, ∃ v, exec (.rdw x) u = .next v ∧ Refused u v .seq)

/-! ### Invariants and runs -/

/-- The facts of R40 hold after reset. -/
def Obligations.ResetIsConsistent : Prop := Consistent State.reset

/-- R40: the facts that hold between commands are kept by every step. -/
def Obligations.StepKeepsConsistent : Prop :=
  ∀ s t, Consistent s → step s = .next t → Consistent t

/-- R159: where the facts of R40 hold, the machine never stops. -/
def Obligations.StepNeverStops : Prop := ∀ s, Consistent s → Completes (step s)

/-- Every step, of the machine and of the refined machine, keeps the memories' canonical form, in
every state (log entry 8). -/
def Obligations.StepsKeepMemoriesCanonical : Prop :=
  ∀ s t, MemoriesCanonical s → step s = .next t ∨ microStep s = .next t → MemoriesCanonical t

/-- R41, R170: what reset and the inside of a command leave in NODE, CODE, CAND, STK, M1 and M2 is
not observable: two machines that agree on what can be seen keep agreeing, responses included. -/
def Obligations.HiddenStateIsUnobservable : Prop :=
  ∀ s s' t, Consistent s → Consistent s' → SameVisible s s' → step s = .next t →
    ∃ t', step s' = .next t' ∧ SameVisible t t'

/-- R158: every command ends and responds, the short ones in one step, `BUILD` within 514 and
`ASSIGN` within 770 micro-operations, in a state where the facts of R40 hold again. -/
def Obligations.EveryCommandResponds : Prop :=
  ∀ s i, Consistent s → Accepts s i → NoReset 770 s →
    ∃ n t, 1 ≤ n ∧ n ≤ 770 ∧ (i = .build → n ≤ 514) ∧ (i ≠ .build → i ≠ .assign → n = 1) ∧
      microRun n s = .next t ∧ rspValid t = true ∧ Consistent t

end
end

