-- ==== Sys2Proof/Laws/Memory.lean ====
section
/-! SUPPORT. The laws of a memory: a read after a write, the canonical form and that every
operation keeps it, and that equal reads of canonical memories are equal memories. -/

namespace Sys2Proof.Machine

variable {α : Type}

@[simp] theorem Memory.read_nil (fill : α) (a : Nat) : Memory.read fill [] a = fill := rfl

theorem Memory.read_cons (fill : α) (k : Nat) (v : α) (m : Memory α) (a : Nat) :
    Memory.read fill ((k, v) :: m) a = if k = a then v else Memory.read fill m a := rfl

theorem Memory.read_erase_same (fill : α) (m : Memory α) (a : Nat) :
    Memory.read fill (Memory.erase m a) a = fill := by
  induction m with
  | nil => rfl
  | cons e m ih =>
    obtain ⟨k, v⟩ := e
    by_cases h : k = a <;> simp [Memory.erase, Memory.read_cons, h, ih]

theorem Memory.read_erase_other (fill : α) (m : Memory α) {a c : Nat} (hac : c ≠ a) :
    Memory.read fill (Memory.erase m a) c = Memory.read fill m c := by
  induction m with
  | nil => rfl
  | cons e m ih =>
    obtain ⟨k, v⟩ := e
    by_cases h : k = a
    · have : k ≠ c := by omega
      simp [Memory.erase, Memory.read_cons, h, ih]; omega
    · simp [Memory.erase, Memory.read_cons, h, ih]

theorem Memory.read_insert_other (fill : α) (m : Memory α) (a : Nat) (v : α) {c : Nat}
    (hac : c ≠ a) : Memory.read fill (Memory.insert m a v) c = Memory.read fill m c := by
  have hca : a ≠ c := fun h => hac h.symm
  induction m with
  | nil => simp [Memory.insert, Memory.read_cons, hca]
  | cons e m ih =>
    obtain ⟨k, x⟩ := e
    by_cases h : a < k <;> simp [Memory.insert, Memory.read_cons, h, hca, ih]

theorem Memory.read_insert_erase_same (fill : α) (m : Memory α) (a : Nat) (v : α) :
    Memory.read fill (Memory.insert (Memory.erase m a) a v) a = v := by
  induction m with
  | nil => simp [Memory.erase, Memory.insert, Memory.read_cons]
  | cons e m ih =>
    obtain ⟨k, x⟩ := e
    by_cases h : k = a
    · simp [Memory.erase, h, ih]
    · by_cases h' : a < k <;> simp [Memory.erase, Memory.insert, Memory.read_cons, h, h', ih]

/-- A read after a write to the same entry gives what was written. -/
theorem Memory.read_write_same [DecidableEq α] (fill : α) (m : Memory α) (a : Nat) (v : α) :
    Memory.read fill (Memory.write fill m a v) a = v := by
  unfold Memory.write
  split
  · rw [Memory.read_erase_same]; exact (by assumption : v = fill).symm
  · exact Memory.read_insert_erase_same fill m a v

/-- A write leaves every other entry alone. -/
theorem Memory.read_write_other [DecidableEq α] (fill : α) (m : Memory α) (v : α) {a c : Nat}
    (hac : c ≠ a) : Memory.read fill (Memory.write fill m a v) c = Memory.read fill m c := by
  unfold Memory.write
  split
  · exact Memory.read_erase_other fill m hac
  · rw [Memory.read_insert_other _ _ _ _ hac, Memory.read_erase_other _ _ hac]

theorem Memory.read_write [DecidableEq α] (fill : α) (m : Memory α) (a : Nat) (v : α) (c : Nat) :
    Memory.read fill (Memory.write fill m a v) c = if c = a then v else Memory.read fill m c := by
  by_cases h : c = a
  · subst h; simp [Memory.read_write_same]
  · simp [h, Memory.read_write_other]

/-! ### The canonical form -/

@[simp] theorem Memory.wf_nil [DecidableEq α] (fill : α) (size : Nat) :
    Memory.wf fill size [] = true := rfl

theorem Memory.erase_erase (m : Memory α) (a : Nat) :
    Memory.erase (Memory.erase m a) a = Memory.erase m a := by
  induction m with
  | nil => rfl
  | cons e m ih =>
    obtain ⟨k, x⟩ := e
    by_cases h : k = a
    · simp only [Memory.erase, if_pos h, ih]
    · simp only [Memory.erase, if_neg h, ih]

theorem Memory.erase_insert (m : Memory α) (a : Nat) (v : α) :
    Memory.erase (Memory.insert m a v) a = Memory.erase m a := by
  induction m with
  | nil => simp [Memory.insert, Memory.erase]
  | cons e m ih =>
    obtain ⟨k, x⟩ := e
    by_cases h : a < k
    · simp only [Memory.insert, if_pos h, Memory.erase, if_true]
    · by_cases hk : k = a
      · simp only [Memory.insert, if_neg h, Memory.erase, if_pos hk, ih]
      · simp only [Memory.insert, if_neg h, Memory.erase, if_neg hk, ih]

/-- Of two writes of one entry the later is the only one that counts (R83). -/
theorem Memory.write_write [DecidableEq α] (fill : α) (m : Memory α) (a : Nat) (v w : α) :
    Memory.write fill (Memory.write fill m a v) a w = Memory.write fill m a w := by
  have h : Memory.erase (Memory.write fill m a v) a = Memory.erase m a := by
    unfold Memory.write
    split
    · exact Memory.erase_erase m a
    · rw [Memory.erase_insert, Memory.erase_erase]
  rw [Memory.write, h, Memory.write]

theorem Memory.wf_cons [DecidableEq α] (fill : α) (size k : Nat) (v : α) (m : Memory α) :
    Memory.wf fill size ((k, v) :: m) = true ↔
      k < size ∧ v ≠ fill ∧ (∀ e ∈ m, k < e.1) ∧ Memory.wf fill size m = true := by
  simp [Memory.wf, and_assoc]

theorem Memory.mem_erase {m : Memory α} {a : Nat} {e : Nat × α} (h : e ∈ Memory.erase m a) :
    e ∈ m ∧ e.1 ≠ a := by
  induction m with
  | nil => simp [Memory.erase] at h
  | cons x m ih =>
    obtain ⟨k, v⟩ := x
    by_cases hk : k = a
    · simp only [Memory.erase, hk, if_true] at h
      exact ⟨List.mem_cons_of_mem _ (ih h).1, (ih h).2⟩
    · simp only [Memory.erase, hk, if_false, List.mem_cons] at h
      rcases h with h | h
      · subst h; exact ⟨by simp, hk⟩
      · exact ⟨List.mem_cons_of_mem _ (ih h).1, (ih h).2⟩

theorem Memory.mem_insert {m : Memory α} {a : Nat} {v : α} {e : Nat × α}
    (h : e ∈ Memory.insert m a v) : e = (a, v) ∨ e ∈ m := by
  induction m with
  | nil => simpa [Memory.insert] using h
  | cons x m ih =>
    obtain ⟨k, y⟩ := x
    by_cases hk : a < k
    · simpa [Memory.insert, hk] using h
    · simp only [Memory.insert, hk, if_false, List.mem_cons] at h
      rcases h with h | h
      · exact .inr (by simp [h])
      · rcases ih h with h | h
        · exact .inl h
        · exact .inr (by simp [h])

theorem Memory.wf_erase [DecidableEq α] {fill : α} {size : Nat} {m : Memory α} (a : Nat)
    (h : Memory.wf fill size m = true) : Memory.wf fill size (Memory.erase m a) = true := by
  induction m with
  | nil => rfl
  | cons x m ih =>
    obtain ⟨k, v⟩ := x
    obtain ⟨h1, h2, h3, h4⟩ := (Memory.wf_cons ..).1 h
    by_cases hk : k = a
    · simpa [Memory.erase, hk] using ih h4
    · simp only [Memory.erase, hk, if_false]
      exact (Memory.wf_cons ..).2 ⟨h1, h2, fun e he => h3 e (Memory.mem_erase he).1, ih h4⟩

theorem Memory.wf_insert [DecidableEq α] {fill : α} {size : Nat} {m : Memory α} {a : Nat} {v : α}
    (h : Memory.wf fill size m = true) (ha : a < size) (hv : v ≠ fill) (hm : ∀ e ∈ m, e.1 ≠ a) :
    Memory.wf fill size (Memory.insert m a v) = true := by
  induction m with
  | nil => exact (Memory.wf_cons ..).2 ⟨ha, hv, by simp, rfl⟩
  | cons x m ih =>
    obtain ⟨k, y⟩ := x
    obtain ⟨h1, h2, h3, h4⟩ := (Memory.wf_cons ..).1 h
    by_cases hk : a < k
    · simp only [Memory.insert, hk, if_true]
      refine (Memory.wf_cons ..).2 ⟨ha, hv, ?_, h⟩
      intro e he
      rcases List.mem_cons.1 he with rfl | he
      · exact hk
      · exact Nat.lt_trans hk (h3 e he)
    · simp only [Memory.insert, hk, if_false]
      refine (Memory.wf_cons ..).2 ⟨h1, h2, ?_, ih h4 fun e he => hm e (by simp [he])⟩
      intro e he
      rcases Memory.mem_insert he with rfl | he
      · have : k ≠ a := hm (k, y) (by simp)
        simp only; omega
      · exact h3 e he

/-- A write inside the memory keeps the canonical form. -/
theorem Memory.wf_write [DecidableEq α] {fill : α} {size : Nat} {m : Memory α} {a : Nat} (v : α)
    (h : Memory.wf fill size m = true) (ha : a < size) :
    Memory.wf fill size (Memory.write fill m a v) = true := by
  unfold Memory.write
  split
  · exact Memory.wf_erase a h
  · exact Memory.wf_insert (Memory.wf_erase a h) ha ‹_› fun e he => (Memory.mem_erase he).2

theorem Memory.read_of_below [DecidableEq α] {fill : α} {m : Memory α} {a : Nat}
    (hm : ∀ e ∈ m, a < e.1) : Memory.read fill m a = fill := by
  induction m with
  | nil => rfl
  | cons x m ih =>
    obtain ⟨k, v⟩ := x
    have : a < k := hm (k, v) (by simp)
    rw [Memory.read_cons, if_neg (by omega), ih fun e he => hm e (by simp [he])]

/-- Canonical memories that read alike are equal. -/
theorem Memory.ext_of_wf [DecidableEq α] {fill : α} {size : Nat} {m n : Memory α}
    (hm : Memory.wf fill size m = true) (hn : Memory.wf fill size n = true)
    (h : ∀ a, a < size → Memory.read fill m a = Memory.read fill n a) : m = n := by
  induction m generalizing n with
  | nil =>
    cases n with
    | nil => rfl
    | cons y n =>
      obtain ⟨j, w⟩ := y
      obtain ⟨h1, h2, -, -⟩ := (Memory.wf_cons ..).1 hn
      have := h j h1
      simp [Memory.read_cons] at this
      exact absurd this.symm h2
  | cons x m ih =>
    obtain ⟨k, v⟩ := x
    obtain ⟨k1, k2, k3, k4⟩ := (Memory.wf_cons ..).1 hm
    cases n with
    | nil =>
      have := h k k1
      simp [Memory.read_cons] at this
      exact absurd this k2
    | cons y n =>
      obtain ⟨j, w⟩ := y
      obtain ⟨j1, j2, j3, j4⟩ := (Memory.wf_cons ..).1 hn
      have hkj : k = j := by
        rcases Nat.lt_trichotomy k j with hlt | heq | hgt
        · have hk := h k k1
          rw [Memory.read_cons, if_pos rfl, Memory.read_of_below (fill := fill) (by
            intro e he
            rcases List.mem_cons.1 he with rfl | he
            · exact hlt
            · exact Nat.lt_trans hlt (j3 e he))] at hk
          exact absurd hk k2
        · exact heq
        · have hj := h j j1
          rw [Memory.read_cons (k := j), if_pos rfl, Memory.read_of_below (fill := fill) (by
            intro e he
            rcases List.mem_cons.1 he with rfl | he
            · exact hgt
            · exact Nat.lt_trans hgt (k3 e he))] at hj
          exact absurd hj.symm j2
      subst hkj
      have hvw : v = w := by simpa [Memory.read_cons] using h k k1
      subst hvw
      congr 1
      refine ih k4 j4 fun a ha => ?_
      by_cases hak : k = a
      · subst hak
        rw [Memory.read_of_below k3, Memory.read_of_below j3]
      · simpa [Memory.read_cons, hak] using h a ha

end Sys2Proof.Machine
end

