-- ==== Sys2Proof/Laws/State.lean ====
section
/-! SUPPORT. One lemma for each field of State under each named update. -/

namespace Sys2Proof.Machine

@[simp] theorem setFreq_freq (s : State) (b : Sym) (c : Count) :
    (setFreq s b c).freq = Memory.write freqFill s.freq b.toNat c := rfl
@[simp] theorem setFreq_node (s : State) (b : Sym) (c : Count) :
    (setFreq s b c).node = s.node := rfl
@[simp] theorem setFreq_code (s : State) (b : Sym) (c : Count) :
    (setFreq s b c).code = s.code := rfl
@[simp] theorem setFreq_cand (s : State) (b : Sym) (c : Count) :
    (setFreq s b c).cand = s.cand := rfl
@[simp] theorem setFreq_stk (s : State) (b : Sym) (c : Count) :
    (setFreq s b c).stk = s.stk := rfl
@[simp] theorem setFreq_next (s : State) (b : Sym) (c : Count) :
    (setFreq s b c).next = s.next := rfl
@[simp] theorem setFreq_nleaf (s : State) (b : Sym) (c : Count) :
    (setFreq s b c).nleaf = s.nleaf := rfl
@[simp] theorem setFreq_root (s : State) (b : Sym) (c : Count) :
    (setFreq s b c).root = s.root := rfl
@[simp] theorem setFreq_built (s : State) (b : Sym) (c : Count) :
    (setFreq s b c).built = s.built := rfl
@[simp] theorem setFreq_codev (s : State) (b : Sym) (c : Count) :
    (setFreq s b c).codev = s.codev := rfl
@[simp] theorem setFreq_empty (s : State) (b : Sym) (c : Count) :
    (setFreq s b c).empty = s.empty := rfl
@[simp] theorem setFreq_single (s : State) (b : Sym) (c : Count) :
    (setFreq s b c).single = s.single := rfl
@[simp] theorem setFreq_err (s : State) (b : Sym) (c : Count) :
    (setFreq s b c).err = s.err := rfl
@[simp] theorem setFreq_errcode (s : State) (b : Sym) (c : Count) :
    (setFreq s b c).errcode = s.errcode := rfl
@[simp] theorem setFreq_ph (s : State) (b : Sym) (c : Count) :
    (setFreq s b c).ph = s.ph := rfl
@[simp] theorem setFreq_ix (s : State) (b : Sym) (c : Count) :
    (setFreq s b c).ix = s.ix := rfl
@[simp] theorem setFreq_sp (s : State) (b : Sym) (c : Count) :
    (setFreq s b c).sp = s.sp := rfl
@[simp] theorem setFreq_m1 (s : State) (b : Sym) (c : Count) :
    (setFreq s b c).m1 = s.m1 := rfl
@[simp] theorem setFreq_m2 (s : State) (b : Sym) (c : Count) :
    (setFreq s b c).m2 = s.m2 := rfl
@[simp] theorem setFreq_wlen (s : State) (b : Sym) (c : Count) :
    (setFreq s b c).wlen = s.wlen := rfl
@[simp] theorem setFreq_wlenraw (s : State) (b : Sym) (c : Count) :
    (setFreq s b c).wlenraw = s.wlenraw := rfl
@[simp] theorem setFreq_din (s : State) (b : Sym) (c : Count) :
    (setFreq s b c).din = s.din := rfl
@[simp] theorem setFreq_rsp (s : State) (b : Sym) (c : Count) :
    (setFreq s b c).rsp = s.rsp := rfl
@[simp] theorem setFreq_host (s : State) (b : Sym) (c : Count) :
    (setFreq s b c).host = s.host := rfl

@[simp] theorem setNode_freq (s : State) (i : NodeIdx) (n : Node) :
    (setNode s i n).freq = s.freq := rfl
@[simp] theorem setNode_node (s : State) (i : NodeIdx) (n : Node) :
    (setNode s i n).node = Memory.write nodeFill s.node i.toNat n := rfl
@[simp] theorem setNode_code (s : State) (i : NodeIdx) (n : Node) :
    (setNode s i n).code = s.code := rfl
@[simp] theorem setNode_cand (s : State) (i : NodeIdx) (n : Node) :
    (setNode s i n).cand = s.cand := rfl
@[simp] theorem setNode_stk (s : State) (i : NodeIdx) (n : Node) :
    (setNode s i n).stk = s.stk := rfl
@[simp] theorem setNode_next (s : State) (i : NodeIdx) (n : Node) :
    (setNode s i n).next = s.next := rfl
@[simp] theorem setNode_nleaf (s : State) (i : NodeIdx) (n : Node) :
    (setNode s i n).nleaf = s.nleaf := rfl
@[simp] theorem setNode_root (s : State) (i : NodeIdx) (n : Node) :
    (setNode s i n).root = s.root := rfl
@[simp] theorem setNode_built (s : State) (i : NodeIdx) (n : Node) :
    (setNode s i n).built = s.built := rfl
@[simp] theorem setNode_codev (s : State) (i : NodeIdx) (n : Node) :
    (setNode s i n).codev = s.codev := rfl
@[simp] theorem setNode_empty (s : State) (i : NodeIdx) (n : Node) :
    (setNode s i n).empty = s.empty := rfl
@[simp] theorem setNode_single (s : State) (i : NodeIdx) (n : Node) :
    (setNode s i n).single = s.single := rfl
@[simp] theorem setNode_err (s : State) (i : NodeIdx) (n : Node) :
    (setNode s i n).err = s.err := rfl
@[simp] theorem setNode_errcode (s : State) (i : NodeIdx) (n : Node) :
    (setNode s i n).errcode = s.errcode := rfl
@[simp] theorem setNode_ph (s : State) (i : NodeIdx) (n : Node) :
    (setNode s i n).ph = s.ph := rfl
@[simp] theorem setNode_ix (s : State) (i : NodeIdx) (n : Node) :
    (setNode s i n).ix = s.ix := rfl
@[simp] theorem setNode_sp (s : State) (i : NodeIdx) (n : Node) :
    (setNode s i n).sp = s.sp := rfl
@[simp] theorem setNode_m1 (s : State) (i : NodeIdx) (n : Node) :
    (setNode s i n).m1 = s.m1 := rfl
@[simp] theorem setNode_m2 (s : State) (i : NodeIdx) (n : Node) :
    (setNode s i n).m2 = s.m2 := rfl
@[simp] theorem setNode_wlen (s : State) (i : NodeIdx) (n : Node) :
    (setNode s i n).wlen = s.wlen := rfl
@[simp] theorem setNode_wlenraw (s : State) (i : NodeIdx) (n : Node) :
    (setNode s i n).wlenraw = s.wlenraw := rfl
@[simp] theorem setNode_din (s : State) (i : NodeIdx) (n : Node) :
    (setNode s i n).din = s.din := rfl
@[simp] theorem setNode_rsp (s : State) (i : NodeIdx) (n : Node) :
    (setNode s i n).rsp = s.rsp := rfl
@[simp] theorem setNode_host (s : State) (i : NodeIdx) (n : Node) :
    (setNode s i n).host = s.host := rfl

@[simp] theorem setCode_freq (s : State) (b : Sym) (e : CodeEntry) :
    (setCode s b e).freq = s.freq := rfl
@[simp] theorem setCode_node (s : State) (b : Sym) (e : CodeEntry) :
    (setCode s b e).node = s.node := rfl
@[simp] theorem setCode_code (s : State) (b : Sym) (e : CodeEntry) :
    (setCode s b e).code = Memory.write codeFill s.code b.toNat e := rfl
@[simp] theorem setCode_cand (s : State) (b : Sym) (e : CodeEntry) :
    (setCode s b e).cand = s.cand := rfl
@[simp] theorem setCode_stk (s : State) (b : Sym) (e : CodeEntry) :
    (setCode s b e).stk = s.stk := rfl
@[simp] theorem setCode_next (s : State) (b : Sym) (e : CodeEntry) :
    (setCode s b e).next = s.next := rfl
@[simp] theorem setCode_nleaf (s : State) (b : Sym) (e : CodeEntry) :
    (setCode s b e).nleaf = s.nleaf := rfl
@[simp] theorem setCode_root (s : State) (b : Sym) (e : CodeEntry) :
    (setCode s b e).root = s.root := rfl
@[simp] theorem setCode_built (s : State) (b : Sym) (e : CodeEntry) :
    (setCode s b e).built = s.built := rfl
@[simp] theorem setCode_codev (s : State) (b : Sym) (e : CodeEntry) :
    (setCode s b e).codev = s.codev := rfl
@[simp] theorem setCode_empty (s : State) (b : Sym) (e : CodeEntry) :
    (setCode s b e).empty = s.empty := rfl
@[simp] theorem setCode_single (s : State) (b : Sym) (e : CodeEntry) :
    (setCode s b e).single = s.single := rfl
@[simp] theorem setCode_err (s : State) (b : Sym) (e : CodeEntry) :
    (setCode s b e).err = s.err := rfl
@[simp] theorem setCode_errcode (s : State) (b : Sym) (e : CodeEntry) :
    (setCode s b e).errcode = s.errcode := rfl
@[simp] theorem setCode_ph (s : State) (b : Sym) (e : CodeEntry) :
    (setCode s b e).ph = s.ph := rfl
@[simp] theorem setCode_ix (s : State) (b : Sym) (e : CodeEntry) :
    (setCode s b e).ix = s.ix := rfl
@[simp] theorem setCode_sp (s : State) (b : Sym) (e : CodeEntry) :
    (setCode s b e).sp = s.sp := rfl
@[simp] theorem setCode_m1 (s : State) (b : Sym) (e : CodeEntry) :
    (setCode s b e).m1 = s.m1 := rfl
@[simp] theorem setCode_m2 (s : State) (b : Sym) (e : CodeEntry) :
    (setCode s b e).m2 = s.m2 := rfl
@[simp] theorem setCode_wlen (s : State) (b : Sym) (e : CodeEntry) :
    (setCode s b e).wlen = s.wlen := rfl
@[simp] theorem setCode_wlenraw (s : State) (b : Sym) (e : CodeEntry) :
    (setCode s b e).wlenraw = s.wlenraw := rfl
@[simp] theorem setCode_din (s : State) (b : Sym) (e : CodeEntry) :
    (setCode s b e).din = s.din := rfl
@[simp] theorem setCode_rsp (s : State) (b : Sym) (e : CodeEntry) :
    (setCode s b e).rsp = s.rsp := rfl
@[simp] theorem setCode_host (s : State) (b : Sym) (e : CodeEntry) :
    (setCode s b e).host = s.host := rfl

@[simp] theorem setCand_freq (s : State) (i : NodeIdx) (v : Bool) :
    (setCand s i v).freq = s.freq := rfl
@[simp] theorem setCand_node (s : State) (i : NodeIdx) (v : Bool) :
    (setCand s i v).node = s.node := rfl
@[simp] theorem setCand_code (s : State) (i : NodeIdx) (v : Bool) :
    (setCand s i v).code = s.code := rfl
@[simp] theorem setCand_cand (s : State) (i : NodeIdx) (v : Bool) :
    (setCand s i v).cand = Memory.write candFill s.cand i.toNat v := rfl
@[simp] theorem setCand_stk (s : State) (i : NodeIdx) (v : Bool) :
    (setCand s i v).stk = s.stk := rfl
@[simp] theorem setCand_next (s : State) (i : NodeIdx) (v : Bool) :
    (setCand s i v).next = s.next := rfl
@[simp] theorem setCand_nleaf (s : State) (i : NodeIdx) (v : Bool) :
    (setCand s i v).nleaf = s.nleaf := rfl
@[simp] theorem setCand_root (s : State) (i : NodeIdx) (v : Bool) :
    (setCand s i v).root = s.root := rfl
@[simp] theorem setCand_built (s : State) (i : NodeIdx) (v : Bool) :
    (setCand s i v).built = s.built := rfl
@[simp] theorem setCand_codev (s : State) (i : NodeIdx) (v : Bool) :
    (setCand s i v).codev = s.codev := rfl
@[simp] theorem setCand_empty (s : State) (i : NodeIdx) (v : Bool) :
    (setCand s i v).empty = s.empty := rfl
@[simp] theorem setCand_single (s : State) (i : NodeIdx) (v : Bool) :
    (setCand s i v).single = s.single := rfl
@[simp] theorem setCand_err (s : State) (i : NodeIdx) (v : Bool) :
    (setCand s i v).err = s.err := rfl
@[simp] theorem setCand_errcode (s : State) (i : NodeIdx) (v : Bool) :
    (setCand s i v).errcode = s.errcode := rfl
@[simp] theorem setCand_ph (s : State) (i : NodeIdx) (v : Bool) :
    (setCand s i v).ph = s.ph := rfl
@[simp] theorem setCand_ix (s : State) (i : NodeIdx) (v : Bool) :
    (setCand s i v).ix = s.ix := rfl
@[simp] theorem setCand_sp (s : State) (i : NodeIdx) (v : Bool) :
    (setCand s i v).sp = s.sp := rfl
@[simp] theorem setCand_m1 (s : State) (i : NodeIdx) (v : Bool) :
    (setCand s i v).m1 = s.m1 := rfl
@[simp] theorem setCand_m2 (s : State) (i : NodeIdx) (v : Bool) :
    (setCand s i v).m2 = s.m2 := rfl
@[simp] theorem setCand_wlen (s : State) (i : NodeIdx) (v : Bool) :
    (setCand s i v).wlen = s.wlen := rfl
@[simp] theorem setCand_wlenraw (s : State) (i : NodeIdx) (v : Bool) :
    (setCand s i v).wlenraw = s.wlenraw := rfl
@[simp] theorem setCand_din (s : State) (i : NodeIdx) (v : Bool) :
    (setCand s i v).din = s.din := rfl
@[simp] theorem setCand_rsp (s : State) (i : NodeIdx) (v : Bool) :
    (setCand s i v).rsp = s.rsp := rfl
@[simp] theorem setCand_host (s : State) (i : NodeIdx) (v : Bool) :
    (setCand s i v).host = s.host := rfl

@[simp] theorem setStk_freq (s : State) (j : Nat) (e : StkEntry) :
    (setStk s j e).freq = s.freq := rfl
@[simp] theorem setStk_node (s : State) (j : Nat) (e : StkEntry) :
    (setStk s j e).node = s.node := rfl
@[simp] theorem setStk_code (s : State) (j : Nat) (e : StkEntry) :
    (setStk s j e).code = s.code := rfl
@[simp] theorem setStk_cand (s : State) (j : Nat) (e : StkEntry) :
    (setStk s j e).cand = s.cand := rfl
@[simp] theorem setStk_stk (s : State) (j : Nat) (e : StkEntry) :
    (setStk s j e).stk = Memory.write stkFill s.stk j e := rfl
@[simp] theorem setStk_next (s : State) (j : Nat) (e : StkEntry) :
    (setStk s j e).next = s.next := rfl
@[simp] theorem setStk_nleaf (s : State) (j : Nat) (e : StkEntry) :
    (setStk s j e).nleaf = s.nleaf := rfl
@[simp] theorem setStk_root (s : State) (j : Nat) (e : StkEntry) :
    (setStk s j e).root = s.root := rfl
@[simp] theorem setStk_built (s : State) (j : Nat) (e : StkEntry) :
    (setStk s j e).built = s.built := rfl
@[simp] theorem setStk_codev (s : State) (j : Nat) (e : StkEntry) :
    (setStk s j e).codev = s.codev := rfl
@[simp] theorem setStk_empty (s : State) (j : Nat) (e : StkEntry) :
    (setStk s j e).empty = s.empty := rfl
@[simp] theorem setStk_single (s : State) (j : Nat) (e : StkEntry) :
    (setStk s j e).single = s.single := rfl
@[simp] theorem setStk_err (s : State) (j : Nat) (e : StkEntry) :
    (setStk s j e).err = s.err := rfl
@[simp] theorem setStk_errcode (s : State) (j : Nat) (e : StkEntry) :
    (setStk s j e).errcode = s.errcode := rfl
@[simp] theorem setStk_ph (s : State) (j : Nat) (e : StkEntry) :
    (setStk s j e).ph = s.ph := rfl
@[simp] theorem setStk_ix (s : State) (j : Nat) (e : StkEntry) :
    (setStk s j e).ix = s.ix := rfl
@[simp] theorem setStk_sp (s : State) (j : Nat) (e : StkEntry) :
    (setStk s j e).sp = s.sp := rfl
@[simp] theorem setStk_m1 (s : State) (j : Nat) (e : StkEntry) :
    (setStk s j e).m1 = s.m1 := rfl
@[simp] theorem setStk_m2 (s : State) (j : Nat) (e : StkEntry) :
    (setStk s j e).m2 = s.m2 := rfl
@[simp] theorem setStk_wlen (s : State) (j : Nat) (e : StkEntry) :
    (setStk s j e).wlen = s.wlen := rfl
@[simp] theorem setStk_wlenraw (s : State) (j : Nat) (e : StkEntry) :
    (setStk s j e).wlenraw = s.wlenraw := rfl
@[simp] theorem setStk_din (s : State) (j : Nat) (e : StkEntry) :
    (setStk s j e).din = s.din := rfl
@[simp] theorem setStk_rsp (s : State) (j : Nat) (e : StkEntry) :
    (setStk s j e).rsp = s.rsp := rfl
@[simp] theorem setStk_host (s : State) (j : Nat) (e : StkEntry) :
    (setStk s j e).host = s.host := rfl

@[simp] theorem clearFreq_freq (s : State) :
    (clearFreq s).freq = [] := rfl
@[simp] theorem clearFreq_node (s : State) :
    (clearFreq s).node = s.node := rfl
@[simp] theorem clearFreq_code (s : State) :
    (clearFreq s).code = s.code := rfl
@[simp] theorem clearFreq_cand (s : State) :
    (clearFreq s).cand = s.cand := rfl
@[simp] theorem clearFreq_stk (s : State) :
    (clearFreq s).stk = s.stk := rfl
@[simp] theorem clearFreq_next (s : State) :
    (clearFreq s).next = s.next := rfl
@[simp] theorem clearFreq_nleaf (s : State) :
    (clearFreq s).nleaf = s.nleaf := rfl
@[simp] theorem clearFreq_root (s : State) :
    (clearFreq s).root = s.root := rfl
@[simp] theorem clearFreq_built (s : State) :
    (clearFreq s).built = s.built := rfl
@[simp] theorem clearFreq_codev (s : State) :
    (clearFreq s).codev = s.codev := rfl
@[simp] theorem clearFreq_empty (s : State) :
    (clearFreq s).empty = s.empty := rfl
@[simp] theorem clearFreq_single (s : State) :
    (clearFreq s).single = s.single := rfl
@[simp] theorem clearFreq_err (s : State) :
    (clearFreq s).err = s.err := rfl
@[simp] theorem clearFreq_errcode (s : State) :
    (clearFreq s).errcode = s.errcode := rfl
@[simp] theorem clearFreq_ph (s : State) :
    (clearFreq s).ph = s.ph := rfl
@[simp] theorem clearFreq_ix (s : State) :
    (clearFreq s).ix = s.ix := rfl
@[simp] theorem clearFreq_sp (s : State) :
    (clearFreq s).sp = s.sp := rfl
@[simp] theorem clearFreq_m1 (s : State) :
    (clearFreq s).m1 = s.m1 := rfl
@[simp] theorem clearFreq_m2 (s : State) :
    (clearFreq s).m2 = s.m2 := rfl
@[simp] theorem clearFreq_wlen (s : State) :
    (clearFreq s).wlen = s.wlen := rfl
@[simp] theorem clearFreq_wlenraw (s : State) :
    (clearFreq s).wlenraw = s.wlenraw := rfl
@[simp] theorem clearFreq_din (s : State) :
    (clearFreq s).din = s.din := rfl
@[simp] theorem clearFreq_rsp (s : State) :
    (clearFreq s).rsp = s.rsp := rfl
@[simp] theorem clearFreq_host (s : State) :
    (clearFreq s).host = s.host := rfl

@[simp] theorem clearCode_freq (s : State) :
    (clearCode s).freq = s.freq := rfl
@[simp] theorem clearCode_node (s : State) :
    (clearCode s).node = s.node := rfl
@[simp] theorem clearCode_code (s : State) :
    (clearCode s).code = [] := rfl
@[simp] theorem clearCode_cand (s : State) :
    (clearCode s).cand = s.cand := rfl
@[simp] theorem clearCode_stk (s : State) :
    (clearCode s).stk = s.stk := rfl
@[simp] theorem clearCode_next (s : State) :
    (clearCode s).next = s.next := rfl
@[simp] theorem clearCode_nleaf (s : State) :
    (clearCode s).nleaf = s.nleaf := rfl
@[simp] theorem clearCode_root (s : State) :
    (clearCode s).root = s.root := rfl
@[simp] theorem clearCode_built (s : State) :
    (clearCode s).built = s.built := rfl
@[simp] theorem clearCode_codev (s : State) :
    (clearCode s).codev = s.codev := rfl
@[simp] theorem clearCode_empty (s : State) :
    (clearCode s).empty = s.empty := rfl
@[simp] theorem clearCode_single (s : State) :
    (clearCode s).single = s.single := rfl
@[simp] theorem clearCode_err (s : State) :
    (clearCode s).err = s.err := rfl
@[simp] theorem clearCode_errcode (s : State) :
    (clearCode s).errcode = s.errcode := rfl
@[simp] theorem clearCode_ph (s : State) :
    (clearCode s).ph = s.ph := rfl
@[simp] theorem clearCode_ix (s : State) :
    (clearCode s).ix = s.ix := rfl
@[simp] theorem clearCode_sp (s : State) :
    (clearCode s).sp = s.sp := rfl
@[simp] theorem clearCode_m1 (s : State) :
    (clearCode s).m1 = s.m1 := rfl
@[simp] theorem clearCode_m2 (s : State) :
    (clearCode s).m2 = s.m2 := rfl
@[simp] theorem clearCode_wlen (s : State) :
    (clearCode s).wlen = s.wlen := rfl
@[simp] theorem clearCode_wlenraw (s : State) :
    (clearCode s).wlenraw = s.wlenraw := rfl
@[simp] theorem clearCode_din (s : State) :
    (clearCode s).din = s.din := rfl
@[simp] theorem clearCode_rsp (s : State) :
    (clearCode s).rsp = s.rsp := rfl
@[simp] theorem clearCode_host (s : State) :
    (clearCode s).host = s.host := rfl

@[simp] theorem clearCand_freq (s : State) :
    (clearCand s).freq = s.freq := rfl
@[simp] theorem clearCand_node (s : State) :
    (clearCand s).node = s.node := rfl
@[simp] theorem clearCand_code (s : State) :
    (clearCand s).code = s.code := rfl
@[simp] theorem clearCand_cand (s : State) :
    (clearCand s).cand = [] := rfl
@[simp] theorem clearCand_stk (s : State) :
    (clearCand s).stk = s.stk := rfl
@[simp] theorem clearCand_next (s : State) :
    (clearCand s).next = s.next := rfl
@[simp] theorem clearCand_nleaf (s : State) :
    (clearCand s).nleaf = s.nleaf := rfl
@[simp] theorem clearCand_root (s : State) :
    (clearCand s).root = s.root := rfl
@[simp] theorem clearCand_built (s : State) :
    (clearCand s).built = s.built := rfl
@[simp] theorem clearCand_codev (s : State) :
    (clearCand s).codev = s.codev := rfl
@[simp] theorem clearCand_empty (s : State) :
    (clearCand s).empty = s.empty := rfl
@[simp] theorem clearCand_single (s : State) :
    (clearCand s).single = s.single := rfl
@[simp] theorem clearCand_err (s : State) :
    (clearCand s).err = s.err := rfl
@[simp] theorem clearCand_errcode (s : State) :
    (clearCand s).errcode = s.errcode := rfl
@[simp] theorem clearCand_ph (s : State) :
    (clearCand s).ph = s.ph := rfl
@[simp] theorem clearCand_ix (s : State) :
    (clearCand s).ix = s.ix := rfl
@[simp] theorem clearCand_sp (s : State) :
    (clearCand s).sp = s.sp := rfl
@[simp] theorem clearCand_m1 (s : State) :
    (clearCand s).m1 = s.m1 := rfl
@[simp] theorem clearCand_m2 (s : State) :
    (clearCand s).m2 = s.m2 := rfl
@[simp] theorem clearCand_wlen (s : State) :
    (clearCand s).wlen = s.wlen := rfl
@[simp] theorem clearCand_wlenraw (s : State) :
    (clearCand s).wlenraw = s.wlenraw := rfl
@[simp] theorem clearCand_din (s : State) :
    (clearCand s).din = s.din := rfl
@[simp] theorem clearCand_rsp (s : State) :
    (clearCand s).rsp = s.rsp := rfl
@[simp] theorem clearCand_host (s : State) :
    (clearCand s).host = s.host := rfl

@[simp] theorem clearBuild_freq (s : State) :
    (clearBuild s).freq = s.freq := rfl
@[simp] theorem clearBuild_node (s : State) :
    (clearBuild s).node = s.node := rfl
@[simp] theorem clearBuild_code (s : State) :
    (clearBuild s).code = s.code := rfl
@[simp] theorem clearBuild_cand (s : State) :
    (clearBuild s).cand = [] := rfl
@[simp] theorem clearBuild_stk (s : State) :
    (clearBuild s).stk = s.stk := rfl
@[simp] theorem clearBuild_next (s : State) :
    (clearBuild s).next = 0 := rfl
@[simp] theorem clearBuild_nleaf (s : State) :
    (clearBuild s).nleaf = 0 := rfl
@[simp] theorem clearBuild_root (s : State) :
    (clearBuild s).root = 0 := rfl
@[simp] theorem clearBuild_built (s : State) :
    (clearBuild s).built = s.built := rfl
@[simp] theorem clearBuild_codev (s : State) :
    (clearBuild s).codev = s.codev := rfl
@[simp] theorem clearBuild_empty (s : State) :
    (clearBuild s).empty = s.empty := rfl
@[simp] theorem clearBuild_single (s : State) :
    (clearBuild s).single = s.single := rfl
@[simp] theorem clearBuild_err (s : State) :
    (clearBuild s).err = s.err := rfl
@[simp] theorem clearBuild_errcode (s : State) :
    (clearBuild s).errcode = s.errcode := rfl
@[simp] theorem clearBuild_ph (s : State) :
    (clearBuild s).ph = s.ph := rfl
@[simp] theorem clearBuild_ix (s : State) :
    (clearBuild s).ix = s.ix := rfl
@[simp] theorem clearBuild_sp (s : State) :
    (clearBuild s).sp = s.sp := rfl
@[simp] theorem clearBuild_m1 (s : State) :
    (clearBuild s).m1 = s.m1 := rfl
@[simp] theorem clearBuild_m2 (s : State) :
    (clearBuild s).m2 = s.m2 := rfl
@[simp] theorem clearBuild_wlen (s : State) :
    (clearBuild s).wlen = s.wlen := rfl
@[simp] theorem clearBuild_wlenraw (s : State) :
    (clearBuild s).wlenraw = s.wlenraw := rfl
@[simp] theorem clearBuild_din (s : State) :
    (clearBuild s).din = s.din := rfl
@[simp] theorem clearBuild_rsp (s : State) :
    (clearBuild s).rsp = s.rsp := rfl
@[simp] theorem clearBuild_host (s : State) :
    (clearBuild s).host = s.host := rfl

@[simp] theorem clearAssign_freq (s : State) :
    (clearAssign s).freq = s.freq := rfl
@[simp] theorem clearAssign_node (s : State) :
    (clearAssign s).node = s.node := rfl
@[simp] theorem clearAssign_code (s : State) :
    (clearAssign s).code = [] := rfl
@[simp] theorem clearAssign_cand (s : State) :
    (clearAssign s).cand = s.cand := rfl
@[simp] theorem clearAssign_stk (s : State) :
    (clearAssign s).stk = s.stk := rfl
@[simp] theorem clearAssign_next (s : State) :
    (clearAssign s).next = s.next := rfl
@[simp] theorem clearAssign_nleaf (s : State) :
    (clearAssign s).nleaf = s.nleaf := rfl
@[simp] theorem clearAssign_root (s : State) :
    (clearAssign s).root = s.root := rfl
@[simp] theorem clearAssign_built (s : State) :
    (clearAssign s).built = s.built := rfl
@[simp] theorem clearAssign_codev (s : State) :
    (clearAssign s).codev = s.codev := rfl
@[simp] theorem clearAssign_empty (s : State) :
    (clearAssign s).empty = s.empty := rfl
@[simp] theorem clearAssign_single (s : State) :
    (clearAssign s).single = s.single := rfl
@[simp] theorem clearAssign_err (s : State) :
    (clearAssign s).err = s.err := rfl
@[simp] theorem clearAssign_errcode (s : State) :
    (clearAssign s).errcode = s.errcode := rfl
@[simp] theorem clearAssign_ph (s : State) :
    (clearAssign s).ph = s.ph := rfl
@[simp] theorem clearAssign_ix (s : State) :
    (clearAssign s).ix = s.ix := rfl
@[simp] theorem clearAssign_sp (s : State) :
    (clearAssign s).sp = s.sp := rfl
@[simp] theorem clearAssign_m1 (s : State) :
    (clearAssign s).m1 = s.m1 := rfl
@[simp] theorem clearAssign_m2 (s : State) :
    (clearAssign s).m2 = s.m2 := rfl
@[simp] theorem clearAssign_wlen (s : State) :
    (clearAssign s).wlen = 0 := rfl
@[simp] theorem clearAssign_wlenraw (s : State) :
    (clearAssign s).wlenraw = 0 := rfl
@[simp] theorem clearAssign_din (s : State) :
    (clearAssign s).din = s.din := rfl
@[simp] theorem clearAssign_rsp (s : State) :
    (clearAssign s).rsp = s.rsp := rfl
@[simp] theorem clearAssign_host (s : State) :
    (clearAssign s).host = s.host := rfl

@[simp] theorem invalidate_freq (s : State) :
    (invalidate s).freq = s.freq := rfl
@[simp] theorem invalidate_node (s : State) :
    (invalidate s).node = s.node := rfl
@[simp] theorem invalidate_code (s : State) :
    (invalidate s).code = s.code := rfl
@[simp] theorem invalidate_cand (s : State) :
    (invalidate s).cand = s.cand := rfl
@[simp] theorem invalidate_stk (s : State) :
    (invalidate s).stk = s.stk := rfl
@[simp] theorem invalidate_next (s : State) :
    (invalidate s).next = 0 := rfl
@[simp] theorem invalidate_nleaf (s : State) :
    (invalidate s).nleaf = 0 := rfl
@[simp] theorem invalidate_root (s : State) :
    (invalidate s).root = 0 := rfl
@[simp] theorem invalidate_built (s : State) :
    (invalidate s).built = false := rfl
@[simp] theorem invalidate_codev (s : State) :
    (invalidate s).codev = false := rfl
@[simp] theorem invalidate_empty (s : State) :
    (invalidate s).empty = false := rfl
@[simp] theorem invalidate_single (s : State) :
    (invalidate s).single = false := rfl
@[simp] theorem invalidate_err (s : State) :
    (invalidate s).err = s.err := rfl
@[simp] theorem invalidate_errcode (s : State) :
    (invalidate s).errcode = s.errcode := rfl
@[simp] theorem invalidate_ph (s : State) :
    (invalidate s).ph = s.ph := rfl
@[simp] theorem invalidate_ix (s : State) :
    (invalidate s).ix = s.ix := rfl
@[simp] theorem invalidate_sp (s : State) :
    (invalidate s).sp = s.sp := rfl
@[simp] theorem invalidate_m1 (s : State) :
    (invalidate s).m1 = s.m1 := rfl
@[simp] theorem invalidate_m2 (s : State) :
    (invalidate s).m2 = s.m2 := rfl
@[simp] theorem invalidate_wlen (s : State) :
    (invalidate s).wlen = 0 := rfl
@[simp] theorem invalidate_wlenraw (s : State) :
    (invalidate s).wlenraw = 0 := rfl
@[simp] theorem invalidate_din (s : State) :
    (invalidate s).din = s.din := rfl
@[simp] theorem invalidate_rsp (s : State) :
    (invalidate s).rsp = s.rsp := rfl
@[simp] theorem invalidate_host (s : State) :
    (invalidate s).host = s.host := rfl

@[simp] theorem finish_freq (s : State) :
    (finish s).freq = s.freq := rfl
@[simp] theorem finish_node (s : State) :
    (finish s).node = s.node := rfl
@[simp] theorem finish_code (s : State) :
    (finish s).code = s.code := rfl
@[simp] theorem finish_cand (s : State) :
    (finish s).cand = s.cand := rfl
@[simp] theorem finish_stk (s : State) :
    (finish s).stk = s.stk := rfl
@[simp] theorem finish_next (s : State) :
    (finish s).next = s.next := rfl
@[simp] theorem finish_nleaf (s : State) :
    (finish s).nleaf = s.nleaf := rfl
@[simp] theorem finish_root (s : State) :
    (finish s).root = rootIndex s.nleaf s.next := rfl
@[simp] theorem finish_built (s : State) :
    (finish s).built = true := rfl
@[simp] theorem finish_codev (s : State) :
    (finish s).codev = s.codev := rfl
@[simp] theorem finish_empty (s : State) :
    (finish s).empty = emptyFlag s.nleaf := rfl
@[simp] theorem finish_single (s : State) :
    (finish s).single = singleFlag s.nleaf := rfl
@[simp] theorem finish_err (s : State) :
    (finish s).err = s.err := rfl
@[simp] theorem finish_errcode (s : State) :
    (finish s).errcode = s.errcode := rfl
@[simp] theorem finish_ph (s : State) :
    (finish s).ph = s.ph := rfl
@[simp] theorem finish_ix (s : State) :
    (finish s).ix = s.ix := rfl
@[simp] theorem finish_sp (s : State) :
    (finish s).sp = s.sp := rfl
@[simp] theorem finish_m1 (s : State) :
    (finish s).m1 = s.m1 := rfl
@[simp] theorem finish_m2 (s : State) :
    (finish s).m2 = s.m2 := rfl
@[simp] theorem finish_wlen (s : State) :
    (finish s).wlen = s.wlen := rfl
@[simp] theorem finish_wlenraw (s : State) :
    (finish s).wlenraw = s.wlenraw := rfl
@[simp] theorem finish_din (s : State) :
    (finish s).din = s.din := rfl
@[simp] theorem finish_rsp (s : State) :
    (finish s).rsp = s.rsp := rfl
@[simp] theorem finish_host (s : State) :
    (finish s).host = s.host := rfl

@[simp] theorem consumeTree_freq (s : State) :
    (consumeTree s).freq = s.freq := rfl
@[simp] theorem consumeTree_node (s : State) :
    (consumeTree s).node = s.node := rfl
@[simp] theorem consumeTree_code (s : State) :
    (consumeTree s).code = s.code := rfl
@[simp] theorem consumeTree_cand (s : State) :
    (consumeTree s).cand = s.cand := rfl
@[simp] theorem consumeTree_stk (s : State) :
    (consumeTree s).stk = s.stk := rfl
@[simp] theorem consumeTree_next (s : State) :
    (consumeTree s).next = s.next := rfl
@[simp] theorem consumeTree_nleaf (s : State) :
    (consumeTree s).nleaf = s.nleaf := rfl
@[simp] theorem consumeTree_root (s : State) :
    (consumeTree s).root = s.root := rfl
@[simp] theorem consumeTree_built (s : State) :
    (consumeTree s).built = false := rfl
@[simp] theorem consumeTree_codev (s : State) :
    (consumeTree s).codev = true := rfl
@[simp] theorem consumeTree_empty (s : State) :
    (consumeTree s).empty = s.empty := rfl
@[simp] theorem consumeTree_single (s : State) :
    (consumeTree s).single = s.single := rfl
@[simp] theorem consumeTree_err (s : State) :
    (consumeTree s).err = s.err := rfl
@[simp] theorem consumeTree_errcode (s : State) :
    (consumeTree s).errcode = s.errcode := rfl
@[simp] theorem consumeTree_ph (s : State) :
    (consumeTree s).ph = s.ph := rfl
@[simp] theorem consumeTree_ix (s : State) :
    (consumeTree s).ix = s.ix := rfl
@[simp] theorem consumeTree_sp (s : State) :
    (consumeTree s).sp = s.sp := rfl
@[simp] theorem consumeTree_m1 (s : State) :
    (consumeTree s).m1 = s.m1 := rfl
@[simp] theorem consumeTree_m2 (s : State) :
    (consumeTree s).m2 = s.m2 := rfl
@[simp] theorem consumeTree_wlen (s : State) :
    (consumeTree s).wlen = s.wlen := rfl
@[simp] theorem consumeTree_wlenraw (s : State) :
    (consumeTree s).wlenraw = s.wlenraw := rfl
@[simp] theorem consumeTree_din (s : State) :
    (consumeTree s).din = s.din := rfl
@[simp] theorem consumeTree_rsp (s : State) :
    (consumeTree s).rsp = s.rsp := rfl
@[simp] theorem consumeTree_host (s : State) :
    (consumeTree s).host = s.host := rfl

@[simp] theorem emit_freq (s : State) (n : Node) (d : Len) (p : Path) :
    (emit s n d p).freq = s.freq := rfl
@[simp] theorem emit_node (s : State) (n : Node) (d : Len) (p : Path) :
    (emit s n d p).node = s.node := rfl
@[simp] theorem emit_code (s : State) (n : Node) (d : Len) (p : Path) :
    (emit s n d p).code = Memory.write codeFill s.code n.sym.toNat (leafCode d p) := rfl
@[simp] theorem emit_cand (s : State) (n : Node) (d : Len) (p : Path) :
    (emit s n d p).cand = s.cand := rfl
@[simp] theorem emit_stk (s : State) (n : Node) (d : Len) (p : Path) :
    (emit s n d p).stk = s.stk := rfl
@[simp] theorem emit_next (s : State) (n : Node) (d : Len) (p : Path) :
    (emit s n d p).next = s.next := rfl
@[simp] theorem emit_nleaf (s : State) (n : Node) (d : Len) (p : Path) :
    (emit s n d p).nleaf = s.nleaf := rfl
@[simp] theorem emit_root (s : State) (n : Node) (d : Len) (p : Path) :
    (emit s n d p).root = s.root := rfl
@[simp] theorem emit_built (s : State) (n : Node) (d : Len) (p : Path) :
    (emit s n d p).built = s.built := rfl
@[simp] theorem emit_codev (s : State) (n : Node) (d : Len) (p : Path) :
    (emit s n d p).codev = s.codev := rfl
@[simp] theorem emit_empty (s : State) (n : Node) (d : Len) (p : Path) :
    (emit s n d p).empty = s.empty := rfl
@[simp] theorem emit_single (s : State) (n : Node) (d : Len) (p : Path) :
    (emit s n d p).single = s.single := rfl
@[simp] theorem emit_err (s : State) (n : Node) (d : Len) (p : Path) :
    (emit s n d p).err = s.err := rfl
@[simp] theorem emit_errcode (s : State) (n : Node) (d : Len) (p : Path) :
    (emit s n d p).errcode = s.errcode := rfl
@[simp] theorem emit_ph (s : State) (n : Node) (d : Len) (p : Path) :
    (emit s n d p).ph = s.ph := rfl
@[simp] theorem emit_ix (s : State) (n : Node) (d : Len) (p : Path) :
    (emit s n d p).ix = s.ix := rfl
@[simp] theorem emit_sp (s : State) (n : Node) (d : Len) (p : Path) :
    (emit s n d p).sp = s.sp := rfl
@[simp] theorem emit_m1 (s : State) (n : Node) (d : Len) (p : Path) :
    (emit s n d p).m1 = s.m1 := rfl
@[simp] theorem emit_m2 (s : State) (n : Node) (d : Len) (p : Path) :
    (emit s n d p).m2 = s.m2 := rfl
@[simp] theorem emit_wlen (s : State) (n : Node) (d : Len) (p : Path) :
    (emit s n d p).wlen = s.wlen + weighted n.weight (leafCode d p).len := rfl
@[simp] theorem emit_wlenraw (s : State) (n : Node) (d : Len) (p : Path) :
    (emit s n d p).wlenraw = s.wlenraw + weighted n.weight d := rfl
@[simp] theorem emit_din (s : State) (n : Node) (d : Len) (p : Path) :
    (emit s n d p).din = s.din := rfl
@[simp] theorem emit_rsp (s : State) (n : Node) (d : Len) (p : Path) :
    (emit s n d p).rsp = s.rsp := rfl
@[simp] theorem emit_host (s : State) (n : Node) (d : Len) (p : Path) :
    (emit s n d p).host = s.host := rfl

@[simp] theorem hostRest_freq (s : State) :
    (hostRest s).freq = s.freq := rfl
@[simp] theorem hostRest_node (s : State) :
    (hostRest s).node = s.node := rfl
@[simp] theorem hostRest_code (s : State) :
    (hostRest s).code = s.code := rfl
@[simp] theorem hostRest_cand (s : State) :
    (hostRest s).cand = s.cand := rfl
@[simp] theorem hostRest_stk (s : State) :
    (hostRest s).stk = s.stk := rfl
@[simp] theorem hostRest_next (s : State) :
    (hostRest s).next = s.next := rfl
@[simp] theorem hostRest_nleaf (s : State) :
    (hostRest s).nleaf = s.nleaf := rfl
@[simp] theorem hostRest_root (s : State) :
    (hostRest s).root = s.root := rfl
@[simp] theorem hostRest_built (s : State) :
    (hostRest s).built = s.built := rfl
@[simp] theorem hostRest_codev (s : State) :
    (hostRest s).codev = s.codev := rfl
@[simp] theorem hostRest_empty (s : State) :
    (hostRest s).empty = s.empty := rfl
@[simp] theorem hostRest_single (s : State) :
    (hostRest s).single = s.single := rfl
@[simp] theorem hostRest_err (s : State) :
    (hostRest s).err = s.err := rfl
@[simp] theorem hostRest_errcode (s : State) :
    (hostRest s).errcode = s.errcode := rfl
@[simp] theorem hostRest_ph (s : State) :
    (hostRest s).ph = s.ph := rfl
@[simp] theorem hostRest_ix (s : State) :
    (hostRest s).ix = s.ix := rfl
@[simp] theorem hostRest_sp (s : State) :
    (hostRest s).sp = s.sp := rfl
@[simp] theorem hostRest_m1 (s : State) :
    (hostRest s).m1 = s.m1 := rfl
@[simp] theorem hostRest_m2 (s : State) :
    (hostRest s).m2 = s.m2 := rfl
@[simp] theorem hostRest_wlen (s : State) :
    (hostRest s).wlen = s.wlen := rfl
@[simp] theorem hostRest_wlenraw (s : State) :
    (hostRest s).wlenraw = s.wlenraw := rfl
@[simp] theorem hostRest_din (s : State) :
    (hostRest s).din = s.din := rfl
@[simp] theorem hostRest_rsp (s : State) :
    (hostRest s).rsp = s.rsp := rfl
@[simp] theorem hostRest_host (s : State) :
    (hostRest s).host = s.host.tail := rfl

end Sys2Proof.Machine
end

