-- ==== Sys2Proof/Laws/Access.lean ====
section
/-! SUPPORT. Entry reads after entry writes for each memory of HTB, and the two index lists. -/

namespace Sys2Proof.Machine

theorem sym_toNat_inj {a b : Sym} : a.toNat = b.toNat ↔ a = b := BitVec.toNat_inj

/-! ### Reads after writes -/

theorem freqAt_setFreq (s : State) (b : Sym) (c : Count) (x : Sym) :
    freqAt (setFreq s b c) x = if x = b then c else freqAt s x := by
  simp [freqAt, Memory.read_write, BitVec.toNat_inj]

theorem nodeAt_setNode (s : State) (i : NodeIdx) (n : Node) (x : NodeIdx) :
    nodeAt (setNode s i n) x = if x = i then n else nodeAt s x := by
  simp [nodeAt, Memory.read_write, BitVec.toNat_inj]

theorem codeAt_setCode (s : State) (b : Sym) (e : CodeEntry) (x : Sym) :
    codeAt (setCode s b e) x = if x = b then e else codeAt s x := by
  simp [codeAt, Memory.read_write, BitVec.toNat_inj]

theorem candAt_setCand (s : State) (i : NodeIdx) (v : Bool) (x : NodeIdx) :
    candAt (setCand s i v) x = if x = i then v else candAt s x := by
  simp [candAt, Memory.read_write, BitVec.toNat_inj]

theorem stkAt_setStk (s : State) (j : Nat) (e : StkEntry) (x : Nat) :
    stkAt (setStk s j e) x = if x = j then e else stkAt s x := by
  simp [stkAt, Memory.read_write]

theorem codeAt_emit (s : State) (n : Node) (d : Len) (p : Path) (x : Sym) :
    codeAt (emit s n d p) x = if x = n.sym then leafCode d p else codeAt s x := by
  simp [codeAt, Memory.read_write, BitVec.toNat_inj]

/-! ### Reads depend on their memory alone -/

theorem freqAt_congr {s t : State} (h : t.freq = s.freq) (b : Sym) : freqAt t b = freqAt s b := by
  simp [freqAt, h]

theorem nodeAt_congr {s t : State} (h : t.node = s.node) (i : NodeIdx) :
    nodeAt t i = nodeAt s i := by simp [nodeAt, h]

theorem codeAt_congr {s t : State} (h : t.code = s.code) (b : Sym) : codeAt t b = codeAt s b := by
  simp [codeAt, h]

theorem candAt_congr {s t : State} (h : t.cand = s.cand) (i : NodeIdx) :
    candAt t i = candAt s i := by simp [candAt, h]

theorem stkAt_congr {s t : State} (h : t.stk = s.stk) (j : Nat) : stkAt t j = stkAt s j := by
  simp [stkAt, h]

/-! ### The index lists -/

theorem allSyms_nodup : allSyms.Nodup :=
  List.Nodup.map_on (fun a ha b hb h => by
    have h' := congrArg BitVec.toNat h
    simp only [List.mem_range, Config.NSYM] at ha hb
    simp only [BitVec.toNat_ofNat, Config.SYMW, Nat.reducePow] at h'
    omega) List.nodup_range

theorem mem_allSyms (b : Sym) : b ∈ allSyms :=
  List.mem_map.2 ⟨b.toNat, List.mem_range.2 b.isLt, by simp⟩

theorem allSyms_length : allSyms.length = 256 := by simp [allSyms]

theorem allNodes_nodup : allNodes.Nodup :=
  List.Nodup.map_on (fun a ha b hb h => by
    have h' := congrArg BitVec.toNat h
    simp only [List.mem_range, Config.NNODE] at ha hb
    simp only [BitVec.toNat_ofNat, Config.IDXW, Nat.reducePow] at h'
    omega) List.nodup_range

theorem mem_allNodes {i : NodeIdx} : i ∈ allNodes ↔ i.toNat < 511 := by
  constructor
  · intro h
    obtain ⟨a, ha, rfl⟩ := List.mem_map.1 h
    simp only [List.mem_range, Config.NNODE] at ha
    simp only [BitVec.toNat_ofNat, Config.IDXW, Nat.reducePow]
    omega
  · intro h
    exact List.mem_map.2 ⟨i.toNat, List.mem_range.2 h, by simp⟩

theorem mem_candidates {s : State} {i : NodeIdx} :
    i ∈ candidates s ↔ i.toNat < 511 ∧ candAt s i = true := by
  simp [candidates, mem_allNodes]

theorem candidates_nodup (s : State) : (candidates s).Nodup := allNodes_nodup.filter _

theorem mem_presentSyms {s : State} {b : Sym} : b ∈ presentSyms s ↔ freqAt s b ≠ 0 := by
  simp [presentSyms, mem_allSyms]

theorem presentSyms_nodup (s : State) : (presentSyms s).Nodup := allSyms_nodup.filter _

theorem presentCount_le (s : State) : presentCount s ≤ 256 := by
  have := List.length_filter_le (fun b => decide (freqAt s b ≠ 0)) allSyms
  rw [allSyms_length] at this
  exact this

end Sys2Proof.Machine
end

