-- ==== Sys2Proof/Laws/Encoding.lean ====
section
/-! SUPPORT. Decoding and encoding in terms of the number a word is (spec/30_encoding.md rules R63 to
R74). -/

namespace Sys2Proof

theorem opField_toNat (w : Cmd) : (opField w).toNat = w.toNat / 4096 := by
  have := w.isLt
  simp only [opField, BitVec.extractLsb'_toNat, Nat.shiftRight_eq_div_pow, Config.CMDW] at *
  omega

theorem argField_toNat (w : Cmd) : (argField w).toNat = w.toNat % 4096 := by
  simp only [argField, BitVec.extractLsb'_toNat, Nat.shiftRight_zero]

theorem argZero_iff (w : Cmd) : (argField w == 0) = decide (w.toNat % 4096 = 0) := by
  rw [Bool.eq_iff_iff]
  simp only [beq_iff_eq, decide_eq_true_eq, ← BitVec.toNat_inj, argField_toNat]
  rfl

theorem argHigh_iff (w : Cmd) (k m : Nat) (hkm : k + m = 12) :
    ((argField w).extractLsb' k m == 0) = decide (w.toNat % 4096 < 2 ^ k) := by
  rw [Bool.eq_iff_iff]
  simp only [beq_iff_eq, decide_eq_true_eq, ← BitVec.toNat_inj, BitVec.extractLsb'_toNat,
    argField_toNat, Nat.shiftRight_eq_div_pow]
  have hlt : w.toNat % 4096 / 2 ^ k < 2 ^ m := by
    apply Nat.div_lt_of_lt_mul
    rw [← Nat.pow_add, hkm]
    exact Nat.mod_lt _ (by norm_num)
  rw [Nat.mod_eq_of_lt hlt, show (0 : BitVec m).toNat = 0 by simp, Nat.div_eq_zero_iff]
  have : 2 ^ k ≠ 0 := by positivity
  omega

theorem symField_eq (w : Cmd) : symField w = BitVec.ofNat 8 w.toNat := by
  apply BitVec.eq_of_toNat_eq
  simp [symField, BitVec.extractLsb'_toNat]

theorem idxField_eq (w : Cmd) : idxField w = BitVec.ofNat 9 w.toNat := by
  apply BitVec.eq_of_toNat_eq
  simp [idxField, BitVec.extractLsb'_toNat]

theorem selField_eq (w : Cmd) : selField w = BitVec.ofNat 1 w.toNat := by
  apply BitVec.eq_of_toNat_eq
  simp [selField, BitVec.extractLsb'_toNat]

/-- Decoding by the opcode and the number in the argument field (R74). -/
theorem decode_eq (w : Cmd) : decode w =
    match w.toNat / 4096 with
    | 0 => guardBits (decide (w.toNat % 4096 = 0)) .nop
    | 1 => guardBits (decide (w.toNat % 4096 = 0)) .clr
    | 2 => guardBits (decide (w.toNat % 4096 < 256)) (.wrf (BitVec.ofNat 8 w.toNat))
    | 3 => guardBits (decide (w.toNat % 4096 < 256)) (.rdf (BitVec.ofNat 8 w.toNat))
    | 4 => guardBits (decide (w.toNat % 4096 = 0)) .build
    | 5 => guardBits (decide (w.toNat % 4096 = 0)) .assign
    | 6 => guardBits (decide (w.toNat % 4096 < 512)) (.rdn (BitVec.ofNat 9 w.toNat))
    | 7 => guardBits (decide (w.toNat % 4096 < 256)) (.rdc (BitVec.ofNat 8 w.toNat))
    | 8 => guardBits (decide (w.toNat % 4096 = 0)) .rds
    | 9 => guardBits (decide (w.toNat % 4096 < 2)) (.rdw (BitVec.ofNat 1 w.toNat))
    | _ => .reservedOpcode := by
  unfold decode
  simp only [opField_toNat, argZero_iff, argHigh_iff w 8 4 rfl, argHigh_iff w 9 3 rfl,
    argHigh_iff w 1 11 rfl, symField_eq, idxField_eq, selField_eq]
  rfl

theorem guardBits_command {z : Bool} {i j : Instr} :
    guardBits z i = .command j ↔ z = true ∧ i = j := by
  cases z <;> simp [guardBits]

theorem guardBits_bits {z : Bool} {i : Instr} : guardBits z i = .reservedBits ↔ z = false := by
  cases z <;> simp [guardBits]

theorem guardBits_opcode {z : Bool} {i : Instr} : guardBits z i ≠ .reservedOpcode := by
  cases z <;> simp [guardBits]

/-- The opcode is one of sixteen, and the word is its opcode and its argument. -/
theorem word_split (w : Cmd) : w.toNat / 4096 < 16 ∧
    w.toNat = 4096 * (w.toNat / 4096) + w.toNat % 4096 := by
  have := w.isLt
  simp only [Config.CMDW] at this
  omega

/-- Being a command, as the well-formedness of the word (R70, R71). -/
theorem decode_command_iff (w : Cmd) :
    (∃ i, decode w = .command i) ↔ wellFormedWord w = true := by
  obtain ⟨h, -⟩ := word_split w
  rw [decode_eq]
  unfold wellFormedWord
  generalize w.toNat / 4096 = op at *
  interval_cases op <;>
    simp [opcodeFormat, Format.operandBits, guardBits_command] <;>
    exact decide_eq_true_iff.symm

theorem decode_reservedOpcode_iff (w : Cmd) : decode w = .reservedOpcode ↔ 10 ≤ w.toNat / 4096 := by
  obtain ⟨h, -⟩ := word_split w
  rw [decode_eq]
  generalize w.toNat / 4096 = op at *
  interval_cases op <;> simp [guardBits_opcode]

theorem encode_toNat (i : Instr) : (encode i).toNat =
    match i with
    | .nop => 0
    | .clr => 4096
    | .wrf b => 2 * 4096 + b.toNat
    | .rdf b => 3 * 4096 + b.toNat
    | .build => 4 * 4096
    | .assign => 5 * 4096
    | .rdn n => 6 * 4096 + n.toNat
    | .rdc b => 7 * 4096 + b.toNat
    | .rds => 8 * 4096
    | .rdw x => 9 * 4096 + x.toNat := by
  cases i with
  | nop => rfl
  | clr => rfl
  | build => rfl
  | assign => rfl
  | rds => rfl
  | wrf b | rdf b | rdc b =>
    have := b.isLt
    simp only [Config.SYMW] at this
    simp only [encode, BitVec.toNat_add, BitVec.toNat_setWidth, BitVec.toNat_ofNat, Config.CMDW]
    omega
  | rdn n =>
    have := n.isLt
    simp only [Config.IDXW] at this
    simp only [encode, BitVec.toNat_add, BitVec.toNat_setWidth, BitVec.toNat_ofNat, Config.CMDW]
    omega
  | rdw x =>
    have := x.isLt
    simp only [encode, BitVec.toNat_add, BitVec.toNat_setWidth, BitVec.toNat_ofNat, Config.CMDW]
    omega

end Sys2Proof
end

