-- ==== Sys2Proof/Laws/Build.lean ====
section
/-! SUPPORT. What BUILD does (spec/41_tree_build.md): one lemma for each procedure it calls, and the
invariant of its merge loop. -/

namespace Sys2Proof.Machine

/-! ### Frames -/

/-- Only NODE, CAND, NEXT, NLEAF, M1 and M2 differ. -/
structure OnlyTree (s t : State) : Prop where
  freq : t.freq = s.freq
  code : t.code = s.code
  stk : t.stk = s.stk
  root : t.root = s.root
  built : t.built = s.built
  codev : t.codev = s.codev
  empty : t.empty = s.empty
  single : t.single = s.single
  err : t.err = s.err
  errcode : t.errcode = s.errcode
  ph : t.ph = s.ph
  ix : t.ix = s.ix
  sp : t.sp = s.sp
  wlen : t.wlen = s.wlen
  wlenraw : t.wlenraw = s.wlenraw
  din : t.din = s.din
  rsp : t.rsp = s.rsp
  host : t.host = s.host

theorem OnlyTree.refl (s : State) : OnlyTree s s := by constructor <;> rfl

theorem OnlyTree.trans {s t u : State} (h : OnlyTree s t) (h' : OnlyTree t u) : OnlyTree s u :=
  ⟨h'.freq.trans h.freq,
    h'.code.trans h.code,
    h'.stk.trans h.stk,
    h'.root.trans h.root,
    h'.built.trans h.built,
    h'.codev.trans h.codev,
    h'.empty.trans h.empty,
    h'.single.trans h.single,
    h'.err.trans h.err,
    h'.errcode.trans h.errcode,
    h'.ph.trans h.ph,
    h'.ix.trans h.ix,
    h'.sp.trans h.sp,
    h'.wlen.trans h.wlen,
    h'.wlenraw.trans h.wlenraw,
    h'.din.trans h.din,
    h'.rsp.trans h.rsp,
    h'.host.trans h.host⟩

theorem leafStep_absent {s : State} {b : Sym} (h : freqAt s b = 0) : leafStep s b = s := by
  rw [leafStep, if_pos h]

theorem leafStep_present {s : State} {b : Sym} (h : freqAt s b ≠ 0) :
    leafStep s b = { setCand (setNode s s.next (leafNode s b)) s.next true with
      next := s.next + 1, nleaf := s.nleaf + 1 } := by
  rw [leafStep, if_neg h]

theorem leafStep_only (s : State) (b : Sym) : OnlyTree s (leafStep s b) := by
  by_cases h : freqAt s b = 0
  · rw [leafStep_absent h]; exact OnlyTree.refl s
  · rw [leafStep_present h]; constructor <;> rfl

/-- The state of a merge round between its two extractions (R91). -/
def firstExtracted (s : State) : State :=
  { setCand s (leastCandidate s) false with m1 := leastCandidate s }

/-- The state of a merge round after its two extractions (R91). -/
def bothExtracted (s : State) : State :=
  { setCand (firstExtracted s) (leastCandidate (firstExtracted s)) false with
    m2 := leastCandidate (firstExtracted s) }

theorem mergeRound_eq (s : State) :
    mergeRound s = { setCand (setNode (bothExtracted s) s.next
        (mergedNode (bothExtracted s) (leastCandidate s) (leastCandidate (firstExtracted s))))
        s.next true with next := s.next + 1 } := by
  with_unfolding_all rfl

theorem firstExtracted_only (s : State) : OnlyTree s (firstExtracted s) := by
  unfold firstExtracted
  constructor <;> rfl

theorem bothExtracted_only (s : State) : OnlyTree s (bothExtracted s) := by
  refine (firstExtracted_only s).trans ?_
  unfold bothExtracted
  generalize firstExtracted s = u
  constructor <;> rfl

theorem mergeRound_only (s : State) : OnlyTree s (mergeRound s) := by
  rw [mergeRound_eq]
  refine (bothExtracted_only s).trans ?_
  generalize bothExtracted s = u
  constructor <;> rfl

theorem makeLeaves_only (s : State) : OnlyTree s (makeLeaves s) := by
  unfold makeLeaves
  induction allSyms generalizing s with
  | nil => exact OnlyTree.refl s
  | cons b l ih => exact (leafStep_only s b).trans (ih _)

theorem mergeAll_only (fuel : Nat) (s : State) : OnlyTree s (mergeAll fuel s) := by
  induction fuel generalizing s with
  | zero => exact OnlyTree.refl s
  | succ n ih =>
    unfold mergeAll
    split
    · exact (mergeRound_only s).trans (ih _)
    · exact OnlyTree.refl s

theorem mergeIfTwo_only (s : State) : OnlyTree s (mergeIfTwo s) := by
  unfold mergeIfTwo
  split
  · exact mergeAll_only _ s
  · exact OnlyTree.refl s

/-- What `BUILD` leaves alone (R111). -/
structure BuildKeeps (s t : State) : Prop where
  freq : t.freq = s.freq
  code : t.code = s.code
  stk : t.stk = s.stk
  codev : t.codev = s.codev
  err : t.err = s.err
  errcode : t.errcode = s.errcode
  sp : t.sp = s.sp
  wlen : t.wlen = s.wlen
  wlenraw : t.wlenraw = s.wlenraw
  din : t.din = s.din
  rsp : t.rsp = s.rsp
  host : t.host = s.host

theorem buildState_keeps (s : State) : BuildKeeps s (buildState s) := by
  have h := (makeLeaves_only (clearBuild s)).trans (mergeIfTwo_only _)
  unfold buildState
  generalize mergeIfTwo (makeLeaves (clearBuild s)) = v at h ⊢
  exact ⟨h.freq, h.code, h.stk, h.codev, h.err, h.errcode, h.sp, h.wlen, h.wlenraw, h.din, h.rsp, h.host⟩

/-! ### Leaves (R88) -/

/-- The state of the leaf loop after it has made a leaf for each byte of `ps`. -/
structure LeavesMade (s0 s : State) (ps : List Sym) : Prop where
  only : OnlyTree s0 s
  next : s.next.toNat = ps.length
  nleaf : s.nleaf = s.next
  leaf : ∀ j (h : j < ps.length), nodeAt s (BitVec.ofNat 9 j) = leafNode s0 ps[j]
  cand : ∀ i : NodeIdx, candAt s i = decide (i.toNat < ps.length)
  rest : ∀ i : NodeIdx, ps.length ≤ i.toNat → nodeAt s i = nodeAt s0 i

theorem leafNode_congr {s t : State} (h : t.freq = s.freq) (b : Sym) :
    leafNode t b = leafNode s b := by simp [leafNode, freqAt_congr h]

theorem LeavesMade.step {s0 s : State} {ps : List Sym} (h : LeavesMade s0 s ps) {b : Sym}
    (hb : freqAt s0 b ≠ 0) (hlen : ps.length < 511) : LeavesMade s0 (leafStep s b) (ps ++ [b]) := by
  have hf : s.freq = s0.freq := h.only.freq
  have hb' : ¬ freqAt s b = 0 := by rwa [freqAt_congr hf]
  have hn := h.next
  have hnext : (s.next + 1).toNat = ps.length + 1 := by
    rw [BitVec.toNat_add, hn]; simp; omega
  have hnode : ∀ i, nodeAt (leafStep s b) i = if i = s.next then leafNode s b else nodeAt s i := by
    intro i
    rw [← nodeAt_setNode]
    rw [leafStep_present hb']; rfl
  have hcand : ∀ i, candAt (leafStep s b) i = if i = s.next then true else candAt s i := by
    intro i
    rw [← candAt_setCand]
    rw [leafStep_present hb']; rfl
  have hnx : (leafStep s b).next = s.next + 1 := by rw [leafStep_present hb']
  have hnl : (leafStep s b).nleaf = s.nleaf + 1 := by rw [leafStep_present hb']
  refine ⟨h.only.trans (leafStep_only s b), ?_, ?_, ?_, ?_, ?_⟩
  · rw [hnx, hnext]; simp
  · rw [hnl, hnx, h.nleaf]
  · intro j hj
    rw [hnode]
    by_cases hjn : j = ps.length
    · subst hjn
      have : (BitVec.ofNat 9 ps.length) = s.next := by
        apply BitVec.eq_of_toNat_eq; rw [hn, BitVec.toNat_ofNat]; simp; omega
      rw [if_pos this, leafNode_congr hf]; simp
    · have hj' : j < ps.length := by simp at hj; omega
      have : (BitVec.ofNat 9 j) ≠ s.next := by
        intro e
        have := congrArg BitVec.toNat e
        rw [hn, BitVec.toNat_ofNat] at this; simp at this; omega
      rw [if_neg this, h.leaf j hj', List.getElem_append_left hj']
  · intro i
    rw [hcand, h.cand]
    by_cases hi : i = s.next
    · subst hi; simp [hn]
    · have : i.toNat ≠ ps.length := fun e => hi (BitVec.eq_of_toNat_eq (by rw [e, hn]))
      simp only [hi, if_false, List.length_append, List.length_singleton]
      congr 1
      simp only [eq_iff_iff]; omega
  · intro i hi
    simp only [List.length_append, List.length_singleton] at hi
    have : i ≠ s.next := by intro e; rw [e, hn] at hi; omega
    rw [hnode, if_neg this]
    exact h.rest i (by omega)

theorem leavesMade_fold {s0 : State} (l : List Sym) {s : State} {ps : List Sym}
    (h : LeavesMade s0 s ps) (hlen : ps.length + l.length ≤ 511) :
    LeavesMade s0 (l.foldl leafStep s) (ps ++ l.filter fun b => freqAt s0 b ≠ 0) := by
  induction l generalizing s ps with
  | nil => simpa using h
  | cons b l ih =>
    simp only [List.length_cons] at hlen
    by_cases hb : freqAt s0 b = 0
    · have : freqAt s b = 0 := by rw [freqAt_congr h.only.freq, hb]
      rw [List.foldl_cons, leafStep_absent this, List.filter_cons_of_neg (by simpa using hb)]
      exact ih h (by omega)
    · have := ih (h.step hb (by omega)) (by simp; omega)
      rw [List.filter_cons_of_pos (by simpa using hb), List.append_cons]
      exact this

/-- After `make_leaves()` there is one leaf for each present byte, in ascending order, each a
candidate, and nothing else is (R88). -/
theorem makeLeaves_spec (s : State) :
    LeavesMade (clearBuild s) (makeLeaves (clearBuild s)) (presentSyms s) := by
  have h0 : LeavesMade (clearBuild s) (clearBuild s) [] :=
    ⟨OnlyTree.refl _, rfl, rfl, by simp, by intro i; simp [candAt, candFill], by simp⟩
  exact leavesMade_fold allSyms h0 (by rw [allSyms_length]; simp)

/-! ### Selection (R92) -/

theorem leastBy_none {k : NodeIdx → BitVec (Config.WW + Config.IDXW)} {l : List NodeIdx}
    (h : leastBy k l = none) : l = [] := by
  cases l with
  | nil => rfl
  | cons i l =>
    simp only [leastBy] at h
    split at h
    · simp at h
    · split at h <;> simp at h

theorem leastBy_some {k : NodeIdx → BitVec (Config.WW + Config.IDXW)} {l : List NodeIdx}
    {m : NodeIdx} (h : leastBy k l = some m) : m ∈ l ∧ ∀ j ∈ l, (k m).toNat ≤ (k j).toNat := by
  induction l generalizing m with
  | nil => simp [leastBy] at h
  | cons i l ih =>
    simp only [leastBy] at h
    split at h
    · rename_i hn
      have := leastBy_none hn
      subst this
      simp only [Option.some.injEq] at h
      subst h
      simp
    · rename_i j hj
      obtain ⟨hm, hle⟩ := ih hj
      split at h <;> rename_i hlt <;> simp only [Option.some.injEq] at h <;> subst h
      · refine ⟨List.mem_cons_of_mem _ hm, fun x hx => ?_⟩
        rcases List.mem_cons.1 hx with rfl | hx
        · exact Nat.le_of_lt (BitVec.lt_def.1 hlt)
        · exact hle x hx
      · refine ⟨by simp, fun x hx => ?_⟩
        rcases List.mem_cons.1 hx with rfl | hx
        · exact Nat.le_refl _
        · have h1 := hle x hx
          have h2 : ¬ (k j).toNat < (k i).toNat := fun h => hlt (BitVec.lt_def.2 h)
          omega

/-- The key as a number: the weight above, the inverted index below (R92). -/
theorem key_toNat (s : State) (i : NodeIdx) :
    (key s i).toNat = (nodeAt s i).weight.toNat * 512 + (511 - i.toNat) := by
  have hi := i.isLt
  simp only [Config.IDXW] at hi
  unfold key
  rw [BitVec.toNat_append, BitVec.toNat_not]
  rw [← Nat.shiftLeft_add_eq_or_of_lt (by simp only [Config.IDXW]; omega), Nat.shiftLeft_eq]
  simp only [Config.IDXW]

/-- `extract_min()` picks a candidate of least weight and, among those, the highest index (R92). -/
theorem leastCandidate_spec {s : State} (h : candidates s ≠ []) :
    leastCandidate s ∈ candidates s ∧ ∀ j ∈ candidates s,
      (nodeAt s (leastCandidate s)).weight.toNat < (nodeAt s j).weight.toNat ∨
      ((nodeAt s (leastCandidate s)).weight.toNat = (nodeAt s j).weight.toNat ∧
        j.toNat ≤ (leastCandidate s).toNat) := by
  unfold leastCandidate
  cases hm : leastBy (key s) (candidates s) with
  | none => exact absurd (leastBy_none hm) h
  | some m =>
    obtain ⟨h1, h2⟩ := leastBy_some hm
    refine ⟨h1, fun j hj => ?_⟩
    have := h2 j hj
    rw [key_toNat, key_toNat] at this
    have hj9 := j.isLt
    have hm9 := m.isLt
    simp only [Config.IDXW] at hj9 hm9
    simp only [Option.getD_some]
    omega

end Sys2Proof.Machine
end

