-- ==== Sys2Proof/Laws/Merge.lean ====
section
/-! SUPPORT. The invariant of BUILD's merge loop (spec/41_tree_build.md rules R91 to R94) and what it
says of the finished tree (rules R104, R105, R110). -/

namespace Sys2Proof.Machine

/-- `j` is a child of the internal node `i`. -/
def IsChild (s : State) (i j : NodeIdx) : Prop :=
  (nodeAt s i).kind = .internal ∧ ((nodeAt s i).left = j ∨ (nodeAt s i).right = j)

/-- The weight of node `i` as a number. -/
def weightAt (s : State) (i : NodeIdx) : Nat := (nodeAt s i).weight.toNat

/-- What holds of an internal node (R91, R93, R105, R110). -/
structure InnerNode (s : State) (i : NodeIdx) : Prop where
  kind : (nodeAt s i).kind = .internal
  sym : (nodeAt s i).sym = 0
  left_lt : (nodeAt s i).left.toNat < i.toNat
  right_lt : (nodeAt s i).right.toNat < i.toNat
  weight : weightAt s i = weightAt s (nodeAt s i).left + weightAt s (nodeAt s i).right
  order : weightAt s (nodeAt s i).left < weightAt s (nodeAt s i).right ∨
    (weightAt s (nodeAt s i).left = weightAt s (nodeAt s i).right ∧
      (nodeAt s i).right.toNat < (nodeAt s i).left.toNat)

theorem InnerNode.left_ne_right {s : State} {i : NodeIdx} (h : InnerNode s i) :
    (nodeAt s i).left ≠ (nodeAt s i).right := by
  intro e
  have := h.order
  rw [e] at this
  omega

/-- The sum of the weights of a tree's internal nodes. -/
def HTree.innerSum : HTree → Nat
  | .leaf _ _ => 0
  | .internal w l r => w.toNat + l.innerSum + r.innerSum

/-- The sum of the weights of the internal nodes from index `k` up to `k + n`. -/
def innerTotal (s : State) (k n : Nat) : Nat :=
  ((List.range n).map fun r => weightAt s (BitVec.ofNat 9 (k + r))).sum

/-- The weights of a list of leaves, added. -/
def leafTotal (L : List (Sym × Weight)) : Nat := (L.map fun p => p.2.toNat).sum

/-- The invariant of the merge loop, for the leaves `L` in index order. -/
structure MergeInv (L : List (Sym × Weight)) (s : State) : Prop where
  small : L.length ≤ 256
  total : leafTotal L < 2 ^ 40
  nleaf : s.nleaf.toNat = L.length
  count : s.next.toNat + candCount s = 2 * L.length
  ge : L.length ≤ s.next.toNat
  candlt : ∀ i, candAt s i = true → i.toNat < s.next.toNat
  leaf : ∀ j (h : j < L.length), nodeAt s (BitVec.ofNat 9 j) = ⟨.leaf, L[j].2, L[j].1, 0, 0⟩
  inner : ∀ i : NodeIdx, L.length ≤ i.toNat → i.toNat < s.next.toNat → InnerNode s i
  parent : ∀ j : NodeIdx, j.toNat < s.next.toNat → candAt s j = false →
    ∃! i : NodeIdx, i.toNat < s.next.toNat ∧ IsChild s i j
  orphan : ∀ j, candAt s j = true → ∀ i : NodeIdx, i.toNat < s.next.toNat → ¬ IsChild s i j
  forest : ∃ P : List (NodeIdx × HTree), (P.map Prod.fst).Perm (candidates s) ∧
    (∀ p ∈ P, TreeAt s p.1 p.2) ∧ (P.flatMap fun p => p.2.leaves).Perm L ∧
    (P.map fun p => p.2.innerSum).sum = innerTotal s L.length (s.next.toNat - L.length)
  rising : ∀ i j : NodeIdx, L.length ≤ i.toNat → i.toNat ≤ j.toNat → j.toNat < s.next.toNat →
    weightAt s i ≤ weightAt s j
  ahead : ∀ i a b : NodeIdx, L.length ≤ i.toNat → i.toNat < s.next.toNat → candAt s a = true →
    candAt s b = true → a ≠ b → weightAt s i ≤ weightAt s a + weightAt s b

theorem MergeInv.leafAt {L : List (Sym × Weight)} {s : State} (h : MergeInv L s) {i : NodeIdx}
    (hi : i.toNat < L.length) : nodeAt s i = ⟨.leaf, L[i.toNat].2, L[i.toNat].1, 0, 0⟩ := by
  rw [← h.leaf i.toNat hi]; simp

/-- The children of an internal node in use are in use. -/
theorem MergeInv.children {L : List (Sym × Weight)} {s : State} (h : MergeInv L s) {i : NodeIdx}
    (hi : i.toNat < s.next.toNat) (hk : (nodeAt s i).kind = .internal) : InnerNode s i := by
  by_cases hl : i.toNat < L.length
  · rw [h.leafAt hl] at hk; simp at hk
  · exact h.inner i (by omega) hi

/-- A tree read off NODE does not change when only entries above its index do. -/
theorem treeAt_congr {s t : State} {N : Nat} (hc : ∀ i : NodeIdx, i.toNat < N →
    (nodeAt s i).kind = .internal → (nodeAt s i).left.toNat < N ∧ (nodeAt s i).right.toNat < N)
    (hn : ∀ i : NodeIdx, i.toNat < N → nodeAt t i = nodeAt s i) {i : NodeIdx} {T : HTree}
    (h : TreeAt s i T) (hi : i.toNat < N) : TreeAt t i T := by
  induction h with
  | leaf h1 h2 => rw [← hn _ hi] at h2 ⊢; exact .leaf h1 h2
  | internal h1 h2 _ _ ihl ihr =>
    obtain ⟨c1, c2⟩ := hc _ hi h2
    have ihl := ihl c1
    have ihr := ihr c2
    rw [← hn _ hi] at h2 ihl ihr ⊢
    exact .internal h1 h2 ihl ihr

/-- A tree is read off NODE alone. -/
theorem TreeAt.of_node {s t : State} (h : t.node = s.node) {i : NodeIdx} {T : HTree}
    (hT : TreeAt s i T) : TreeAt t i T :=
  treeAt_congr (N := 512) (fun j _ _ => ⟨(nodeAt s j).left.isLt, (nodeAt s j).right.isLt⟩)
    (fun j _ => nodeAt_congr h j) hT i.isLt

theorem MergeInv.treeAt_weight {L : List (Sym × Weight)} {s : State} (h : MergeInv L s)
    {i : NodeIdx} {T : HTree} (hT : TreeAt s i T) (hi : i.toNat < s.next.toNat) :
    leafTotal T.leaves = weightAt s i := by
  induction hT with
  | leaf h1 h2 => simp [HTree.leaves, leafTotal, weightAt]
  | internal h1 h2 _ _ ihl ihr =>
    have hin := h.children hi h2
    rw [hin.weight, ← ihl (by have := hin.left_lt; omega), ← ihr (by have := hin.right_lt; omega)]
    simp [HTree.leaves, leafTotal]

theorem leafTotal_perm {L M : List (Sym × Weight)} (h : L.Perm M) : leafTotal L = leafTotal M :=
  (h.map _).sum_eq

theorem leafTotal_append (L M : List (Sym × Weight)) :
    leafTotal (L ++ M) = leafTotal L + leafTotal M := by simp [leafTotal]

/-- What a merge round does, when there are two candidates: the two extractions are the two least
candidates, and the new node is their parent. -/
structure RoundFacts (s : State) (m1 m2 : NodeIdx) : Prop where
  ne : m1 ≠ m2
  cand1 : candAt s m1 = true
  cand2 : candAt s m2 = true
  least1 : ∀ j, candAt s j = true → j.toNat < 511 → weightAt s m1 < weightAt s j ∨
    (weightAt s m1 = weightAt s j ∧ j.toNat ≤ m1.toNat)
  least2 : ∀ j, candAt s j = true → j.toNat < 511 → j ≠ m1 → weightAt s m2 < weightAt s j ∨
    (weightAt s m2 = weightAt s j ∧ j.toNat ≤ m2.toNat)
  lt1 : m1.toNat < 511
  lt2 : m2.toNat < 511

theorem candAt_firstExtracted (s : State) (j : NodeIdx) :
    candAt (firstExtracted s) j = if j = leastCandidate s then false else candAt s j := by
  unfold firstExtracted
  generalize leastCandidate s = m
  exact candAt_setCand s m false j

theorem nodeAt_firstExtracted (s : State) (j : NodeIdx) :
    nodeAt (firstExtracted s) j = nodeAt s j := rfl

theorem candAt_bothExtracted (s : State) (j : NodeIdx) :
    candAt (bothExtracted s) j =
      if j = leastCandidate (firstExtracted s) then false else candAt (firstExtracted s) j := by
  unfold bothExtracted
  generalize firstExtracted s = u
  generalize leastCandidate u = m
  exact candAt_setCand u m false j

theorem nodeAt_bothExtracted (s : State) (j : NodeIdx) :
    nodeAt (bothExtracted s) j = nodeAt s j := rfl

theorem nodeAt_mergeRound (s : State) (j : NodeIdx) :
    nodeAt (mergeRound s) j = if j = s.next then
      mergedNode s (leastCandidate s) (leastCandidate (firstExtracted s)) else nodeAt s j := by
  rw [mergeRound_eq]
  have h1 : ∀ m n, mergedNode (bothExtracted s) m n = mergedNode s m n := fun m n => by
    simp [mergedNode, nodeAt_bothExtracted]
  rw [h1]
  generalize hm : leastCandidate (firstExtracted s) = m
  have := nodeAt_setNode (bothExtracted s) s.next (mergedNode s (leastCandidate s) m) j
  rw [nodeAt_bothExtracted] at this
  exact this

theorem candAt_mergeRound (s : State) (j : NodeIdx) :
    candAt (mergeRound s) j = if j = s.next then true
      else if j = leastCandidate (firstExtracted s) then false
      else if j = leastCandidate s then false else candAt s j := by
  rw [mergeRound_eq]
  generalize mergedNode _ _ _ = n
  have h1 := candAt_setCand (setNode (bothExtracted s) s.next n) s.next true j
  have h2 : candAt (setNode (bothExtracted s) s.next n) j = candAt (bothExtracted s) j := rfl
  rw [h2, candAt_bothExtracted, candAt_firstExtracted] at h1
  exact h1

theorem next_mergeRound (s : State) : (mergeRound s).next = s.next + 1 := by rw [mergeRound_eq]

theorem nleaf_mergeRound (s : State) : (mergeRound s).nleaf = s.nleaf := by rw [mergeRound_eq]; rfl

/-- M1 is the first extraction (R99). -/
theorem m1_mergeRound (s : State) : (mergeRound s).m1 = leastCandidate s := by
  have h1 : (firstExtracted s).m1 = leastCandidate s := by
    unfold firstExtracted
    generalize leastCandidate s = m
    rfl
  have h2 : (bothExtracted s).m1 = (firstExtracted s).m1 := by
    unfold bothExtracted
    generalize firstExtracted s = u
    generalize leastCandidate u = m
    rfl
  rw [← h1, ← h2, mergeRound_eq]
  generalize mergedNode _ _ _ = n
  generalize bothExtracted s = u
  rfl

/-- M2 is the second extraction (R99). -/
theorem m2_mergeRound (s : State) : (mergeRound s).m2 = leastCandidate (firstExtracted s) := by
  have h2 : (bothExtracted s).m2 = leastCandidate (firstExtracted s) := by
    unfold bothExtracted
    generalize firstExtracted s = u
    generalize leastCandidate u = m
    rfl
  rw [← h2, mergeRound_eq]
  generalize mergedNode _ _ _ = n
  generalize bothExtracted s = u
  rfl

theorem roundFacts {s : State} (h : 2 ≤ candCount s) :
    RoundFacts s (leastCandidate s) (leastCandidate (firstExtracted s)) := by
  have hne : candidates s ≠ [] := by
    intro e; rw [candCount, e] at h; simp at h
  obtain ⟨hm, hl⟩ := leastCandidate_spec hne
  have hm' := mem_candidates.1 hm
  have hne1 : candidates (firstExtracted s) ≠ [] := by
    obtain ⟨j, hj, hjm⟩ : ∃ j ∈ candidates s, j ≠ leastCandidate s := by
      by_contra hcon
      push Not at hcon
      have hsub : candidates s ⊆ [leastCandidate s] := fun j hj => by simp [hcon j hj]
      have := (List.subperm_of_subset (candidates_nodup s) hsub).length_le
      rw [candCount] at h
      simp at this
      omega
    have hj' := mem_candidates.1 hj
    have : j ∈ candidates (firstExtracted s) := by
      rw [mem_candidates, candAt_firstExtracted, if_neg hjm]; exact hj'
    exact List.ne_nil_of_mem this
  obtain ⟨hm2, hl2⟩ := leastCandidate_spec hne1
  have hm2' := mem_candidates.1 hm2
  rw [candAt_firstExtracted] at hm2'
  have hne12 : leastCandidate (firstExtracted s) ≠ leastCandidate s := by
    intro e; rw [if_pos e] at hm2'; simp at hm2'
  rw [if_neg hne12] at hm2'
  refine ⟨hne12.symm, hm'.2, hm2'.2, ?_, ?_, hm'.1, hm2'.1⟩
  · intro j hj hj'
    exact hl j (mem_candidates.2 ⟨hj', hj⟩)
  · intro j hj hj' hjm
    have := hl2 j (mem_candidates.2 ⟨hj', by rw [candAt_firstExtracted, if_neg hjm]; exact hj⟩)
    exact this

end Sys2Proof.Machine
end

