-- ==== Sys2Proof/Laws/MergeStep.lean ====
section
/-! SUPPORT. A merge round keeps the invariant of the merge loop, and the loop ends with one
candidate (spec/41_tree_build.md rules R91 to R95, R104). -/

namespace Sys2Proof.Machine

/-- The candidates other than two given ones. -/
def others (s : State) (m1 m2 : NodeIdx) : List NodeIdx :=
  (candidates s).filter fun j => j ≠ m1 ∧ j ≠ m2

theorem mem_others {s : State} {m1 m2 j : NodeIdx} :
    j ∈ others s m1 m2 ↔ (j.toNat < 511 ∧ candAt s j = true) ∧ j ≠ m1 ∧ j ≠ m2 := by
  simp [others, mem_candidates]

theorem candidates_split {s : State} {m1 m2 : NodeIdx} (h : RoundFacts s m1 m2) :
    (candidates s).Perm (m1 :: m2 :: others s m1 m2) := by
  refine (List.perm_ext_iff_of_nodup (candidates_nodup s) ?_).2 fun j => ?_
  · refine List.nodup_cons.2 ⟨?_, List.nodup_cons.2 ⟨?_, (candidates_nodup s).filter _⟩⟩
    · simp [mem_others, h.ne]
    · simp [mem_others]
  · simp only [List.mem_cons, mem_others, mem_candidates]
    constructor
    · intro hj
      by_cases h1 : j = m1
      · exact .inl h1
      · by_cases h2 : j = m2
        · exact .inr (.inl h2)
        · exact .inr (.inr ⟨hj, h1, h2⟩)
    · rintro (rfl | rfl | hj)
      · exact ⟨h.lt1, h.cand1⟩
      · exact ⟨h.lt2, h.cand2⟩
      · exact hj.1

section Round

variable {L : List (Sym × Weight)} {s : State}

theorem MergeInv.next_lt (h : MergeInv L s) (hc : 2 ≤ candCount s) : s.next.toNat < 511 := by
  have := h.count; have := h.small; omega

theorem MergeInv.next_succ (h : MergeInv L s) (hc : 2 ≤ candCount s) :
    (mergeRound s).next.toNat = s.next.toNat + 1 := by
  have := h.next_lt hc
  rw [next_mergeRound, BitVec.toNat_add]
  show (s.next.toNat + 1) % 512 = s.next.toNat + 1
  omega

theorem MergeInv.ne_next (h : MergeInv L s) {j : NodeIdx} (hj : candAt s j = true) :
    j ≠ s.next := by
  intro e; subst e; exact Nat.lt_irrefl _ (h.candlt _ hj)

theorem MergeInv.cand_next (h : MergeInv L s) : candAt s s.next = false := by
  by_contra hc
  exact h.ne_next (by simpa using hc) rfl

theorem MergeInv.candidates_round (h : MergeInv L s) (hc : 2 ≤ candCount s) :
    (candidates (mergeRound s)).Perm
      (s.next :: others s (leastCandidate s) (leastCandidate (firstExtracted s))) := by
  refine (List.perm_ext_iff_of_nodup (candidates_nodup _) ?_).2 fun j => ?_
  · refine List.nodup_cons.2 ⟨?_, (candidates_nodup s).filter _⟩
    rw [mem_others, h.cand_next]
    simp
  · rw [List.mem_cons, mem_others, mem_candidates, candAt_mergeRound]
    by_cases h1 : j = s.next
    · have := h.next_lt hc
      simp [h1, this]
    · by_cases h2 : j = leastCandidate (firstExtracted s)
      · simp [h2]
        intro e; exact absurd (h2.trans e) h1
      · by_cases h3 : j = leastCandidate s
        · simp [h3]
          intro e; exact absurd (h3.trans e) h1
        · simp [h1, h2, h3]

theorem MergeInv.candCount_round (h : MergeInv L s) (hc : 2 ≤ candCount s) :
    candCount (mergeRound s) + 1 = candCount s := by
  have h1 := (h.candidates_round hc).length_eq
  have h2 := (candidates_split (roundFacts hc)).length_eq
  simp only [List.length_cons] at h1 h2
  simp only [candCount]
  omega

theorem leafTotal_flatMap (P : List (NodeIdx × HTree)) :
    leafTotal (P.flatMap fun p => p.2.leaves) = (P.map fun p => leafTotal p.2.leaves).sum := by
  induction P with
  | nil => rfl
  | cons p P ih => simp [leafTotal_append, ih]

/-- The candidates' weights add up to the leaves' (R105). -/
theorem MergeInv.cand_total (h : MergeInv L s) :
    ((candidates s).map (weightAt s)).sum = leafTotal L := by
  obtain ⟨P, hP, hT, hL, -⟩ := h.forest
  rw [← (hP.map _).sum_eq, ← leafTotal_perm hL, leafTotal_flatMap, List.map_map]
  refine congrArg List.sum (List.map_congr_left fun p hp => ?_)
  have hc : p.1 ∈ candidates s := hP.subset (List.mem_map_of_mem hp)
  exact (h.treeAt_weight (hT p hp) (h.candlt _ (mem_candidates.1 hc).2)).symm

theorem MergeInv.weight_pair (h : MergeInv L s) {m1 m2 : NodeIdx} (hr : RoundFacts s m1 m2) :
    weightAt s m1 + weightAt s m2 < 2 ^ 40 := by
  have hw := h.cand_total
  have hp := (((candidates_split hr).map (weightAt s)).sum_eq)
  simp only [List.map_cons, List.sum_cons] at hp
  have := h.total
  omega

theorem mergedNode_weight {m1 m2 : NodeIdx} (h : weightAt s m1 + weightAt s m2 < 2 ^ 40) :
    (mergedNode s m1 m2).weight.toNat = weightAt s m1 + weightAt s m2 := by
  simp only [mergedNode, BitVec.toNat_add]
  exact Nat.mod_eq_of_lt h

theorem nodeAt_mergeRound_lt {j : NodeIdx} (hj : j.toNat < s.next.toNat) :
    nodeAt (mergeRound s) j = nodeAt s j := by
  rw [nodeAt_mergeRound, if_neg]
  intro e; rw [e] at hj; omega

theorem weightAt_mergeRound_lt {j : NodeIdx} (hj : j.toNat < s.next.toNat) :
    weightAt (mergeRound s) j = weightAt s j := by
  rw [weightAt, nodeAt_mergeRound_lt hj, weightAt]

theorem nodeAt_mergeRound_next (s : State) : nodeAt (mergeRound s) s.next =
    mergedNode s (leastCandidate s) (leastCandidate (firstExtracted s)) := by
  rw [nodeAt_mergeRound, if_pos rfl]

/-- The node a round makes (R91, R93, R105). -/
theorem MergeInv.newNode (h : MergeInv L s) (hc : 2 ≤ candCount s) :
    InnerNode (mergeRound s) s.next := by
  have hr := roundFacts hc
  have hn := nodeAt_mergeRound_next s
  have hw := h.weight_pair hr
  generalize leastCandidate s = m1 at *
  generalize leastCandidate (firstExtracted s) = m2 at *
  have l1 := h.candlt _ hr.cand1
  have l2 := h.candlt _ hr.cand2
  have hl : (nodeAt (mergeRound s) s.next).left = m1 := by rw [hn]; rfl
  have hrt : (nodeAt (mergeRound s) s.next).right = m2 := by rw [hn]; rfl
  refine ⟨by rw [hn]; rfl, by rw [hn]; rfl, by rw [hl]; exact l1, by rw [hrt]; exact l2, ?_, ?_⟩
  · rw [hl, hrt, weightAt_mergeRound_lt l1, weightAt_mergeRound_lt l2, ← mergedNode_weight hw,
      weightAt, hn]
  · rw [hl, hrt, weightAt_mergeRound_lt l1, weightAt_mergeRound_lt l2]
    rcases hr.least1 m2 hr.cand2 hr.lt2 with hlt | ⟨he, hle⟩
    · exact .inl hlt
    · refine .inr ⟨he, ?_⟩
      have : m2.toNat ≠ m1.toNat := fun e => hr.ne (BitVec.eq_of_toNat_eq e).symm
      omega

theorem InnerNode.lift {i : NodeIdx} (hi : i.toNat < s.next.toNat) (h : InnerNode s i) :
    InnerNode (mergeRound s) i := by
  have hn := nodeAt_mergeRound_lt hi
  have hl := h.left_lt
  have hr := h.right_lt
  have wl := weightAt_mergeRound_lt (s := s) (j := (nodeAt s i).left) (by omega)
  have wr := weightAt_mergeRound_lt (s := s) (j := (nodeAt s i).right) (by omega)
  refine ⟨by rw [hn]; exact h.kind, by rw [hn]; exact h.sym, by rw [hn]; exact hl,
    by rw [hn]; exact hr, ?_, ?_⟩
  · rw [hn, wl, wr, weightAt_mergeRound_lt hi]; exact h.weight
  · rw [hn, wl, wr]; exact h.order

theorem isChild_round_lt {i j : NodeIdx} (hi : i.toNat < s.next.toNat) :
    IsChild (mergeRound s) i j ↔ IsChild s i j := by
  rw [IsChild, nodeAt_mergeRound_lt hi, IsChild]

theorem isChild_round_next {j : NodeIdx} : IsChild (mergeRound s) s.next j ↔
    j = leastCandidate s ∨ j = leastCandidate (firstExtracted s) := by
  rw [IsChild, nodeAt_mergeRound_next]
  simp only [mergedNode, true_and, eq_comm]

theorem MergeInv.parent_round (h : MergeInv L s) (hc : 2 ≤ candCount s) (j : NodeIdx)
    (hj : j.toNat < s.next.toNat + 1) (hcj : candAt (mergeRound s) j = false) :
    ∃! i : NodeIdx, i.toNat < s.next.toNat + 1 ∧ IsChild (mergeRound s) i j := by
  have hr := roundFacts hc
  rw [candAt_mergeRound] at hcj
  have hjn : j ≠ s.next := by intro e; rw [if_pos e] at hcj; simp at hcj
  have hlast : ∀ i : NodeIdx, i.toNat < s.next.toNat + 1 → i.toNat < s.next.toNat ∨ i = s.next := by
    intro i hi
    by_cases hn : i.toNat = s.next.toNat
    · exact .inr (BitVec.eq_of_toNat_eq hn)
    · exact .inl (by omega)
  have hj' : j.toNat < s.next.toNat := (hlast j hj).resolve_right hjn
  rw [if_neg hjn] at hcj
  by_cases h12 : j = leastCandidate s ∨ j = leastCandidate (firstExtracted s)
  · have hcand : candAt s j = true := by
      rcases h12 with e | e
      · rw [e]; exact hr.cand1
      · rw [e]; exact hr.cand2
    refine ⟨s.next, ⟨by omega, isChild_round_next.2 h12⟩, ?_⟩
    rintro i ⟨hi, hch⟩
    rcases hlast i hi with hi | rfl
    · exact absurd ((isChild_round_lt hi).1 hch) (h.orphan j hcand i hi)
    · rfl
  · push Not at h12
    rw [if_neg h12.2, if_neg h12.1] at hcj
    obtain ⟨i, ⟨hi, hch⟩, huniq⟩ := h.parent j hj' hcj
    refine ⟨i, ⟨by omega, (isChild_round_lt hi).2 hch⟩, ?_⟩
    rintro i' ⟨hi', hch'⟩
    rcases hlast i' hi' with hi' | rfl
    · exact huniq i' ⟨hi', (isChild_round_lt hi').1 hch'⟩
    · rcases isChild_round_next.1 hch' with e | e
      · exact absurd e h12.1
      · exact absurd e h12.2

theorem MergeInv.orphan_round (h : MergeInv L s) (hc : 2 ≤ candCount s) (j : NodeIdx)
    (hcj : candAt (mergeRound s) j = true) (i : NodeIdx) (hi : i.toNat < s.next.toNat + 1) :
    ¬ IsChild (mergeRound s) i j := by
  have hr := roundFacts hc
  rw [candAt_mergeRound] at hcj
  intro hch
  by_cases hin : i.toNat < s.next.toNat
  · have hch := (isChild_round_lt hin).1 hch
    by_cases hjn : j = s.next
    · have hcl := h.children hin hch.1
      have h1 := hcl.left_lt
      have h2 := hcl.right_lt
      rcases hch.2 with e | e
      · rw [e, hjn] at h1; omega
      · rw [e, hjn] at h2; omega
    · rw [if_neg hjn] at hcj
      split at hcj
      · simp at hcj
      · split at hcj
        · simp at hcj
        · exact h.orphan j hcj i hin hch
  · have : i = s.next := BitVec.eq_of_toNat_eq (by omega)
    subst this
    rcases isChild_round_next.1 hch with e | e
    · rw [if_neg (by rw [e]; exact h.ne_next hr.cand1), if_pos e, ite_self] at hcj
      simp at hcj
    · rw [if_neg (by rw [e]; exact h.ne_next hr.cand2), if_pos e] at hcj
      simp at hcj

theorem innerTotal_succ (s : State) (k n : Nat) :
    innerTotal s k (n + 1) = innerTotal s k n + weightAt s (BitVec.ofNat 9 (k + n)) := by
  simp [innerTotal, List.range_succ]

theorem innerTotal_congr {s t : State} {k n : Nat}
    (h : ∀ r, r < n → weightAt t (BitVec.ofNat 9 (k + r)) = weightAt s (BitVec.ofNat 9 (k + r))) :
    innerTotal t k n = innerTotal s k n :=
  congrArg List.sum (List.map_congr_left fun r hr => h r (List.mem_range.1 hr))

/-- A list of pairs with a given first component in it has that pair up to order in front. -/
theorem perm_cons_of_fst {P : List (NodeIdx × HTree)} {m : NodeIdx} {R : List NodeIdx}
    (h : (P.map Prod.fst).Perm (m :: R)) :
    ∃ T P', P.Perm ((m, T) :: P') ∧ (P'.map Prod.fst).Perm R := by
  have hm : m ∈ P.map Prod.fst := h.symm.subset (by simp)
  obtain ⟨⟨m', T⟩, hp, rfl⟩ := List.mem_map.1 hm
  obtain ⟨A, B, rfl⟩ := List.append_of_mem hp
  refine ⟨T, A ++ B, List.perm_middle, ?_⟩
  have h' := (((List.perm_middle (l₁ := A) (a := (m', T)) (l₂ := B)).map Prod.fst).symm.trans h)
  exact h'.cons_inv

theorem MergeInv.forest_round (h : MergeInv L s) (hc : 2 ≤ candCount s) :
    ∃ P : List (NodeIdx × HTree), (P.map Prod.fst).Perm (candidates (mergeRound s)) ∧
      (∀ p ∈ P, TreeAt (mergeRound s) p.1 p.2) ∧ (P.flatMap fun p => p.2.leaves).Perm L ∧
      (P.map fun p => p.2.innerSum).sum =
        innerTotal (mergeRound s) L.length (s.next.toNat + 1 - L.length) := by
  have hr := roundFacts hc
  obtain ⟨P, hP, hT, hL, hS⟩ := h.forest
  obtain ⟨T1, P1, hP1, hR1⟩ := perm_cons_of_fst (hP.trans (candidates_split hr))
  obtain ⟨T2, P2, hP2, hR2⟩ := perm_cons_of_fst hR1
  have hPP : P.Perm ((leastCandidate s, T1) :: (leastCandidate (firstExtracted s), T2) :: P2) :=
    hP1.trans (hP2.cons _)
  have lift : ∀ p ∈ P, TreeAt (mergeRound s) p.1 p.2 := fun p hp => by
    have hcand : p.1 ∈ candidates s := hP.subset (List.mem_map_of_mem hp)
    refine treeAt_congr (s := s) (N := s.next.toNat) (fun i hi hk => ?_)
      (fun i hi => nodeAt_mergeRound_lt hi) (hT p hp) (h.candlt _ (mem_candidates.1 hcand).2)
    have hin := h.children hi hk
    exact ⟨by have := hin.left_lt; omega, by have := hin.right_lt; omega⟩
  have t1 := lift _ (hPP.symm.subset (List.mem_cons_self ..))
  have t2 := lift _ (hPP.symm.subset (List.mem_cons_of_mem _ (List.mem_cons_self ..)))
  have hn := nodeAt_mergeRound_next s
  have hw := mergedNode_weight (h.weight_pair hr)
  have hk := (h.newNode hc).kind
  have hlt := h.next_lt hc
  have hnew : TreeAt (mergeRound s) s.next
      (.internal (nodeAt (mergeRound s) s.next).weight T1 T2) := by
    refine .internal hlt hk ?_ ?_
    · rw [hn]; exact t1
    · rw [hn]; exact t2
  refine ⟨(s.next, .internal (nodeAt (mergeRound s) s.next).weight T1 T2) :: P2, ?_, ?_, ?_, ?_⟩
  · rw [List.map_cons]
    exact (hR2.cons _).trans (h.candidates_round hc).symm
  · intro p hp
    rcases List.mem_cons.1 hp with rfl | hp
    · exact hnew
    · exact lift p (hPP.symm.subset (by simp [hp]))
  · refine List.Perm.trans ?_ ((hPP.flatMap_right _).symm.trans hL)
    simp [HTree.leaves]
  · have hge := h.ge
    have hsub : s.next.toNat + 1 - L.length = (s.next.toNat - L.length) + 1 := by omega
    have hix : BitVec.ofNat 9 (L.length + (s.next.toNat - L.length)) = s.next := by
      rw [Nat.add_sub_cancel' hge]; simp
    rw [hsub, innerTotal_succ, hix, innerTotal_congr (s := s) (fun r hr' => ?_), ← hS,
      (hPP.map _).sum_eq]
    · simp only [List.map_cons, List.sum_cons, HTree.innerSum, weightAt]
      omega
    · apply weightAt_mergeRound_lt
      rw [BitVec.toNat_ofNat]
      have : L.length + r < 2 ^ 9 := by omega
      rw [Nat.mod_eq_of_lt this]; omega

theorem MergeInv.rising_round (h : MergeInv L s) (hc : 2 ≤ candCount s) (i j : NodeIdx)
    (hi : L.length ≤ i.toNat) (hij : i.toNat ≤ j.toNat) (hj : j.toNat < s.next.toNat + 1) :
    weightAt (mergeRound s) i ≤ weightAt (mergeRound s) j := by
  have hr := roundFacts hc
  by_cases hjn : j.toNat < s.next.toNat
  · rw [weightAt_mergeRound_lt hjn, weightAt_mergeRound_lt (by omega)]
    exact h.rising i j hi hij hjn
  · have : j = s.next := BitVec.eq_of_toNat_eq (by omega)
    subst this
    by_cases hin : i.toNat < s.next.toNat
    · rw [weightAt_mergeRound_lt hin, weightAt, weightAt, nodeAt_mergeRound_next,
        mergedNode_weight (h.weight_pair hr)]
      exact h.ahead i _ _ hi hin hr.cand1 hr.cand2 hr.ne
    · have : i = s.next := BitVec.eq_of_toNat_eq (by omega)
      rw [this]

theorem MergeInv.ahead_round (h : MergeInv L s) (hc : 2 ≤ candCount s) (i a b : NodeIdx)
    (hi : L.length ≤ i.toNat) (hin : i.toNat < s.next.toNat + 1)
    (ha : candAt (mergeRound s) a = true) (hb : candAt (mergeRound s) b = true) (hab : a ≠ b) :
    weightAt (mergeRound s) i ≤ weightAt (mergeRound s) a + weightAt (mergeRound s) b := by
  have hr := roundFacts hc
  have hge := h.ge
  have hnext := h.next_lt hc
  have hnw : weightAt (mergeRound s) s.next =
      weightAt s (leastCandidate s) + weightAt s (leastCandidate (firstExtracted s)) := by
    rw [weightAt, nodeAt_mergeRound_next, mergedNode_weight (h.weight_pair hr)]
  -- every old index is at most the new node's weight
  have hlast := h.rising_round hc i s.next hi (Nat.lt_succ_iff.1 hin) (Nat.lt_succ_self _)
  refine Nat.le_trans hlast ?_
  have old : ∀ x, candAt (mergeRound s) x = true → x ≠ s.next →
      candAt s x = true ∧ x ≠ leastCandidate s ∧ x ≠ leastCandidate (firstExtracted s) := by
    intro x hx hxn
    rw [candAt_mergeRound, if_neg hxn] at hx
    split at hx
    · simp at hx
    · rename_i n2
      split at hx
      · simp at hx
      · rename_i n1
        exact ⟨hx, n1, n2⟩
  by_cases han : a = s.next
  · subst han; exact Nat.le_add_right _ _
  · by_cases hbn : b = s.next
    · subst hbn; exact Nat.le_add_left _ _
    · obtain ⟨ca, na1, na2⟩ := old a ha han
      obtain ⟨cb, nb1, nb2⟩ := old b hb hbn
      have la := h.candlt a ca
      have lb := h.candlt b cb
      rw [hnw, weightAt_mergeRound_lt la, weightAt_mergeRound_lt lb]
      have h1 := hr.least1 a ca (by omega)
      have h2 := hr.least2 b cb (by omega) nb1
      omega

/-- A merge round keeps the invariant (R91). -/
theorem MergeInv.step (h : MergeInv L s) (hc : 2 ≤ candCount s) : MergeInv L (mergeRound s) := by
  have hr := roundFacts hc
  have hs := h.next_succ hc
  have hcc := h.candCount_round hc
  have hge := h.ge
  refine ⟨h.small, h.total, by rw [nleaf_mergeRound]; exact h.nleaf, ?_, by omega, ?_, ?_, ?_, ?_,
    ?_, ?_, ?_, ?_⟩
  · have := h.count; omega
  · intro i hi
    rw [hs]
    rw [candAt_mergeRound] at hi
    by_cases hin : i = s.next
    · rw [hin]; omega
    · rw [if_neg hin] at hi
      split at hi
      · simp at hi
      · split at hi
        · simp at hi
        · have := h.candlt i hi; omega
  · intro j hj
    rw [← h.leaf j hj]
    apply nodeAt_mergeRound_lt
    have hj9 : j < 2 ^ 9 := by have := h.small; omega
    rw [BitVec.toNat_ofNat, Nat.mod_eq_of_lt hj9]
    omega
  · intro i h1 h2
    rw [hs] at h2
    by_cases hin : i.toNat < s.next.toNat
    · exact (h.inner i h1 hin).lift hin
    · rw [show i = s.next from BitVec.eq_of_toNat_eq (by omega)]
      exact h.newNode hc
  · intro j h1 h2
    rw [hs] at h1 ⊢
    exact h.parent_round hc j h1 h2
  · intro j h1 i h2
    rw [hs] at h2
    exact h.orphan_round hc j h1 i h2
  · rw [hs]; exact h.forest_round hc
  · intro i j h1 h2 h3
    rw [hs] at h3
    exact h.rising_round hc i j h1 h2 h3
  · intro i a b h1 h2
    rw [hs] at h2
    exact h.ahead_round hc i a b h1 h2

end Round

/-- The merge loop ends with the invariant and at most one candidate (R91). -/
theorem mergeAll_spec {L : List (Sym × Weight)} (fuel : Nat) {s : State} (h : MergeInv L s)
    (hf : candCount s ≤ fuel + 1) (hpos : 1 ≤ candCount s) :
    MergeInv L (mergeAll fuel s) ∧ candCount (mergeAll fuel s) = 1 := by
  induction fuel generalizing s with
  | zero => exact ⟨h, by show candCount s = 1; omega⟩
  | succ n ih =>
    unfold mergeAll
    split
    · rename_i hc
      have := h.candCount_round hc
      exact ih (h.step hc) (by omega) (by omega)
    · exact ⟨h, by omega⟩

end Sys2Proof.Machine
end

