-- ==== Sys2Proof/Laws/BuildSpec.lean ====
section
/-! SUPPORT. What BUILD leaves: the merge invariant with one candidate (or none), the counts, and
the tree at ROOT (spec/41_tree_build.md rules R95, R104, R105, R110). -/

namespace Sys2Proof.Machine

/-- The leaves that `BUILD` makes, in index order (R88). -/
def leafList (s : State) : List (Sym × Weight) :=
  (presentSyms s).map fun b => (b, (freqAt s b).setWidth Config.WW)

theorem leafList_length (s : State) : (leafList s).length = presentCount s := by
  simp [leafList, presentCount]

theorem setWidth_count (c : Count) : (c.setWidth Config.WW).toNat = c.toNat := by
  rw [BitVec.toNat_setWidth]
  have := c.isLt
  exact Nat.mod_eq_of_lt (Nat.lt_of_lt_of_le this (Nat.pow_le_pow_right (by omega) (by decide)))

theorem sum_filter_count (s : State) (l : List Sym) :
    ((l.filter fun b => freqAt s b ≠ 0).map fun b => (freqAt s b).toNat).sum =
      (l.map fun b => (freqAt s b).toNat).sum := by
  induction l with
  | nil => rfl
  | cons b l ih =>
    by_cases hb : freqAt s b = 0
    · rw [List.filter_cons_of_neg (by simpa using hb), ih]
      simp [hb]
    · rw [List.filter_cons_of_pos (by simpa using hb)]
      simp only [List.map_cons, List.sum_cons, ih]

/-- The leaves' weights add up to the sum of all counts (R105). -/
theorem leafTotal_leafList (s : State) : leafTotal (leafList s) = totalCount s := by
  rw [totalCount, ← sum_filter_count]
  simp only [leafTotal, leafList, List.map_map]
  exact congrArg List.sum (List.map_congr_left fun b _ => setWidth_count _)

theorem totalCount_lt (s : State) : totalCount s < 2 ^ 40 := by
  have h : ∀ l : List Sym, (l.map fun b => (freqAt s b).toNat).sum ≤ l.length * (2 ^ 32 - 1) := by
    intro l
    induction l with
    | nil => simp
    | cons b l ih =>
      have := (freqAt s b).isLt
      simp only [Config.CW] at this
      simp only [List.map_cons, List.sum_cons, List.length_cons]
      omega
  have := h allSyms
  rw [allSyms_length] at this
  simp only [totalCount]
  omega

theorem candidates_length_leaves {s0 s : State} {ps : List Sym} (h : LeavesMade s0 s ps)
    (hlen : ps.length ≤ 511) : candCount s = ps.length := by
  have hp : (candidates s).Perm ((List.range ps.length).map (BitVec.ofNat 9)) := by
    refine (List.perm_ext_iff_of_nodup (candidates_nodup s) ?_).2 fun i => ?_
    · refine List.Nodup.map_on (fun a ha b hb e => ?_) List.nodup_range
      have e' := congrArg BitVec.toNat e
      simp only [List.mem_range] at ha hb
      simp only [BitVec.toNat_ofNat, Nat.reducePow] at e'
      omega
    · rw [mem_candidates, h.cand]
      simp only [decide_eq_true_eq, List.mem_map, List.mem_range]
      constructor
      · intro hi; exact ⟨i.toNat, hi.2, by simp⟩
      · rintro ⟨a, ha, rfl⟩
        simp only [BitVec.toNat_ofNat, Config.IDXW, Nat.reducePow]
        omega
  simpa [candCount] using hp.length_eq

theorem perm_range_map {α : Type} (l : List α) (f : Nat → α)
    (h : ∀ j (hj : j < l.length), f j = l[j]) : (List.range l.length).map f = l := by
  apply List.ext_getElem
  · simp
  · intro j h1 h2
    simp [h j h2]

/-- The invariant holds when the leaves have been made (R88). -/
theorem mergeInv_leaves (s : State) :
    MergeInv (leafList s) (makeLeaves (clearBuild s)) := by
  have hM := makeLeaves_spec s
  generalize makeLeaves (clearBuild s) = t at hM
  have hk := presentCount_le s
  have hlen : (presentSyms s).length = presentCount s := rfl
  have hL := leafList_length s
  have hcc := candidates_length_leaves hM (by omega)
  have hleaf : ∀ j (h : j < (leafList s).length),
      nodeAt t (BitVec.ofNat 9 j) = ⟨.leaf, (leafList s)[j].2, (leafList s)[j].1, 0, 0⟩ := by
    intro j hj
    rw [hM.leaf j (by omega)]
    simp [leafList, leafNode, freqAt]
  have hnoinner : ∀ i : NodeIdx, i.toNat < t.next.toNat → (nodeAt t i).kind = .leaf := by
    intro i hi
    have := hleaf i.toNat (by have := hM.next; omega)
    simp only [BitVec.ofNat_toNat, BitVec.setWidth_eq] at this
    rw [this]
  have hcand : ∀ i, candAt t i = true ↔ i.toNat < presentCount s := fun i => by
    rw [hM.cand]; simp [hlen]
  have hn := hM.next
  refine ⟨by omega, by rw [leafTotal_leafList]; exact totalCount_lt s, by rw [hM.nleaf]; omega,
    by omega, by omega, fun i hi => by rw [hcand] at hi; omega, hleaf, fun i h1 h2 => by omega,
    ?_, ?_, ?_, fun i j h1 h2 h3 => by omega, fun i a b h1 h2 => by omega⟩
  · intro j h1 h2
    have := (hcand j).2 (by omega)
    rw [h2] at this; simp at this
  · intro j _ i hi hch
    rw [IsChild, hnoinner i hi] at hch
    simp at hch
  · refine ⟨(List.range (leafList s).length).map fun j =>
      (BitVec.ofNat 9 j, .leaf (nodeAt t (BitVec.ofNat 9 j)).sym
        (nodeAt t (BitVec.ofNat 9 j)).weight), ?_, ?_, ?_, ?_⟩
    · rw [List.map_map]
      refine (List.perm_ext_iff_of_nodup ?_ (candidates_nodup t)).2 fun i => ?_
      · refine List.Nodup.map_on (fun a ha b hb e => ?_) List.nodup_range
        have e' := congrArg BitVec.toNat e
        simp only [List.mem_range] at ha hb
        simp only [Function.comp_apply, BitVec.toNat_ofNat, Config.IDXW, Nat.reducePow] at e'
        omega
      · rw [mem_candidates, hcand]
        simp only [List.mem_map, List.mem_range, Function.comp_apply]
        constructor
        · rintro ⟨a, ha, rfl⟩
          simp only [BitVec.toNat_ofNat, Config.IDXW, Nat.reducePow]
          omega
        · intro hi; exact ⟨i.toNat, by omega, by simp⟩
    · intro p hp
      obtain ⟨j, hj, rfl⟩ := List.mem_map.1 hp
      simp only [List.mem_range] at hj
      refine .leaf ?_ (by rw [hleaf j hj])
      simp only [BitVec.toNat_ofNat, Config.IDXW, Config.NNODE, Nat.reducePow]
      omega
    · rw [List.flatMap_map]
      have : ∀ (n : Nat) (f : Nat → Sym × Weight), (List.range n).flatMap (fun j => [f j]) =
          (List.range n).map f := fun n f => by
        induction (List.range n) with
        | nil => rfl
        | cons a l ih => simp [ih]
      simp only [HTree.leaves]
      rw [this, perm_range_map]
      intro j hj
      rw [hleaf j hj]
    · have h0 : t.next.toNat - (leafList s).length = 0 := by omega
      rw [h0, List.map_map]
      simp only [innerTotal, List.range_zero, List.map_nil, List.sum_nil]
      apply List.sum_eq_zero
      intro x hx
      obtain ⟨j, -, rfl⟩ := List.mem_map.1 hx
      rfl

/-- The invariant speaks of NODE, CAND, NEXT and NLEAF alone. -/
theorem MergeInv.congr {L : List (Sym × Weight)} {s t : State} (h : MergeInv L s)
    (hn : t.node = s.node) (hc : t.cand = s.cand) (hx : t.next = s.next) (hl : t.nleaf = s.nleaf) :
    MergeInv L t := by
  have en : ∀ i, nodeAt t i = nodeAt s i := nodeAt_congr hn
  have ec : ∀ i, candAt t i = candAt s i := candAt_congr hc
  have ew : ∀ i, weightAt t i = weightAt s i := fun i => by rw [weightAt, en, weightAt]
  have ecs : candidates t = candidates s := by
    rw [candidates, candidates]; exact List.filter_congr fun i _ => ec i
  have eT : ∀ i T, TreeAt s i T → TreeAt t i T := fun i T hT =>
    treeAt_congr (N := 512) (fun j _ _ => ⟨(nodeAt s j).left.isLt, (nodeAt s j).right.isLt⟩)
      (fun j _ => en j) hT i.isLt
  have eI : ∀ i j, IsChild t i j ↔ IsChild s i j := fun i j => by rw [IsChild, en, IsChild]
  refine ⟨h.small, h.total, by rw [hl]; exact h.nleaf, by rw [hx, candCount, ecs]; exact h.count,
    by rw [hx]; exact h.ge, fun i hi => by rw [hx]; rw [ec] at hi; exact h.candlt i hi,
    fun j hj => by rw [en]; exact h.leaf j hj, ?_, ?_, ?_, ?_, ?_, ?_⟩
  · intro i h1 h2
    rw [hx] at h2
    have := h.inner i h1 h2
    exact ⟨by rw [en]; exact this.kind, by rw [en]; exact this.sym, by rw [en]; exact this.left_lt,
      by rw [en]; exact this.right_lt, by rw [en, ew, ew, ew]; exact this.weight,
      by rw [en, ew, ew]; exact this.order⟩
  · intro j h1 h2
    rw [hx] at h1 ⊢
    rw [ec] at h2
    simpa only [eI] using h.parent j h1 h2
  · intro j h1 i h2
    rw [hx] at h2
    rw [ec] at h1
    rw [eI]
    exact h.orphan j h1 i h2
  · obtain ⟨P, h1, h2, h3, h4⟩ := h.forest
    refine ⟨P, by rw [ecs]; exact h1, fun p hp => eT _ _ (h2 p hp), h3, ?_⟩
    rw [hx, h4]
    exact (innerTotal_congr fun r _ => ew _).symm
  · intro i j h1 h2 h3
    rw [hx] at h3
    rw [ew, ew]
    exact h.rising i j h1 h2 h3
  · intro i a b h1 h2 h3 h4
    rw [hx] at h2
    rw [ec] at h3 h4
    rw [ew, ew, ew]
    exact h.ahead i a b h1 h2 h3 h4

/-- After `BUILD` the merge invariant holds with one candidate, or none for an empty table. -/
theorem buildState_inv (s : State) :
    MergeInv (leafList s) (buildState s) ∧ candCount (buildState s) = min (presentCount s) 1 := by
  have h := mergeInv_leaves s
  have hcc := candidates_length_leaves (makeLeaves_spec s) (by
    have := presentCount_le s; exact Nat.le_trans this (by omega))
  have hL := leafList_length s
  have key : MergeInv (leafList s) (mergeIfTwo (makeLeaves (clearBuild s))) ∧
      candCount (mergeIfTwo (makeLeaves (clearBuild s))) = min (presentCount s) 1 := by
    generalize makeLeaves (clearBuild s) = u at h hcc
    change candCount u = presentCount s at hcc
    have hk := h.nleaf
    have hs := h.small
    unfold mergeIfTwo
    split
    · rename_i h2
      have := mergeAll_spec Config.NNODE h (by simp only [Config.NNODE]; omega) (by omega)
      exact ⟨this.1, by rw [this.2]; omega⟩
    · exact ⟨h, by omega⟩
  unfold buildState
  generalize mergeIfTwo (makeLeaves (clearBuild s)) = v at key
  refine ⟨key.1.congr rfl rfl rfl rfl, ?_⟩
  exact key.2

/-! ### What BUILD leaves of NODE, M1 and M2 -/

/-- Merge rounds write NODE below NEXT alone. -/
theorem nodeAt_mergeAll {L : List (Sym × Weight)} (fuel : Nat) {s : State} (h : MergeInv L s) :
    s.next.toNat ≤ (mergeAll fuel s).next.toNat ∧
      ∀ i : NodeIdx, (mergeAll fuel s).next.toNat ≤ i.toNat →
        nodeAt (mergeAll fuel s) i = nodeAt s i := by
  induction fuel generalizing s with
  | zero => exact ⟨Nat.le_refl _, fun _ _ => rfl⟩
  | succ n ih =>
    unfold mergeAll
    split
    · rename_i hc
      have hx := h.next_succ hc
      obtain ⟨h1, h2⟩ := ih (h.step hc)
      refine ⟨by omega, fun i hi => ?_⟩
      rw [h2 i hi, nodeAt_mergeRound, if_neg]
      rintro rfl
      omega
    · exact ⟨Nat.le_refl _, fun _ _ => rfl⟩

/-- The leaf loop keeps M1 and M2. -/
theorem makeLeaves_scratch (s : State) : ScratchKept s (makeLeaves s) := by
  unfold makeLeaves
  induction allSyms generalizing s with
  | nil => exact ⟨rfl, rfl⟩
  | cons b l ih =>
    have hb : ScratchKept s (leafStep s b) := by
      by_cases h : freqAt s b = 0
      · rw [leafStep_absent h]; exact ⟨rfl, rfl⟩
      · rw [leafStep_present h]; exact ⟨rfl, rfl⟩
    obtain ⟨h1, h2⟩ := ih (leafStep s b)
    exact ⟨h1.trans hb.1, h2.trans hb.2⟩

/-- `BUILD` leaves NODE at and above NEXT as it was, and without a merge round M1 and M2. -/
theorem buildState_rest (s : State) :
    (∀ i : NodeIdx, (buildState s).next.toNat ≤ i.toNat →
      nodeAt (buildState s) i = nodeAt s i) ∧
      (presentCount s ≤ 1 → ScratchKept s (buildState s)) := by
  have h := mergeInv_leaves s
  have hM := makeLeaves_spec s
  have hs : ScratchKept s (makeLeaves (clearBuild s)) := makeLeaves_scratch (clearBuild s)
  have hn : (makeLeaves (clearBuild s)).nleaf.toNat = presentCount s := by
    rw [hM.nleaf, hM.next, presentCount]
  have hl := hM.next
  have hr : ∀ i : NodeIdx, (presentSyms s).length ≤ i.toNat →
      nodeAt (makeLeaves (clearBuild s)) i = nodeAt s i := hM.rest
  unfold buildState
  generalize makeLeaves (clearBuild s) = u at *
  have hx := nodeAt_mergeAll Config.NNODE h
  have key : (∀ i : NodeIdx, (mergeIfTwo u).next.toNat ≤ i.toNat →
      nodeAt (mergeIfTwo u) i = nodeAt s i) ∧
      (presentCount s ≤ 1 → ScratchKept s (mergeIfTwo u)) := by
    unfold mergeIfTwo
    split
    · exact ⟨fun i hi => (hx.2 i hi).trans (hr i (by omega)), fun hk => by omega⟩
    · exact ⟨fun i hi => hr i (by omega), fun _ => hs⟩
  generalize mergeIfTwo u = v at key
  exact key

end Sys2Proof.Machine
end

