-- ==== Sys2Proof/Laws/Terms.lean ====
section
/-! SUPPORT. Tree terms (spec/00_scope.md rule R10): the codes of the leaves, what is true of every
set of codes read off a tree (spec/42_encoding_assign.md rules R127, R138), and the tree that BUILD
leaves at ROOT. -/

namespace Sys2Proof.Machine

/-! ### Terms -/

/-- The number of edges on the longest way down. -/
def HTree.height : HTree → Nat
  | .leaf _ _ => 0
  | .internal _ l r => max l.height r.height + 1

/-- Every internal node weighs what its two children weigh together (R105). -/
def HTree.Sums : HTree → Prop
  | .leaf _ _ => True
  | .internal w l r => w.toNat = l.weight.toNat + r.weight.toNat ∧ l.Sums ∧ r.Sums

/-- One leaf's code: byte, weight, depth, path value. -/
structure LeafPath where
  sym : Sym
  weight : Weight
  depth : Nat
  path : Nat

/-- The leaves of a tree from left to right with their depths and path values, when its root is
reached at depth `d` with path value `p` (R115). -/
def HTree.paths : HTree → Nat → Nat → List LeafPath
  | .leaf b w, d, p => [⟨b, w, d, p⟩]
  | .internal _ l r, d, p => l.paths (d + 1) (2 * p) ++ r.paths (d + 1) (2 * p + 1)

theorem HTree.height_lt_leaves (T : HTree) : T.height < T.leaves.length := by
  induction T with
  | leaf => simp [HTree.height, HTree.leaves]
  | internal w l r ihl ihr => simp only [HTree.height, HTree.leaves, List.length_append]; omega

theorem HTree.leaves_ne_nil (T : HTree) : T.leaves ≠ [] := by
  have := T.height_lt_leaves
  intro e; rw [e] at this; simp at this

theorem HTree.paths_leaves (T : HTree) (d p : Nat) :
    (T.paths d p).map (fun x => (x.sym, x.weight)) = T.leaves := by
  induction T generalizing d p with
  | leaf => rfl
  | internal w l r ihl ihr => simp [HTree.paths, HTree.leaves, ihl, ihr]

theorem HTree.paths_depth {T : HTree} {d p : Nat} {x : LeafPath} (h : x ∈ T.paths d p) :
    d ≤ x.depth ∧ x.depth ≤ d + T.height := by
  induction T generalizing d p with
  | leaf => simp only [HTree.paths, List.mem_singleton] at h; subst h; simp [HTree.height]
  | internal w l r ihl ihr =>
    simp only [HTree.paths, List.mem_append] at h
    simp only [HTree.height]
    rcases h with h | h
    · have := ihl h; omega
    · have := ihr h; omega

/-- Every leaf below an internal root is at least one level down (R138 item 3). -/
theorem HTree.paths_depth_pos {w : Weight} {l r : HTree} {x : LeafPath}
    (h : x ∈ (HTree.internal w l r).paths 0 0) : 1 ≤ x.depth := by
  simp only [HTree.paths, List.mem_append] at h
  rcases h with h | h <;> exact (HTree.paths_depth h).1

/-- Measured in units of depth `M`, a leaf's path covers an interval inside its root's (R127). -/
theorem HTree.paths_bounds {T : HTree} {d p M : Nat} (hM : d + T.height ≤ M) {x : LeafPath}
    (h : x ∈ T.paths d p) : p * 2 ^ (M - d) ≤ x.path * 2 ^ (M - x.depth) ∧
      (x.path + 1) * 2 ^ (M - x.depth) ≤ (p + 1) * 2 ^ (M - d) := by
  induction T generalizing d p with
  | leaf => simp only [HTree.paths, List.mem_singleton] at h; subst h; simp
  | internal w l r ihl ihr =>
    simp only [HTree.height] at hM
    have e : M - d = (M - (d + 1)) + 1 := by omega
    rw [e, Nat.pow_succ]
    simp only [HTree.paths, List.mem_append] at h
    generalize hK : 2 ^ (M - (d + 1)) = K at *
    rcases h with h | h
    · have := ihl (by omega) h
      rw [hK] at this
      constructor <;> nlinarith
    · have := ihr (by omega) h
      rw [hK] at this
      constructor <;> nlinarith

theorem HTree.paths_path_lt {T : HTree} {x : LeafPath} (h : x ∈ T.paths 0 0) :
    x.path < 2 ^ x.depth := by
  have hd := (HTree.paths_depth h).2
  have := (HTree.paths_bounds (M := T.height) (by omega) h).2
  have e : 2 ^ (T.height - 0) = 2 ^ x.depth * 2 ^ (T.height - x.depth) := by
    rw [← Nat.pow_add]; congr 1; omega
  rw [e, Nat.zero_add, Nat.one_mul] at this
  have := Nat.le_of_mul_le_mul_right this (by positivity)
  omega

/-- Two leaves' paths cover disjoint intervals, in order from left to right (R127). -/
theorem HTree.paths_disjoint {T : HTree} {d p M : Nat} (hM : d + T.height ≤ M) :
    (T.paths d p).Pairwise fun x y =>
      (x.path + 1) * 2 ^ (M - x.depth) ≤ y.path * 2 ^ (M - y.depth) := by
  induction T generalizing d p with
  | leaf => simp [HTree.paths]
  | internal w l r ihl ihr =>
    simp only [HTree.height] at hM
    simp only [HTree.paths]
    rw [List.pairwise_append]
    refine ⟨ihl (by omega), ihr (by omega), fun x hx y hy => ?_⟩
    have h1 := (HTree.paths_bounds (M := M) (by omega) hx).2
    have h2 := (HTree.paths_bounds (M := M) (by omega) hy).1
    exact Nat.le_trans h1 h2

/-- The leaves' intervals fill the root's: the Kraft sum (R127 fact d). -/
theorem HTree.paths_kraft {T : HTree} {d p M : Nat} (hM : d + T.height ≤ M) :
    ((T.paths d p).map fun x => 2 ^ (M - x.depth)).sum = 2 ^ (M - d) := by
  induction T generalizing d p with
  | leaf => simp [HTree.paths]
  | internal w l r ihl ihr =>
    simp only [HTree.height] at hM
    have e : M - d = (M - (d + 1)) + 1 := by omega
    simp only [HTree.paths, List.map_append, List.sum_append]
    rw [ihl (by omega), ihr (by omega), e, Nat.pow_succ]
    omega

/-- No path below a root with a nonzero path value is zero. -/
theorem HTree.paths_pos {T : HTree} {d p : Nat} (hp : 0 < p) {x : LeafPath} (h : x ∈ T.paths d p) :
    0 < x.path := by
  induction T generalizing d p with
  | leaf => simp only [HTree.paths, List.mem_singleton] at h; subst h; exact hp
  | internal w l r ihl ihr =>
    simp only [HTree.paths, List.mem_append] at h
    rcases h with h | h
    · exact ihl (by omega) h
    · exact ihr (by omega) h

/-- Exactly one leaf is reached by left turns only: the first (R127 fact a). -/
theorem HTree.paths_zero (T : HTree) (d : Nat) :
    ∃ x rest, T.paths d 0 = x :: rest ∧ x.path = 0 ∧ ∀ y ∈ rest, 0 < y.path := by
  induction T generalizing d with
  | leaf b w => exact ⟨_, [], rfl, rfl, by simp⟩
  | internal w l r ihl ihr =>
    obtain ⟨x, rest, hx, h0, hrest⟩ := ihl (d + 1)
    refine ⟨x, rest ++ r.paths (d + 1) 1, by simp [HTree.paths, hx], h0, fun y hy => ?_⟩
    rcases List.mem_append.1 hy with hy | hy
    · exact hrest y hy
    · exact HTree.paths_pos (by omega) hy

/-- The sum of weight times depth over the leaves is the tree's cost. -/
theorem HTree.paths_cost (T : HTree) (d p : Nat) :
    ((T.paths d p).map fun x => x.weight.toNat * x.depth).sum = T.cost d := by
  induction T generalizing d p with
  | leaf => simp [HTree.paths, HTree.cost]
  | internal w l r ihl ihr => simp [HTree.paths, HTree.cost, ihl, ihr]

theorem HTree.Sums.weight_eq {T : HTree} (h : T.Sums) : T.weight.toNat = leafTotal T.leaves := by
  induction T with
  | leaf => simp [HTree.weight, HTree.leaves, leafTotal]
  | internal w l r ihl ihr =>
    obtain ⟨h1, h2, h3⟩ := h
    rw [HTree.weight, h1, ihl h2, ihr h3, HTree.leaves, leafTotal_append]

theorem HTree.cost_succ (T : HTree) (d : Nat) : T.cost (d + 1) = T.cost d + leafTotal T.leaves := by
  induction T generalizing d with
  | leaf => simp [HTree.cost, HTree.leaves, leafTotal, Nat.mul_succ]
  | internal w l r ihl ihr =>
    simp only [HTree.cost, HTree.leaves, leafTotal_append, ihl, ihr]
    omega

/-- The sum of weight times depth is the sum of the internal weights (R138 item 7). -/
theorem HTree.Sums.cost_zero {T : HTree} (h : T.Sums) : T.cost 0 = T.innerSum := by
  induction T with
  | leaf => simp [HTree.cost, HTree.innerSum]
  | internal w l r ihl ihr =>
    obtain ⟨h1, h2, h3⟩ := h
    rw [HTree.cost, HTree.innerSum, HTree.cost_succ, HTree.cost_succ, ihl h2, ihr h3, h1,
      h2.weight_eq, h3.weight_eq]
    omega

/-! ### The tree at ROOT -/

theorem TreeAt.weight {s : State} {i : NodeIdx} {T : HTree} (h : TreeAt s i T) :
    T.weight = (nodeAt s i).weight := by
  cases h <;> rfl

theorem MergeInv.sums {L : List (Sym × Weight)} {s : State} (h : MergeInv L s) {i : NodeIdx}
    {T : HTree} (hT : TreeAt s i T) (hi : i.toNat < s.next.toNat) : T.Sums := by
  induction hT with
  | leaf => trivial
  | internal h1 h2 hl hr ihl ihr =>
    have hin := h.children hi h2
    have := hin.left_lt
    have := hin.right_lt
    refine ⟨?_, ihl (by omega), ihr (by omega)⟩
    rw [hl.weight, hr.weight]
    exact hin.weight

/-- What `BUILD` leaves in its registers (R95). -/
structure BuildCounts (s t : State) : Prop where
  nleaf : t.nleaf.toNat = presentCount s
  next : t.next.toNat = 2 * presentCount s - 1
  root : t.root.toNat = 2 * presentCount s - 2
  built : t.built = true
  empty : t.empty = decide (presentCount s = 0)
  single : t.single = decide (presentCount s = 1)
  ph : t.ph = .idle
  ix : t.ix = 0

theorem buildState_counts (s : State) : BuildCounts s (buildState s) := by
  obtain ⟨h, hc⟩ := buildState_inv s
  have hL := leafList_length s
  have hk := presentCount_le s
  have hn : (buildState s).nleaf.toNat = presentCount s := by rw [h.nleaf, hL]
  have hx : (buildState s).next.toNat = 2 * presentCount s - 1 := by
    have := h.count; rw [hc, hL] at this; omega
  have hroot : (buildState s).root = rootIndex (buildState s).nleaf (buildState s).next := by
    unfold buildState
    generalize mergeIfTwo _ = v
    rfl
  have hem : (buildState s).empty = emptyFlag (buildState s).nleaf := by
    unfold buildState
    generalize mergeIfTwo _ = v
    rfl
  have hsi : (buildState s).single = singleFlag (buildState s).nleaf := by
    unfold buildState
    generalize mergeIfTwo _ = v
    rfl
  refine ⟨hn, hx, ?_, ?_, ?_, ?_, ?_, ?_⟩
  · rw [hroot, rootIndex, hn]
    split
    · show 0 = _; omega
    · rw [BitVec.toNat_sub_of_le (by rw [BitVec.le_def, hx]; show 1 ≤ _; omega), hx]
      show _ - 1 = _; omega
  · unfold buildState; generalize mergeIfTwo _ = v; rfl
  · rw [hem, emptyFlag, ← hn, Bool.eq_iff_iff]
    simp [← BitVec.toNat_inj]
  · rw [hsi, singleFlag, ← hn, Bool.eq_iff_iff]
    simp [← BitVec.toNat_inj]
  · unfold buildState; generalize mergeIfTwo _ = v; rfl
  · unfold buildState; generalize mergeIfTwo _ = v; rfl

/-- After `BUILD` the one candidate left is ROOT (R95). -/
theorem buildState_root_cand {s : State} (hk : 1 ≤ presentCount s) :
    candidates (buildState s) = [(buildState s).root] := by
  obtain ⟨h, hc⟩ := buildState_inv s
  have hcn := buildState_counts s
  generalize buildState s = t at *
  have hone : candCount t = 1 := by omega
  obtain ⟨c, hcs⟩ := List.length_eq_one_iff.1 hone
  have hrt : candAt t t.root = true := by
    by_contra hno
    obtain ⟨i, ⟨hi, hch⟩, -⟩ := h.parent t.root (by rw [hcn.root, hcn.next]; omega)
      (by simpa using hno)
    have hin := h.children hi hch.1
    have h1 := hin.left_lt
    have h2 := hin.right_lt
    have h3 := hcn.root
    have h4 := hcn.next
    have hge : presentCount s ≤ i.toNat := by
      by_contra hlt
      have := h.leafAt (i := i) (by rw [leafList_length]; omega)
      have h5 := hch.1
      rw [this] at h5; simp at h5
    rcases hch.2 with e | e
    · rw [e] at h1; omega
    · rw [e] at h2; omega
  have : t.root ∈ candidates t := mem_candidates.2 ⟨by
    have := presentCount_le s; have := hcn.root; omega, hrt⟩
  rw [hcs] at this ⊢
  rw [List.mem_singleton.1 this]

/-- The tree that `BUILD` leaves at ROOT has exactly the present bytes as its leaves, and its
internal nodes are those of NODE (R104, R105). -/
theorem buildState_tree {s : State} (hk : 1 ≤ presentCount s) :
    ∃ T, TreeAt (buildState s) (buildState s).root T ∧ T.leaves.Perm (leafList s) ∧ T.Sums ∧
      T.innerSum = innerTotal (buildState s) (presentCount s) (presentCount s - 1) := by
  obtain ⟨h, -⟩ := buildState_inv s
  have hcn := buildState_counts s
  have hroot := buildState_root_cand hk
  generalize buildState s = t at *
  obtain ⟨P, h1, h2, h3, h4⟩ := h.forest
  rw [hroot] at h1
  have hP := h1.length_eq
  simp only [List.length_map, List.length_singleton] at hP
  obtain ⟨⟨i, T⟩, rfl⟩ := List.length_eq_one_iff.1 hP
  have hi : i = t.root := by simpa using h1
  subst hi
  have hT := h2 _ (List.mem_singleton_self _)
  refine ⟨T, hT, by simpa using h3, h.sums hT (by rw [hcn.root, hcn.next]; omega), ?_⟩
  have e : 2 * presentCount s - 1 - presentCount s = presentCount s - 1 := by omega
  rw [leafList_length, hcn.next, e] at h4
  simpa using h4

end Sys2Proof.Machine
end

