-- ==== Sys2Proof/Laws/Walk.lean ====
section
/-! SUPPORT. What ASSIGN does (spec/42_encoding_assign.md): the walk emits the leaves of the tree,
the emissions fill CODE and the two sums, and on the tree of a BUILD no fault is met. -/

namespace Sys2Proof.Machine

/-! ### Bit lengths and products -/

theorem bitlen_le {w d : Nat} {v : BitVec w} (h : v.toNat < 2 ^ d) : bitlen v ≤ d := by
  unfold bitlen
  split
  · omega
  · rename_i h0
    exact (Nat.log2_lt h0).2 h

theorem lt_two_pow_bitlen {w : Nat} (v : BitVec w) : v.toNat < 2 ^ bitlen v := by
  unfold bitlen
  split
  · rename_i h0; rw [h0]; simp
  · exact Nat.lt_log2_self

theorem bitlen_zero_iff {w : Nat} (v : BitVec w) : bitlen v = 0 ↔ v.toNat = 0 := by
  unfold bitlen; split <;> simp_all

theorem bitlen_le_maxlen (p : Path) : bitlen p ≤ 255 := bitlen_le p.isLt

/-- A weight times a length is exact (R124). -/
theorem weighted_toNat (w : Weight) (l : Len) : (weighted w l).toNat = w.toNat * l.toNat := by
  have hw := w.isLt
  have hl := l.isLt
  simp only [Config.WW, Config.CW, Config.LENW, Nat.reduceAdd] at hw hl
  have hp : w.toNat * l.toNat < 2 ^ 48 := by
    calc w.toNat * l.toNat < 2 ^ 40 * 2 ^ 8 := Nat.mul_lt_mul'' hw hl
      _ = 2 ^ 48 := by norm_num
  simp only [weighted, BitVec.toNat_mul, BitVec.toNat_setWidth, Config.AW, Config.CW,
    Nat.reduceAdd]
  rw [Nat.mod_eq_of_lt (a := w.toNat) (by omega), Nat.mod_eq_of_lt (a := l.toNat) (by omega),
    Nat.mod_eq_of_lt hp]

/-! ### Emissions -/

/-- The CODE entry of a leaf path (R116). -/
def LeafPath.entry (x : LeafPath) : CodeEntry :=
  leafCode (BitVec.ofNat 8 x.depth) (BitVec.ofNat 255 x.path)

/-- `emit` for a leaf path (R116). -/
def emitPath (s : State) (x : LeafPath) : State :=
  emit s ⟨.leaf, x.weight, x.sym, 0, 0⟩ (BitVec.ofNat 8 x.depth) (BitVec.ofNat 255 x.path)

/-- Only CODE, WLEN and WLENRAW differ. -/
structure OnlyTable (s t : State) : Prop where
  freq : t.freq = s.freq
  node : t.node = s.node
  cand : t.cand = s.cand
  stk : t.stk = s.stk
  next : t.next = s.next
  nleaf : t.nleaf = s.nleaf
  root : t.root = s.root
  built : t.built = s.built
  codev : t.codev = s.codev
  empty : t.empty = s.empty
  single : t.single = s.single
  err : t.err = s.err
  errcode : t.errcode = s.errcode
  ph : t.ph = s.ph
  ix : t.ix = s.ix
  sp : t.sp = s.sp
  m1 : t.m1 = s.m1
  m2 : t.m2 = s.m2
  din : t.din = s.din
  rsp : t.rsp = s.rsp
  host : t.host = s.host

theorem OnlyTable.refl (s : State) : OnlyTable s s := by constructor <;> rfl

theorem OnlyTable.trans {s t u : State} (h : OnlyTable s t) (h' : OnlyTable t u) :
    OnlyTable s u :=
  ⟨h'.freq.trans h.freq, h'.node.trans h.node, h'.cand.trans h.cand, h'.stk.trans h.stk,
    h'.next.trans h.next, h'.nleaf.trans h.nleaf, h'.root.trans h.root, h'.built.trans h.built,
    h'.codev.trans h.codev, h'.empty.trans h.empty, h'.single.trans h.single, h'.err.trans h.err,
    h'.errcode.trans h.errcode, h'.ph.trans h.ph, h'.ix.trans h.ix, h'.sp.trans h.sp,
    h'.m1.trans h.m1, h'.m2.trans h.m2, h'.din.trans h.din, h'.rsp.trans h.rsp,
    h'.host.trans h.host⟩

theorem emitPath_only (s : State) (x : LeafPath) : OnlyTable s (emitPath s x) := by
  constructor <;> rfl

theorem emitAll_only (xs : List LeafPath) (s : State) : OnlyTable s (xs.foldl emitPath s) := by
  induction xs generalizing s with
  | nil => exact OnlyTable.refl s
  | cons x xs ih => exact (emitPath_only s x).trans (ih _)

theorem codeAt_emitPath (s : State) (x : LeafPath) (b : Sym) :
    codeAt (emitPath s x) b = if b = x.sym then x.entry else codeAt s b :=
  codeAt_emit ..

/-- A byte that no emission names keeps its entry (R119). -/
theorem codeAt_emitAll_absent {xs : List LeafPath} {b : Sym} (h : b ∉ xs.map LeafPath.sym)
    (s : State) : codeAt (xs.foldl emitPath s) b = codeAt s b := by
  induction xs generalizing s with
  | nil => rfl
  | cons x xs ih =>
    simp only [List.map_cons, List.mem_cons, not_or] at h
    rw [List.foldl_cons, ih h.2, codeAt_emitPath, if_neg h.1]

/-- Each emitted byte has its leaf's entry (R116). -/
theorem codeAt_emitAll_present {xs : List LeafPath} (hn : (xs.map LeafPath.sym).Nodup)
    {x : LeafPath} (hx : x ∈ xs) (s : State) :
    codeAt (xs.foldl emitPath s) x.sym = x.entry := by
  induction xs generalizing s with
  | nil => simp at hx
  | cons y xs ih =>
    simp only [List.map_cons, List.nodup_cons] at hn
    rw [List.foldl_cons]
    rcases List.mem_cons.1 hx with rfl | hx
    · rw [codeAt_emitAll_absent hn.1, codeAt_emitPath, if_pos rfl]
    · exact ih hn.2 hx _

/-- The running sums are exact while they fit (R124). -/
theorem sums_emitAll (xs : List LeafPath) (s : State)
    (hr : s.wlenraw.toNat + (xs.map fun x => x.weight.toNat * x.entry.rawlen.toNat).sum < 2 ^ 48)
    (hl : s.wlen.toNat + (xs.map fun x => x.weight.toNat * x.entry.len.toNat).sum < 2 ^ 48) :
    (xs.foldl emitPath s).wlenraw.toNat =
        s.wlenraw.toNat + (xs.map fun x => x.weight.toNat * x.entry.rawlen.toNat).sum ∧
      (xs.foldl emitPath s).wlen.toNat =
        s.wlen.toNat + (xs.map fun x => x.weight.toNat * x.entry.len.toNat).sum := by
  induction xs generalizing s with
  | nil => simp
  | cons x xs ih =>
    simp only [List.map_cons, List.sum_cons] at hr hl ⊢
    have h1 : (emitPath s x).wlenraw.toNat =
        s.wlenraw.toNat + x.weight.toNat * x.entry.rawlen.toNat := by
      show (s.wlenraw + weighted x.weight x.entry.rawlen).toNat = _
      rw [BitVec.toNat_add, weighted_toNat]
      exact Nat.mod_eq_of_lt (by simp only [Config.AW, Config.CW, Nat.reduceAdd]; omega)
    have h2 : (emitPath s x).wlen.toNat =
        s.wlen.toNat + x.weight.toNat * x.entry.len.toNat := by
      show (s.wlen + weighted x.weight x.entry.len).toNat = _
      rw [BitVec.toNat_add, weighted_toNat]
      exact Nat.mod_eq_of_lt (by simp only [Config.AW, Config.CW, Nat.reduceAdd]; omega)
    have := ih (emitPath s x) (by rw [h1]; omega) (by rw [h2]; omega)
    rw [List.foldl_cons, this.1, this.2, h1, h2]
    omega

/-! ### The walk -/

theorem ofNat_succ_len (d : Nat) : (BitVec.ofNat 8 d + 1 : Len) = BitVec.ofNat 8 (d + 1) := by
  rw [BitVec.ofNat_add]; rfl

theorem two_mul_path (p : Nat) : (2 * BitVec.ofNat 255 p : Path) = BitVec.ofNat 255 (2 * p) := by
  rw [BitVec.ofNat_mul]; rfl

theorem two_mul_path_succ (p : Nat) :
    (2 * BitVec.ofNat 255 p + 1 : Path) = BitVec.ofNat 255 (2 * p + 1) := by
  rw [two_mul_path, BitVec.ofNat_add]; rfl

/-- The walk of a tree that fits the room emits its leaves from left to right (R115, R116). -/
theorem walk_spec {s0 : State} {n : NodeIdx} {T : HTree} (hT : TreeAt s0 n T) (room d p : Nat)
    (hroom : T.height ≤ room) (s : State) (hs : s.node = s0.node) :
    walk room n (BitVec.ofNat 8 d) (BitVec.ofNat 255 p) s =
      .ok ((T.paths d p).foldl emitPath s) := by
  induction hT generalizing room d p s with
  | leaf h1 h2 =>
    have hn := fun i => nodeAt_congr (s := s0) (t := s) hs i
    cases room <;> simp only [walk, hn, h1, h2, if_true] <;> rfl
  | @internal _ l r h1 h2 hl hr ihl ihr =>
    have hn := fun i => nodeAt_congr (s := s0) (t := s) hs i
    simp only [HTree.height] at hroom
    obtain ⟨room, rfl⟩ : ∃ m, room = m + 1 := ⟨room - 1, by omega⟩
    simp only [walk, hn, h1, h2, if_true]
    rw [two_mul_path_succ, two_mul_path, ofNat_succ_len, ihl room (d + 1) (2 * p) (by omega) s hs]
    simp only []
    have hs1 := (emitAll_only (l.paths (d + 1) (2 * p)) s).node.trans hs
    rw [ihr room (d + 1) (2 * p + 1) (by omega) _ hs1]
    simp [HTree.paths, List.foldl_append]

theorem emit_only (s : State) (n : Node) (d : Len) (p : Path) : OnlyTable s (emit s n d p) := by
  constructor <;> rfl

/-- Whatever the nodes hold, a walk that ends has written CODE and the sums alone (R125). -/
theorem walk_only {room : Nat} {n : NodeIdx} {d : Len} {p : Path} {s u : State}
    (h : walk room n d p s = .ok u) : OnlyTable s u := by
  induction room generalizing n d p s u with
  | zero =>
    simp only [walk] at h
    split at h
    · cases hk : (nodeAt s n).kind with
      | leaf => simp only [hk, Except.ok.injEq] at h; rw [← h]; exact emit_only ..
      | internal => simp [hk] at h
    · simp at h
  | succ room ih =>
    unfold walk at h
    split at h
    · split at h
      · simp only [Except.ok.injEq] at h; rw [← h]; exact emit_only ..
      · split at h
        · simp at h
        · rename_i hl
          exact (ih hl).trans (ih h)
    · simp at h

theorem walkTree_only {s u : State} (h : walkTree s = .ok u) : OnlyTable s u := by
  unfold walkTree at h
  split at h
  · simp only [Except.ok.injEq] at h; rw [← h]; exact OnlyTable.refl s
  · exact walk_only h

/-- What `ASSIGN` keeps whenever it executes, whatever the nodes hold (R125). -/
theorem execAssign_keeps {s t : State} (hb : s.built = true) (h : execAssign s = .next t) :
    ∃ u, OnlyTable (clearAssign s) u ∧
      t = { consumeTree u with sp := 0, ix := 0, ph := .idle, rsp := some ⟨.ok, .nothing⟩ } := by
  unfold execAssign at h
  rw [if_neg (by rw [hb]; decide)] at h
  cases hw : walkTree (clearAssign s) with
  | error x => simp [hw] at h
  | ok u =>
    simp only [hw, respond, Host.Outcome.next.injEq] at h
    exact ⟨u, walkTree_only hw, h.symm⟩

theorem TreeAt.unique {s : State} {i : NodeIdx} {T T' : HTree} (h : TreeAt s i T)
    (h' : TreeAt s i T') : T = T' := by
  induction h generalizing T' with
  | leaf h1 h2 =>
    cases h' with
    | leaf => rfl
    | internal _ hk => rw [h2] at hk; simp at hk
  | internal h1 h2 _ _ ihl ihr =>
    cases h' with
    | leaf _ hk => rw [h2] at hk; simp at hk
    | internal _ _ hl hr => rw [ihl hl, ihr hr]

/-! ### The command -/

/-- The tree in `s` is the one that `BUILD` makes from the counts of `s0`. -/
structure TreeReady (s0 s : State) : Prop where
  root : s.root = (buildState s0).root
  empty : s.empty = decide (presentCount s0 = 0)
  nodes : ∀ i : NodeIdx, i.toNat < 2 * presentCount s0 - 1 → nodeAt s i = nodeAt (buildState s0) i

/-- The state after an `ASSIGN` that emitted `xs`, before its response. -/
def assigned (s : State) (xs : List LeafPath) : State :=
  { consumeTree (xs.foldl emitPath (clearAssign s)) with sp := 0, ix := 0, ph := .idle }

/-- What holds of the leaf paths of the tree that `BUILD` makes from `s0` (R127, R138). -/
structure PathFacts (s0 : State) (xs : List LeafPath) : Prop where
  leaves : (xs.map fun x => (x.sym, x.weight)).Perm (leafList s0)
  depth_le : ∀ x ∈ xs, x.depth ≤ presentCount s0 - 1
  depth_pos : 2 ≤ presentCount s0 → ∀ x ∈ xs, 1 ≤ x.depth
  path_lt : ∀ x ∈ xs, x.path < 2 ^ x.depth
  disjoint : xs.Pairwise fun x y => (x.path + 1) * 2 ^ (255 - x.depth) ≤ y.path * 2 ^ (255 - y.depth)
  kraft : 1 ≤ presentCount s0 → (xs.map fun x => 2 ^ (255 - x.depth)).sum = 2 ^ 255
  zero : 1 ≤ presentCount s0 → ∃ x rest, xs = x :: rest ∧ x.path = 0 ∧ ∀ y ∈ rest, 0 < y.path
  cost : (xs.map fun x => x.weight.toNat * x.depth).sum =
    innerTotal (buildState s0) (presentCount s0) (presentCount s0 - 1)
  tree : 1 ≤ presentCount s0 →
    ∃ T : HTree, xs = T.paths 0 0 ∧ ∀ s, TreeReady s0 s → TreeAt s s.root T

theorem treeReady_build (s : State) : TreeReady s (buildState s) :=
  ⟨rfl, (buildState_counts s).empty, fun _ _ => rfl⟩

theorem leafList_empty {s : State} (h : presentCount s = 0) : leafList s = [] := by
  rw [← List.length_eq_zero_iff, leafList_length, h]

/-- `ASSIGN` on a ready tree: it executes, and what it emits depends on FREQ alone (R113, R138). -/
theorem execAssign_spec (s0 : State) : ∃ xs, PathFacts s0 xs ∧ ∀ s, s.built = true →
    TreeReady s0 s → execAssign s = respond .ok .nothing (assigned s xs) := by
  by_cases hk : presentCount s0 = 0
  · refine ⟨[], ⟨by rw [leafList_empty hk]; simp, by simp, by simp, by simp, List.Pairwise.nil,
      by omega, by omega, ?_, by omega⟩, ?_⟩
    · rw [hk]; rfl
    · intro s hb hr
      have he : (clearAssign s).empty = true := by
        rw [clearAssign_empty, hr.empty, hk]; rfl
      unfold execAssign walkTree
      rw [if_neg (by simp [hb]), if_pos he]
      rfl
  · obtain ⟨T, hT, hL, hS, hI⟩ := buildState_tree (s := s0) (by omega)
    obtain ⟨hinv, -⟩ := buildState_inv s0
    have hcn := buildState_counts s0
    have hkle := presentCount_le s0
    have hheight : T.height < presentCount s0 := by
      rw [← leafList_length, ← hL.length_eq]; exact T.height_lt_leaves
    have hat : ∀ s, TreeReady s0 s → TreeAt s s.root T := by
      intro s hr
      rw [hr.root]
      refine treeAt_congr (N := 2 * presentCount s0 - 1) ?_ hr.nodes hT ?_
      · intro i hi hki
        have hin := hinv.children (by rw [hcn.next]; exact hi) hki
        exact ⟨by have := hin.left_lt; omega, by have := hin.right_lt; omega⟩
      · rw [hcn.root]; omega
    refine ⟨T.paths 0 0, ⟨?_, ?_, ?_, ?_, ?_, ?_, ?_, ?_, fun _ => ⟨T, rfl, hat⟩⟩, ?_⟩
    · rw [HTree.paths_leaves]; exact hL
    · intro x hx; have := (HTree.paths_depth hx).2; omega
    · intro h2 x hx
      cases T with
      | leaf b w =>
        have := hL.length_eq
        rw [leafList_length] at this
        simp only [HTree.leaves, List.length_singleton] at this
        omega
      | internal w l r => exact HTree.paths_depth_pos hx
    · exact fun x hx => HTree.paths_path_lt hx
    · exact HTree.paths_disjoint (by omega)
    · intro _; exact HTree.paths_kraft (M := 255) (by omega)
    · exact fun _ => HTree.paths_zero T 0
    · rw [HTree.paths_cost, hS.cost_zero, hI]
    · intro s hb hr
      have he : (clearAssign s).empty = false := by
        rw [clearAssign_empty, hr.empty]; simp [hk]
      have hT' : TreeAt s s.root T := hat s hr
      have hw := walk_spec hT' 255 0 0 (by omega) (clearAssign s) rfl
      unfold execAssign walkTree
      rw [if_neg (by simp [hb]), if_neg (by rw [he]; simp)]
      have hw' : walk Config.MAXLEN (clearAssign s).root 0 0 (clearAssign s) =
          .ok ((T.paths 0 0).foldl emitPath (clearAssign s)) := hw
      rw [hw']
      rfl

end Sys2Proof.Machine
end

