-- ==== Sys2Proof/Laws/Outside.lean ====
section
/-! SUPPORT. The fields that BUILD, ASSIGN and the micro-operations never look at: ERR, ERRCODE, the
data word, the held response and the host's inputs (spec/60_exceptions.md rule R152,
spec/30_encoding.md rule R68). Each operation commutes with a change of them. -/

namespace Sys2Proof.Machine

/-- `s` with other values outside the machine's tree and table. -/
def outside (s : State) (e : Bool) (c : RspCode) (d : Count) (r : Option Response)
    (h : List PortIn) : State :=
  { s with err := e, errcode := c, din := d, rsp := r, host := h }

variable (s : State) (e : Bool) (c : RspCode) (d : Count) (r : Option Response) (h : List PortIn)

theorem outside_self : outside s s.err s.errcode s.din s.rsp s.host = s := rfl

theorem freqAt_outside (b : Sym) : freqAt (outside s e c d r h) b = freqAt s b := rfl

theorem nodeAt_outside (i : NodeIdx) : nodeAt (outside s e c d r h) i = nodeAt s i := rfl

theorem candAt_outside (i : NodeIdx) : candAt (outside s e c d r h) i = candAt s i := rfl

theorem codeAt_outside (b : Sym) : codeAt (outside s e c d r h) b = codeAt s b := rfl

theorem stkAt_outside (j : Nat) : stkAt (outside s e c d r h) j = stkAt s j := rfl

theorem candidates_outside : candidates (outside s e c d r h) = candidates s :=
  List.filter_congr fun i _ => candAt_outside s e c d r h i

theorem candCount_outside : candCount (outside s e c d r h) = candCount s := by
  rw [candCount, candidates_outside, candCount]

theorem leastBy_congr {k k' : NodeIdx → BitVec (Config.WW + Config.IDXW)} {l : List NodeIdx}
    (hk : ∀ i ∈ l, k i = k' i) : leastBy k l = leastBy k' l := by
  induction l with
  | nil => rfl
  | cons i l ih =>
    have ih := ih fun j hj => hk j (List.mem_cons_of_mem _ hj)
    simp only [leastBy, ih]
    cases hm : leastBy k' l with
    | none => rfl
    | some m =>
      have hmem := (leastBy_some hm).1
      simp only [hk m (List.mem_cons_of_mem _ hmem), hk i (List.mem_cons_self ..)]

theorem leastCandidate_outside : leastCandidate (outside s e c d r h) = leastCandidate s := by
  have hk : key (outside s e c d r h) = key s := rfl
  rw [leastCandidate, leastCandidate, candidates_outside, hk]

theorem leafStep_outside (b : Sym) :
    leafStep (outside s e c d r h) b = outside (leafStep s b) e c d r h := by
  by_cases hb : freqAt s b = 0
  · rw [leafStep_absent hb, leafStep_absent (by rw [freqAt_outside]; exact hb)]
  · rw [leafStep_present hb, leafStep_present (by rw [freqAt_outside]; exact hb)]
    rfl

theorem firstExtracted_outside :
    firstExtracted (outside s e c d r h) = outside (firstExtracted s) e c d r h := by
  unfold firstExtracted
  rw [leastCandidate_outside]
  generalize leastCandidate s = m
  rfl

theorem bothExtracted_outside :
    bothExtracted (outside s e c d r h) = outside (bothExtracted s) e c d r h := by
  unfold bothExtracted
  rw [firstExtracted_outside, leastCandidate_outside]
  generalize firstExtracted s = u
  generalize leastCandidate u = m
  rfl

theorem mergedNode_outside (m1 m2 : NodeIdx) :
    mergedNode (outside s e c d r h) m1 m2 = mergedNode s m1 m2 := rfl

theorem mergeRound_outside :
    mergeRound (outside s e c d r h) = outside (mergeRound s) e c d r h := by
  rw [mergeRound_eq, mergeRound_eq, bothExtracted_outside, leastCandidate_outside,
    firstExtracted_outside, leastCandidate_outside, mergedNode_outside]
  generalize mergedNode _ _ _ = n
  generalize bothExtracted s = u
  rfl

theorem makeLeaves_outside :
    makeLeaves (outside s e c d r h) = outside (makeLeaves s) e c d r h := by
  unfold makeLeaves
  induction allSyms generalizing s with
  | nil => rfl
  | cons b l ih => rw [List.foldl_cons, List.foldl_cons, leafStep_outside, ih]

theorem mergeAll_outside (fuel : Nat) :
    mergeAll fuel (outside s e c d r h) = outside (mergeAll fuel s) e c d r h := by
  induction fuel generalizing s with
  | zero => rfl
  | succ n ih =>
    unfold mergeAll
    rw [candCount_outside]
    split
    · rw [mergeRound_outside, ih]
    · rfl

theorem mergeIfTwo_outside :
    mergeIfTwo (outside s e c d r h) = outside (mergeIfTwo s) e c d r h := by
  unfold mergeIfTwo
  rw [mergeAll_outside]
  show (if 2 ≤ s.nleaf.toNat then _ else _) = _
  split <;> rfl

theorem clearBuild_outside :
    clearBuild (outside s e c d r h) = outside (clearBuild s) e c d r h := rfl

theorem buildState_outside :
    buildState (outside s e c d r h) = outside (buildState s) e c d r h := by
  unfold buildState
  rw [clearBuild_outside, makeLeaves_outside, mergeIfTwo_outside]
  generalize mergeIfTwo _ = v
  rfl

theorem emit_outside (n : Node) (l : Len) (p : Path) :
    emit (outside s e c d r h) n l p = outside (emit s n l p) e c d r h := rfl

theorem walk_outside (room : Nat) (n : NodeIdx) (l : Len) (p : Path) :
    walk room n l p (outside s e c d r h) =
      (walk room n l p s).map fun t => outside t e c d r h := by
  induction room generalizing n l p s with
  | zero =>
    simp only [walk, nodeAt_outside]
    split
    · cases (nodeAt s n).kind <;> rfl
    · rfl
  | succ room ih =>
    simp only [walk, nodeAt_outside]
    split
    · cases (nodeAt s n).kind with
      | leaf => rfl
      | internal =>
        simp only []
        rw [ih]
        cases walk room (nodeAt s n).left (l + 1) (2 * p) s with
        | error x => rfl
        | ok u => exact ih u _ _ _
    · rfl

theorem walkTree_outside :
    walkTree (outside s e c d r h) = (walkTree s).map fun t => outside t e c d r h := by
  unfold walkTree
  rw [show (outside s e c d r h).empty = s.empty from rfl]
  split
  · rfl
  · exact walk_outside s e c d r h _ _ _ _

/-- `ASSIGN`, once it is not refused, does the same whatever stands outside. -/
theorem execAssign_outside (hb : s.built = true) :
    execAssign (outside s e c d r h) =
      mapNext (fun t => outside t e c d (some ⟨.ok, .nothing⟩) h) (execAssign s) := by
  have hb' : (outside s e c d r h).built ≠ false := by
    rw [show (outside s e c d r h).built = s.built from rfl, hb]; decide
  have hb0 : s.built ≠ false := by rw [hb]; decide
  have h1 : clearAssign (outside s e c d r h) = outside (clearAssign s) e c d r h := rfl
  rw [execAssign, if_neg hb', h1, walkTree_outside, execAssign, if_neg hb0]
  cases walkTree (clearAssign s) with
  | error x => rfl
  | ok u => rfl

end Sys2Proof.Machine
end

