-- ==== Sys2Proof/Laws/Determinism.lean ====
section
/-! SUPPORT. BUILD is a function of FREQ alone (spec/41_tree_build.md rule R106), and with it ASSIGN
after BUILD (spec/42_encoding_assign.md rule R138 item 8). -/

namespace Sys2Proof.Machine

/-- Two states in which the same tree is in the making. -/
structure SameWork (s t : State) : Prop where
  next : t.next = s.next
  nleaf : t.nleaf = s.nleaf
  cand : CandKept s t
  nodes : ∀ i : NodeIdx, i.toNat < s.next.toNat → nodeAt t i = nodeAt s i

theorem presentSyms_congr {s t : State} (h : FreqKept s t) : presentSyms t = presentSyms s :=
  List.filter_congr fun b _ => by rw [h b]

theorem presentCount_congr {s t : State} (h : FreqKept s t) : presentCount t = presentCount s := by
  rw [presentCount, presentSyms_congr h, presentCount]

theorem leafList_congr {s t : State} (h : FreqKept s t) : leafList t = leafList s := by
  rw [leafList, leafList, presentSyms_congr h]
  exact List.map_congr_left fun b _ => by rw [h b]

theorem sameWork_leaves {s t : State} (h : FreqKept s t) :
    SameWork (makeLeaves (clearBuild s)) (makeLeaves (clearBuild t)) := by
  have hs := makeLeaves_spec s
  have ht := makeLeaves_spec t
  rw [presentSyms_congr h] at ht
  have hn : (makeLeaves (clearBuild t)).next = (makeLeaves (clearBuild s)).next :=
    BitVec.eq_of_toNat_eq (by rw [ht.next, hs.next])
  refine ⟨hn, by rw [ht.nleaf, hs.nleaf, hn], fun i => by rw [ht.cand, hs.cand], fun i hi => ?_⟩
  rw [hs.next] at hi
  have e1 := ht.leaf i.toNat hi
  have e2 := hs.leaf i.toNat hi
  simp only [BitVec.ofNat_toNat, BitVec.setWidth_eq] at e1 e2
  rw [e1, e2, leafNode, leafNode]
  have : freqAt (clearBuild t) (presentSyms s)[i.toNat] =
      freqAt (clearBuild s) (presentSyms s)[i.toNat] := h _
  rw [this]

theorem SameWork.candidates {s t : State} (h : SameWork s t) : candidates t = candidates s :=
  List.filter_congr fun i _ => h.cand i

theorem SameWork.candCount {s t : State} (h : SameWork s t) : candCount t = candCount s := by
  rw [Machine.candCount, h.candidates, Machine.candCount]

/-- Equal candidates with equal nodes give the same extraction (R92). -/
theorem leastCandidate_congr {s t : State} (hc : Machine.candidates t = Machine.candidates s)
    (hn : ∀ i ∈ Machine.candidates s, nodeAt t i = nodeAt s i) :
    leastCandidate t = leastCandidate s := by
  rw [leastCandidate, leastCandidate, hc,
    leastBy_congr (k := key t) (k' := key s) fun i hi => by rw [key, key, hn i hi]]

theorem SameWork.round {L : List (Sym × Weight)} {s t : State} (h : SameWork s t)
    (hi : MergeInv L s) (hc : 2 ≤ Machine.candCount s) : SameWork (mergeRound s) (mergeRound t) := by
  have hcand : ∀ i ∈ Machine.candidates s, nodeAt t i = nodeAt s i := fun i hm =>
    h.nodes i (hi.candlt i (mem_candidates.1 hm).2)
  have e1 : leastCandidate t = leastCandidate s := leastCandidate_congr h.candidates hcand
  have e2 : leastCandidate (firstExtracted t) = leastCandidate (firstExtracted s) := by
    refine leastCandidate_congr (List.filter_congr fun i _ => ?_) fun i hm => ?_
    · rw [candAt_firstExtracted, candAt_firstExtracted, e1, h.cand i]
    · have := (mem_candidates.1 hm).2
      rw [candAt_firstExtracted] at this
      split at this
      · simp at this
      · exact h.nodes i (hi.candlt i this)
  have hr := roundFacts hc
  have l1 := hi.candlt _ hr.cand1
  have l2 := hi.candlt _ hr.cand2
  have hs := hi.next_succ hc
  refine ⟨by rw [next_mergeRound, next_mergeRound, h.next],
    by rw [nleaf_mergeRound, nleaf_mergeRound, h.nleaf], fun i => ?_, fun i hlt => ?_⟩
  · rw [candAt_mergeRound, candAt_mergeRound, e1, e2, h.next, h.cand i]
  · rw [nodeAt_mergeRound, nodeAt_mergeRound, e1, e2, h.next]
    by_cases hin : i = s.next
    · rw [if_pos hin, if_pos hin, mergedNode, mergedNode, h.nodes _ l1, h.nodes _ l2]
    · rw [if_neg hin, if_neg hin]
      rw [hs] at hlt
      have : i.toNat ≠ s.next.toNat := fun e => hin (BitVec.eq_of_toNat_eq e)
      exact h.nodes i (by omega)

theorem SameWork.all {L : List (Sym × Weight)} (fuel : Nat) {s t : State} (h : SameWork s t)
    (hi : MergeInv L s) : SameWork (mergeAll fuel s) (mergeAll fuel t) := by
  induction fuel generalizing s t with
  | zero => exact h
  | succ n ih =>
    unfold mergeAll
    rw [h.candCount]
    split
    · rename_i hc
      exact ih (h.round hi hc) (hi.step hc)
    · exact h

/-- Two `BUILD` from equal counts leave the same tree, counts and flags (R106). -/
structure SameTree (s t : State) : Prop where
  next : t.next = s.next
  nleaf : t.nleaf = s.nleaf
  root : t.root = s.root
  empty : t.empty = s.empty
  single : t.single = s.single
  nodes : ∀ i : NodeIdx, i.toNat < s.next.toNat → nodeAt t i = nodeAt s i

theorem buildState_sameTree {s t : State} (h : FreqKept s t) :
    SameTree (buildState s) (buildState t) := by
  have hw : SameWork (mergeIfTwo (makeLeaves (clearBuild s)))
      (mergeIfTwo (makeLeaves (clearBuild t))) := by
    have h0 := sameWork_leaves h
    have hi := mergeInv_leaves s
    generalize makeLeaves (clearBuild s) = u at h0 hi
    generalize makeLeaves (clearBuild t) = v at h0
    unfold mergeIfTwo
    rw [h0.nleaf]
    split
    · exact h0.all _ hi
    · exact h0
  unfold buildState
  generalize mergeIfTwo (makeLeaves (clearBuild s)) = u at hw
  generalize mergeIfTwo (makeLeaves (clearBuild t)) = v at hw
  refine ⟨hw.next, hw.nleaf, ?_, ?_, ?_, hw.nodes⟩
  · show rootIndex v.nleaf v.next = rootIndex u.nleaf u.next
    rw [hw.nleaf, hw.next]
  · show emptyFlag v.nleaf = emptyFlag u.nleaf
    rw [hw.nleaf]
  · show singleFlag v.nleaf = singleFlag u.nleaf
    rw [hw.nleaf]

/-- A tree that is ready for the counts of `s0` is ready for those of a state with equal counts. -/
theorem TreeReady.congr {s0 t0 s : State} (h : FreqKept s0 t0) (hr : TreeReady s0 s) :
    TreeReady t0 s := by
  have hT := buildState_sameTree h
  have hc := presentCount_congr h
  refine ⟨hr.root.trans hT.root.symm, by rw [hc]; exact hr.empty, fun i hi => ?_⟩
  rw [hc] at hi
  rw [hr.nodes i hi, hT.nodes i (by rw [(buildState_counts s0).next]; exact hi)]

end Sys2Proof.Machine
end

