-- ==== Sys2Proof/Laws/Exec.lean ====
section
/-! SUPPORT. What the shared operations do, once: `respond`, `refuse`, `invalidate`, and the branches of
`tick` (spec/60_exceptions.md rule R150, spec/10_state.md rules R36, R37). -/

namespace Sys2Proof.Machine

theorem AllButErrorKept.refl (s : State) : AllButErrorKept s s :=
  ⟨fun _ => rfl, fun _ => rfl, fun _ => rfl, fun _ => rfl, fun _ => rfl, ⟨rfl, rfl, rfl⟩,
    ⟨rfl, rfl, rfl, rfl⟩, ⟨rfl, rfl, rfl⟩, ⟨rfl, rfl⟩, ⟨rfl, rfl⟩, ⟨rfl, rfl⟩⟩

/-- `respond` changes the response and nothing else (R77). -/
theorem respond_spec (s : State) (c : RspCode) (d : RspData) :
    ∃ t, respond c d s = .next t ∧ Responds t c d ∧ StateKept s t :=
  ⟨_, rfl, rfl, AllButErrorKept.refl s, rfl, rfl⟩

/-- `refuse` writes the error record and the response, and nothing else (R150). -/
theorem refuse_spec (s : State) (c : RspCode) : ∃ t, refuse c s = .next t ∧ Refused s t c := by
  refine ⟨_, rfl, AllButErrorKept.refl s, rfl, fun h => ?_, fun h => ?_, rfl⟩ <;>
    simp [nextErrcode, h]

theorem invalidate_spec (s : State) : Invalidated (invalidate s) :=
  ⟨rfl, rfl, rfl, rfl, rfl, rfl, rfl, rfl, rfl⟩

/-- Every command but the two long ones is executed whole in the refined machine as well (R30). -/
theorem startMicro_short {i : Instr} (h1 : i ≠ .build) (h2 : i ≠ .assign) (s : State) :
    startMicro i s = exec i s := by
  cases i <;> first | exact absurd rfl h1 | exact absurd rfl h2 | rfl

/-! ### The branches of `tick` -/

section

variable {run : Instr → State → Host.Outcome State Fault Refusal} {s : State}

/-- Reset comes first (R162). -/
theorem tick_rst (h : (portIn s).rst = true) : tick run s = .next (resetBy (hostRest s)) := by
  simp only [tick, h, if_true]

/-- A command in progress takes one micro-operation (R30). -/
theorem tick_busy (h : (portIn s).rst = false) (hp : s.ph ≠ .idle) :
    tick run s = microOp (takeResponse (portIn s) (hostRest s)) := by
  simp only [tick, h, Bool.false_eq_true, if_false]
  exact if_pos hp

/-- A word that is presented when the port is ready is accepted (R36). -/
theorem tick_presents (h : Presents s) : tick run s = accept run (portIn s) (hostRest s) := by
  obtain ⟨h1, h2, h3⟩ := h
  have hp : ¬s.ph ≠ .idle := by
    simp only [cmdReady, Bool.and_eq_true, decide_eq_true_eq] at h1
    simp [h1.1]
  simp only [tick, h1, h2, h3, hp, Bool.and_self, if_true, if_false, Bool.false_eq_true]

/-- Otherwise the port only takes the response (R37). -/
theorem tick_quiet (h : (portIn s).rst = false) (hp : s.ph = .idle)
    (hn : (cmdReady s && (portIn s).cmdValid) = false) :
    tick run s = .next (takeResponse (portIn s) (hostRest s)) := by
  have hp' : ¬s.ph ≠ .idle := by simp [hp]
  simp only [tick, h, hn, hp', if_false, Bool.false_eq_true]

/-- An accepted command runs in `accepted s` (R36, R74). -/
theorem accept_command {i : Instr} (h : decode (portIn s).cmd = .command i) :
    accept run (portIn s) (hostRest s) = run i (accepted s) := by
  simp only [accept, h]; rfl

/-- Any other word is refused (R145). -/
theorem accept_illegal (h : ∀ i, decode (portIn s).cmd ≠ .command i) :
    accept run (portIn s) (hostRest s) = refuse .illegal (accepted s) := by
  cases hd : decode (portIn s).cmd with
  | command i => exact absurd hd (h i)
  | reservedOpcode => simp only [accept, hd]; rfl
  | reservedBits => simp only [accept, hd]; rfl

/-- What one sampling of the port can be: reset, one micro-operation, an accepted command, an illegal
word, or nothing but the response taken. -/
theorem tick_cases (run : Instr → State → Host.Outcome State Fault Refusal) (s : State) :
    ((portIn s).rst = true ∧ tick run s = .next (resetBy (hostRest s))) ∨
    ((portIn s).rst = false ∧ s.ph ≠ .idle ∧
      tick run s = microOp (takeResponse (portIn s) (hostRest s))) ∨
    (∃ i, Accepts s i ∧ tick run s = run i (accepted s)) ∨
    (Presents s ∧ tick run s = refuse .illegal (accepted s)) ∨
    ((portIn s).rst = false ∧ s.ph = .idle ∧
      tick run s = .next (takeResponse (portIn s) (hostRest s))) := by
  cases h : (portIn s).rst with
  | true => exact .inl ⟨rfl, tick_rst h⟩
  | false =>
    by_cases hp : s.ph = .idle
    · cases hn : (cmdReady s && (portIn s).cmdValid) with
      | false => exact .inr (.inr (.inr (.inr ⟨rfl, hp, tick_quiet h hp hn⟩)))
      | true =>
        rw [Bool.and_eq_true] at hn
        have hpres : Presents s := ⟨hn.1, h, hn.2⟩
        by_cases hd : ∃ i, decode (portIn s).cmd = .command i
        · obtain ⟨i, hi⟩ := hd
          exact .inr (.inr (.inl ⟨i, ⟨hn.1, h, hn.2, hi⟩,
            (tick_presents hpres).trans (accept_command hi)⟩))
        · exact .inr (.inr (.inr (.inl ⟨hpres, (tick_presents hpres).trans
            (accept_illegal fun i hi => hd ⟨i, hi⟩)⟩)))
    · exact .inr (.inl ⟨rfl, hp, tick_busy h hp⟩)

end

end Sys2Proof.Machine
end

