-- ==== Sys2Proof/Laws/Canonical.lean ====
section
/-! SUPPORT. Every operation over the memories keeps their canonical form (log entry 8). -/

namespace Sys2Proof.Machine

/-- The canonical form speaks of the five memories alone. -/
theorem MemoriesCanonical.congr {s t : State} (h : MemoriesCanonical s) (h1 : t.freq = s.freq)
    (h2 : t.node = s.node) (h3 : t.code = s.code) (h4 : t.cand = s.cand) (h5 : t.stk = s.stk) :
    MemoriesCanonical t := by
  unfold MemoriesCanonical at *
  rwa [h1, h2, h3, h4, h5]

theorem sym_lt (b : Sym) : b.toNat < Config.NSYM := b.isLt

theorem MemoriesCanonical.setFreq {s : State} (h : MemoriesCanonical s) (b : Sym) (c : Count) :
    MemoriesCanonical (setFreq s b c) :=
  ⟨Memory.wf_write c h.1 (sym_lt b), h.2⟩

theorem MemoriesCanonical.setNode {s : State} (h : MemoriesCanonical s) {i : NodeIdx}
    (hi : i.toNat < Config.NNODE) (n : Node) : MemoriesCanonical (setNode s i n) :=
  ⟨h.1, Memory.wf_write n h.2.1 hi, h.2.2⟩

theorem MemoriesCanonical.setCode {s : State} (h : MemoriesCanonical s) (b : Sym) (e : CodeEntry) :
    MemoriesCanonical (setCode s b e) :=
  ⟨h.1, h.2.1, Memory.wf_write e h.2.2.1 (sym_lt b), h.2.2.2⟩

theorem MemoriesCanonical.setCand {s : State} (h : MemoriesCanonical s) {i : NodeIdx}
    (hi : i.toNat < Config.NNODE) (v : Bool) : MemoriesCanonical (setCand s i v) :=
  ⟨h.1, h.2.1, h.2.2.1, Memory.wf_write v h.2.2.2.1 hi, h.2.2.2.2⟩

theorem MemoriesCanonical.uncand {s : State} (h : MemoriesCanonical s) (i : NodeIdx) :
    MemoriesCanonical (Machine.setCand s i false) :=
  ⟨h.1, h.2.1, h.2.2.1, Memory.wf_erase i.toNat h.2.2.2.1, h.2.2.2.2⟩

theorem MemoriesCanonical.setStk {s : State} (h : MemoriesCanonical s) {j : Nat}
    (hj : j < Config.STKDEPTH) (e : StkEntry) : MemoriesCanonical (setStk s j e) :=
  ⟨h.1, h.2.1, h.2.2.1, h.2.2.2.1, Memory.wf_write e h.2.2.2.2 hj⟩

theorem MemoriesCanonical.leafStep {s : State} (h : MemoriesCanonical s) {b : Sym}
    (hn : freqAt s b ≠ 0 → s.next.toNat < Config.NNODE) : MemoriesCanonical (leafStep s b) := by
  by_cases hb : freqAt s b = 0
  · rw [leafStep_absent hb]; exact h
  · rw [leafStep_present hb]
    exact ((h.setNode (hn hb) _).setCand (hn hb) true).congr rfl rfl rfl rfl rfl

theorem MemoriesCanonical.mergeRound {s : State} (h : MemoriesCanonical s)
    (hn : s.next.toNat < Config.NNODE) : MemoriesCanonical (mergeRound s) := by
  have h1 : MemoriesCanonical (firstExtracted s) := by
    unfold firstExtracted
    generalize leastCandidate s = m
    exact (h.uncand m).congr rfl rfl rfl rfl rfl
  have h2 : MemoriesCanonical (bothExtracted s) := by
    unfold bothExtracted
    generalize firstExtracted s = u at h1
    generalize leastCandidate u = m
    exact (h1.uncand m).congr rfl rfl rfl rfl rfl
  rw [mergeRound_eq]
  generalize bothExtracted s = u at h2
  exact ((h2.setNode hn _).setCand hn true).congr rfl rfl rfl rfl rfl

theorem leafStep_next_le {s : State} {b : Sym} (hn : s.next.toNat < 511) :
    (leafStep s b).next.toNat ≤ s.next.toNat + 1 := by
  by_cases hb : freqAt s b = 0
  · rw [leafStep_absent hb]; omega
  · rw [leafStep_present hb]
    show (s.next + 1).toNat ≤ _
    rw [BitVec.toNat_add]
    show (s.next.toNat + 1) % 512 ≤ _
    omega

theorem MemoriesCanonical.leaves (l : List Sym) {s : State} (h : MemoriesCanonical s)
    (hn : s.next.toNat + l.length ≤ 511) : MemoriesCanonical (l.foldl Machine.leafStep s) := by
  induction l generalizing s with
  | nil => exact h
  | cons b l ih =>
    simp only [List.length_cons] at hn
    have hlt : s.next.toNat < 511 := by omega
    have := leafStep_next_le (b := b) hlt
    exact ih (h.leafStep fun _ => hlt) (by omega)

theorem MemoriesCanonical.mergeAll {L : List (Sym × Weight)} (fuel : Nat) {s : State}
    (h : MemoriesCanonical s) (hi : MergeInv L s) : MemoriesCanonical (mergeAll fuel s) := by
  induction fuel generalizing s with
  | zero => exact h
  | succ n ih =>
    unfold Machine.mergeAll
    split
    · rename_i hc
      exact ih (h.mergeRound (hi.next_lt hc)) (hi.step hc)
    · exact h

theorem MemoriesCanonical.build {s : State} (h : MemoriesCanonical s) :
    MemoriesCanonical (buildState s) := by
  have h0 : MemoriesCanonical (clearBuild s) := ⟨h.1, h.2.1, h.2.2.1, rfl, h.2.2.2.2⟩
  have h1 : MemoriesCanonical (makeLeaves (clearBuild s)) :=
    h0.leaves allSyms (by rw [allSyms_length]; show 0 + 256 ≤ 511; omega)
  have hi := mergeInv_leaves s
  have h2 : MemoriesCanonical (mergeIfTwo (makeLeaves (clearBuild s))) := by
    generalize makeLeaves (clearBuild s) = u at h1 hi
    unfold mergeIfTwo
    split
    · exact h1.mergeAll _ hi
    · exact h1
  unfold buildState
  generalize mergeIfTwo (makeLeaves (clearBuild s)) = v at h2
  exact h2.congr rfl rfl rfl rfl rfl

theorem MemoriesCanonical.emit {s : State} (h : MemoriesCanonical s) (n : Node) (d : Len)
    (p : Path) : MemoriesCanonical (emit s n d p) :=
  (h.setCode n.sym (leafCode d p)).congr rfl rfl rfl rfl rfl

theorem MemoriesCanonical.walk {room : Nat} {n : NodeIdx} {d : Len} {p : Path} {s u : State}
    (hs : MemoriesCanonical s) (h : walk room n d p s = .ok u) : MemoriesCanonical u := by
  induction room generalizing n d p s u with
  | zero =>
    unfold Machine.walk at h
    split at h
    · split at h
      · simp only [Except.ok.injEq] at h; rw [← h]; exact hs.emit ..
      · simp at h
    · simp at h
  | succ room ih =>
    unfold Machine.walk at h
    split at h
    · split at h
      · simp only [Except.ok.injEq] at h; rw [← h]; exact hs.emit ..
      · split at h
        · simp at h
        · rename_i hl
          exact ih (ih hs hl) h
    · simp at h

theorem MemoriesCanonical.assign {s t : State} (h : MemoriesCanonical s)
    (he : execAssign s = .next t) : MemoriesCanonical t := by
  unfold execAssign at he
  split at he
  · simp only [refuse, respond, Host.Outcome.next.injEq] at he
    rw [← he]; exact h.congr rfl rfl rfl rfl rfl
  · have h0 : MemoriesCanonical (clearAssign s) := ⟨h.1, h.2.1, rfl, h.2.2.2⟩
    split at he
    · simp at he
    · rename_i u hw
      have hu : MemoriesCanonical u := by
        unfold walkTree at hw
        split at hw
        · simp only [Except.ok.injEq] at hw; rw [← hw]; exact h0
        · exact h0.walk hw
      simp only [respond, Host.Outcome.next.injEq] at he
      rw [← he]; exact hu.congr rfl rfl rfl rfl rfl

/-- Every command that answers a next state keeps the canonical form. -/
theorem MemoriesCanonical.exec {i : Instr} {s t : State} (h : MemoriesCanonical s)
    (he : exec i s = .next t) : MemoriesCanonical t := by
  have same : ∀ c d u, respond c d u = .next t → MemoriesCanonical u → MemoriesCanonical t := by
    intro c d u hr hu
    simp only [respond, Host.Outcome.next.injEq] at hr
    rw [← hr]; exact hu.congr rfl rfl rfl rfl rfl
  have no : ∀ c, refuse c s = .next t → MemoriesCanonical t := fun c hr =>
    same _ _ _ hr (h.congr rfl rfl rfl rfl rfl)
  cases i with
  | nop => exact same _ _ _ he h
  | clr => exact same _ _ _ he ⟨rfl, h.2⟩
  | wrf b => exact same _ _ _ he ((h.setFreq b s.din).congr rfl rfl rfl rfl rfl)
  | rdf b => exact same _ _ _ he h
  | build => exact same _ _ _ he h.build
  | assign => exact h.assign he
  | rds => exact same _ _ _ he h
  | rdn n =>
    simp only [Machine.exec, execRdn] at he
    split at he
    · exact no _ he
    · split at he
      · exact no _ he
      · exact same _ _ _ he h
  | rdc b | rdw b =>
    simp only [Machine.exec, execRdc, execRdw] at he
    split at he
    · exact no _ he
    · exact same _ _ _ he h

/-- Every micro-operation keeps the canonical form, in every state. -/
theorem MemoriesCanonical.microOp {s t : State} (h : MemoriesCanonical s)
    (he : microOp s = .next t) : MemoriesCanonical t := by
  have fin : ∀ u, completeBuild u = .next t → MemoriesCanonical u → MemoriesCanonical t := by
    intro u hr hu
    simp only [completeBuild, respond, Host.Outcome.next.injEq] at hr
    rw [← hr]; exact hu.congr rfl rfl rfl rfl rfl
  unfold Machine.microOp at he
  split at he
  · simp only [Host.Outcome.next.injEq] at he; rw [← he]; exact h
  · split at he
    · simp only [microB1] at he
      split at he
      · simp at he
      · rename_i hno
        simp only [Host.Outcome.next.injEq] at he
        rw [← he]
        refine (h.leafStep (b := s.ix.setWidth Config.SYMW) fun hb => ?_).congr rfl rfl rfl rfl rfl
        have := s.next.isLt
        have hne : ¬s.next.toNat = Config.NNODE := fun e => hno ⟨hb, e⟩
        simp only [Config.NNODE] at hne ⊢
        omega
    · split at he
      · simp only [microB2] at he
        split at he
        · simp only [Host.Outcome.next.injEq] at he
          rw [← he]; exact h.congr rfl rfl rfl rfl rfl
        · exact fin _ he h
      · simp at he
  · split at he
    · simp only [microB3] at he
      split at he
      · simp at he
      · rename_i hne
        simp only [Host.Outcome.next.injEq] at he
        rw [← he]
        have := s.next.isLt
        simp only [Config.NNODE] at hne
        exact h.mergeRound (by simp only [Config.NNODE]; omega)
    · split at he
      · exact fin _ he h
      · simp at he
  · split at he
    · simp only [Host.Outcome.next.injEq] at he
      rw [← he]; exact (h.setCode _ codeFill).congr rfl rfl rfl rfl rfl
    · split at he
      · simp only [Host.Outcome.next.injEq] at he
        rw [← he]
        by_cases hem : s.empty = true
        · simp only [microA2, hem, if_true]
          exact h.congr rfl rfl rfl rfl rfl
        · simp only [microA2, hem]
          exact (h.setStk (j := 0) (by decide) ⟨s.root, 0, 0⟩).congr rfl rfl rfl rfl rfl
      · simp at he
  · split at he
    · simp only [microA4, respond, Host.Outcome.next.injEq] at he
      rw [← he]; exact h.congr rfl rfl rfl rfl rfl
    · simp only [microA3] at he
      split at he
      · simp at he
      · rename_i htop
        split at he
        · simp at he
        · split at he
          · simp only [Host.Outcome.next.injEq] at he
            rw [← he]
            refine MemoriesCanonical.emit ?_ ..
            exact h.congr rfl rfl rfl rfl rfl
          · split at he
            · simp at he
            · split at he
              · simp at he
              · rename_i htop2
                simp only [Host.Outcome.next.injEq] at he
                rw [← he]
                exact ((h.setStk (by omega) _).setStk (by omega) _).congr rfl rfl rfl rfl rfl

theorem MemoriesCanonical.reset : MemoriesCanonical State.reset := ⟨rfl, rfl, rfl, rfl, rfl⟩

end Sys2Proof.Machine
end

