-- ==== Sys2Proof/Laws/Table.lean ====
section
/-! SUPPORT. The table that ASSIGN makes (spec/42_encoding_assign.md rules R119, R122, R138): its
entries and sums, and that they are a function of FREQ alone. -/

namespace Sys2Proof.Machine

/-- In a consistent state with a current tree, the tree is the one `BUILD` makes (R40 item 5). -/
theorem Consistent.treeReady {s : State} (h : Consistent s) (hb : s.built = true) :
    TreeReady s s := by
  obtain ⟨hn, he, -, hm⟩ := h.tree hb
  have hc := buildState_counts s
  have hk := presentCount_le s
  refine ⟨BitVec.eq_of_toNat_eq ?_, he, fun i hi => hm i ?_⟩
  · rw [hc.root, h.rootPlace, hn]
  · rw [BitVec.lt_def, h.nextCount, hn]; exact hi

theorem PathFacts.syms {s0 : State} {xs : List LeafPath} (h : PathFacts s0 xs) :
    (xs.map LeafPath.sym).Perm (presentSyms s0) := by
  have hp := h.leaves.map Prod.fst
  rw [List.map_map, leafList, List.map_map] at hp
  have e : (presentSyms s0).map (Prod.fst ∘ fun b => (b, (freqAt s0 b).setWidth Config.WW)) =
      presentSyms s0 := List.map_id _
  rw [e] at hp
  exact hp

theorem PathFacts.nodup {s0 : State} {xs : List LeafPath} (h : PathFacts s0 xs) :
    (xs.map LeafPath.sym).Nodup := h.syms.nodup_iff.2 (presentSyms_nodup s0)

/-- Each present byte has exactly one leaf, of its count's weight (R104, R105). -/
theorem PathFacts.present {s0 : State} {xs : List LeafPath} (h : PathFacts s0 xs) {b : Sym}
    (hb : freqAt s0 b ≠ 0) :
    ∃ x ∈ xs, x.sym = b ∧ x.weight = (freqAt s0 b).setWidth Config.WW := by
  have hm : (b, (freqAt s0 b).setWidth Config.WW) ∈ leafList s0 :=
    List.mem_map.2 ⟨b, mem_presentSyms.2 hb, rfl⟩
  obtain ⟨x, hx, e⟩ := List.mem_map.1 (h.leaves.mem_iff.2 hm)
  simp only [Prod.mk.injEq] at e
  exact ⟨x, hx, e.1, e.2⟩

theorem PathFacts.sym_present {s0 : State} {xs : List LeafPath} (h : PathFacts s0 xs)
    {x : LeafPath} (hx : x ∈ xs) :
    freqAt s0 x.sym ≠ 0 ∧ x.weight = (freqAt s0 x.sym).setWidth Config.WW := by
  have hm : (x.sym, x.weight) ∈ leafList s0 :=
    h.leaves.mem_iff.1 (List.mem_map.2 ⟨x, hx, rfl⟩)
  obtain ⟨b, hb, e⟩ := List.mem_map.1 hm
  simp only [Prod.mk.injEq] at e
  obtain ⟨rfl, e2⟩ := e
  exact ⟨mem_presentSyms.1 hb, e2.symm⟩

theorem codeAt_clearAssign (s : State) (b : Sym) : codeAt (clearAssign s) b = codeFill := rfl

/-- An absent byte's entry is empty (R119). -/
theorem codeAt_assigned_absent {s0 s : State} {xs : List LeafPath} (h : PathFacts s0 xs) {b : Sym}
    (hb : freqAt s0 b = 0) : codeAt (assigned s xs) b = codeFill := by
  show codeAt (xs.foldl emitPath (clearAssign s)) b = _
  rw [codeAt_emitAll_absent, codeAt_clearAssign]
  intro hm
  obtain ⟨x, hx, rfl⟩ := List.mem_map.1 hm
  exact (h.sym_present hx).1 hb

/-- A leaf's byte has its leaf's entry (R116). -/
theorem codeAt_assigned_leaf {s0 s : State} {xs : List LeafPath} (h : PathFacts s0 xs)
    {x : LeafPath} (hx : x ∈ xs) : codeAt (assigned s xs) x.sym = x.entry :=
  codeAt_emitAll_present h.nodup hx _

/-! ### The fields of an entry -/

theorem LeafPath.entry_bits (x : LeafPath) (h : x.path < 2 ^ 255) :
    x.entry.bits.toNat = x.path := by
  show (BitVec.ofNat 255 x.path).toNat = _
  rw [BitVec.toNat_ofNat, Nat.mod_eq_of_lt h]

theorem LeafPath.entry_rawlen (x : LeafPath) (h : x.depth ≤ 255) :
    x.entry.rawlen.toNat = x.depth := by
  show (BitVec.ofNat 8 x.depth).toNat = _
  rw [BitVec.toNat_ofNat, Nat.mod_eq_of_lt (by omega)]

theorem LeafPath.entry_len (x : LeafPath) : x.entry.len.toNat = bitlen x.entry.bits := by
  show (BitVec.ofNat 8 (bitlen (BitVec.ofNat 255 x.path))).toNat = _
  have := bitlen_le_maxlen (BitVec.ofNat 255 x.path)
  rw [BitVec.toNat_ofNat, Nat.mod_eq_of_lt (by omega)]
  rfl

/-- What holds of a leaf's entry (R138 item 2). -/
structure EntryFacts (x : LeafPath) : Prop where
  bits : x.entry.bits.toNat = x.path
  rawlen : x.entry.rawlen.toNat = x.depth
  len : x.entry.len.toNat = bitlen x.entry.bits
  bits_lt : x.entry.bits.toNat < 2 ^ x.entry.rawlen.toNat
  len_le : x.entry.len.toNat ≤ x.entry.rawlen.toNat

theorem PathFacts.entry {s0 : State} {xs : List LeafPath} (h : PathFacts s0 xs) {x : LeafPath}
    (hx : x ∈ xs) : EntryFacts x := by
  have hd := h.depth_le x hx
  have hk := presentCount_le s0
  have hp := h.path_lt x hx
  have hlt : x.path < 2 ^ 255 :=
    Nat.lt_of_lt_of_le hp (Nat.pow_le_pow_right (by omega) (by omega))
  have h1 := x.entry_bits hlt
  have h2 := x.entry_rawlen (by omega)
  have h3 := x.entry_len
  have h4 : x.entry.bits.toNat < 2 ^ x.entry.rawlen.toNat := by rw [h1, h2]; exact hp
  exact ⟨h1, h2, h3, h4, by rw [h3]; exact bitlen_le h4⟩

/-! ### The sums -/

theorem leafWeights {s0 : State} {xs : List LeafPath} (h : PathFacts s0 xs) :
    (xs.map fun x => x.weight.toNat).sum = totalCount s0 := by
  rw [← leafTotal_leafList, ← leafTotal_perm h.leaves, leafTotal, List.map_map]
  rfl

theorem sum_le_mul {xs : List LeafPath} {f : LeafPath → Nat} {m : Nat} (h : ∀ x ∈ xs, f x ≤ m) :
    (xs.map fun x => x.weight.toNat * f x).sum ≤ (xs.map fun x => x.weight.toNat).sum * m := by
  induction xs with
  | nil => simp
  | cons x xs ih =>
    have h1 := h x (List.mem_cons_self ..)
    have h2 := ih fun y hy => h y (List.mem_cons_of_mem _ hy)
    simp only [List.map_cons, List.sum_cons, Nat.add_mul]
    have := Nat.mul_le_mul_left x.weight.toNat h1
    omega

/-- Both sums fit their registers (R124), so they are what R122 says of the leaves. -/
theorem assigned_sums {s0 s : State} {xs : List LeafPath} (h : PathFacts s0 xs) :
    (assigned s xs).wlenraw.toNat =
        (xs.map fun x => x.weight.toNat * x.entry.rawlen.toNat).sum ∧
      (assigned s xs).wlen.toNat = (xs.map fun x => x.weight.toNat * x.entry.len.toNat).sum := by
  have ht := totalCount_lt s0
  have h1 : ∀ f : LeafPath → Nat, (∀ x ∈ xs, f x ≤ 255) →
      (xs.map fun x => x.weight.toNat * f x).sum < 2 ^ 48 := fun f hf => by
    have := sum_le_mul hf
    rw [leafWeights h] at this
    omega
  have := sums_emitAll xs (clearAssign s)
    (by
      rw [show (clearAssign s).wlenraw.toNat = 0 from rfl, Nat.zero_add]
      exact h1 _ fun x _ => by have := x.entry.rawlen.isLt; simp only [Config.LENW] at this; omega)
    (by
      rw [show (clearAssign s).wlen.toNat = 0 from rfl, Nat.zero_add]
      exact h1 _ fun x _ => by have := x.entry.len.isLt; simp only [Config.LENW] at this; omega)
  rw [show (clearAssign s).wlenraw.toNat = 0 from rfl, Nat.zero_add,
    show (clearAssign s).wlen.toNat = 0 from rfl, Nat.zero_add] at this
  exact this

/-- A sum over the leaves is the sum over all byte values (R122). -/
theorem sum_over_bytes {s0 t : State} {xs : List LeafPath} (h : PathFacts s0 xs)
    (f : CodeEntry → Len) (ht : ∀ x ∈ xs, codeAt t x.sym = x.entry)
    (hz : ∀ b, freqAt t b = freqAt s0 b) :
    (xs.map fun x => x.weight.toNat * (f x.entry).toNat).sum = weightedSum t f := by
  have e1 : (xs.map fun x => x.weight.toNat * (f x.entry).toNat).sum =
      ((xs.map LeafPath.sym).map fun b => (freqAt t b).toNat * (f (codeAt t b)).toNat).sum := by
    rw [List.map_map]
    refine congrArg List.sum (List.map_congr_left fun x hx => ?_)
    simp only [Function.comp_apply]
    rw [ht x hx, hz, (h.sym_present hx).2, setWidth_count]
  rw [e1, (h.syms.map _).sum_eq, weightedSum]
  have : ∀ l : List Sym, ((l.filter fun b => freqAt s0 b ≠ 0).map fun b =>
      (freqAt t b).toNat * (f (codeAt t b)).toNat).sum =
      (l.map fun b => (freqAt t b).toNat * (f (codeAt t b)).toNat).sum := by
    intro l
    induction l with
    | nil => rfl
    | cons b l ih =>
      by_cases hb : freqAt s0 b = 0
      · rw [List.filter_cons_of_neg (by simpa using hb), ih]
        simp [hz, hb]
      · rw [List.filter_cons_of_pos (by simpa using hb)]
        simp only [List.map_cons, List.sum_cons, ih]
  exact this allSyms

/-! ### A function of FREQ -/

theorem emitAll_congr (xs : List LeafPath) {s t : State} (hc : t.code = s.code)
    (hr : t.wlenraw = s.wlenraw) (hl : t.wlen = s.wlen) :
    (xs.foldl emitPath t).code = (xs.foldl emitPath s).code ∧
      (xs.foldl emitPath t).wlenraw = (xs.foldl emitPath s).wlenraw ∧
      (xs.foldl emitPath t).wlen = (xs.foldl emitPath s).wlen := by
  induction xs generalizing s t with
  | nil => exact ⟨hc, hr, hl⟩
  | cons x xs ih =>
    refine ih ?_ ?_ ?_
    · show Memory.write _ t.code _ _ = Memory.write _ s.code _ _
      rw [hc]
    · show t.wlenraw + _ = s.wlenraw + _
      rw [hr]
    · show t.wlen + _ = s.wlen + _
      rw [hl]

theorem assigned_congr (xs : List LeafPath) (s t : State) :
    CodeKept (assigned s xs) (assigned t xs) ∧ SumsKept (assigned s xs) (assigned t xs) := by
  obtain ⟨h1, h2, h3⟩ := emitAll_congr xs (s := clearAssign s) (t := clearAssign t) rfl rfl rfl
  exact ⟨fun b => codeAt_congr h1 b, h3, h2⟩

/-- The table made from the present FREQ, whichever state it was made in (R40 item 6). -/
theorem tableMatchesFreq_iff (s : State) {xs : List LeafPath}
    (hx : ∀ u, u.built = true → TreeReady s u → execAssign u = respond .ok .nothing (assigned u xs))
    (u : State) : TableMatchesFreq s ↔ CodeKept (assigned u xs) s ∧ SumsKept (assigned u xs) s := by
  have he := hx (buildState s) (buildState_counts s).built (treeReady_build s)
  obtain ⟨h1, h2⟩ := assigned_congr xs u (buildState s)
  constructor
  · rintro ⟨t, ht, hc, hs⟩
    rw [he] at ht
    simp only [respond, Host.Outcome.next.injEq] at ht
    subst ht
    exact ⟨fun b => (hc b).trans (h1 b), hs.1.trans h2.1, hs.2.trans h2.2⟩
  · rintro ⟨hc, hs⟩
    exact ⟨_, he, fun b => (hc b).trans (h1 b).symm, hs.1.trans h2.1.symm, hs.2.trans h2.2.symm⟩

theorem FreqKept.symm {s t : State} (h : FreqKept s t) : FreqKept t s := fun b => (h b).symm

/-- Equal counts, codes and sums: the table still matches. -/
theorem TableMatchesFreq.congr {s t : State} (hf : FreqKept s t) (hc : CodeKept s t)
    (hs : SumsKept s t) (h : TableMatchesFreq s) : TableMatchesFreq t := by
  obtain ⟨xs, -, hx⟩ := execAssign_spec s
  have hx' : ∀ u, u.built = true → TreeReady t u →
      execAssign u = respond .ok .nothing (assigned u xs) := fun u hb hr =>
    hx u hb (hr.congr hf.symm)
  obtain ⟨h1, h2⟩ := (tableMatchesFreq_iff s hx s).1 h
  exact (tableMatchesFreq_iff t hx' s).2 ⟨fun b => (hc b).trans (h1 b), hs.1.trans h2.1,
    hs.2.trans h2.2⟩

theorem NodesMatchFreq.congr {s t : State} (hf : FreqKept s t) (hn : t.next = s.next)
    (hle : s.next.toNat ≤ (buildState s).next.toNat)
    (hk : ∀ i, i < s.next → nodeAt t i = nodeAt s i) (h : NodesMatchFreq s) : NodesMatchFreq t := by
  intro i hi
  rw [hn] at hi
  rw [hk i hi, h i hi, (buildState_sameTree hf).nodes i]
  rw [BitVec.lt_def] at hi
  omega

end Sys2Proof.Machine
end

