-- ==== Sys2Proof/Laws/Consistency.lean ====
section
/-! SUPPORT. The facts of spec/10_state.md rule R40 across each kind of command: one that keeps
everything but the error record, one that withdraws, BUILD, and ASSIGN. -/

namespace Sys2Proof.Machine

/-- The facts speak of no more than this. -/
theorem Consistent.transport {s t : State} (h : Consistent s) (hf : FreqKept s t)
    (hn : NodeKept s t) (hc : CodeKept s t) (hk : CountsKept s t) (hF : FlagsKept s t)
    (hq : SequencerKept s t) (hs : SumsKept s t) (he : t.err = false ↔ t.errcode = .ok)
    (hm : MemoriesCanonical t) : Consistent t := by
  obtain ⟨⟨k1, k2, k3⟩, ⟨f1, f2, f3, f4⟩, ⟨q1, q2, q3⟩⟩ := And.intro hk (And.intro hF hq)
  refine ⟨by rw [q1, q2]; exact h.idle, by rw [q3]; exact h.stack,
    by rw [f3, f4, k2]; exact h.emptySingle, by rw [k1, k2]; exact h.nextCount,
    by rw [k2, k3]; exact h.rootPlace, ?_, ?_, ?_, he, by rw [k2]; exact h.leafBound, hm⟩
  · intro hb
    rw [f1] at hb
    obtain ⟨h1, h2, h3, h4⟩ := h.tree hb
    rw [presentCount_congr hf, k2, f3, f4]
    refine ⟨h1, h2, h3, h4.congr hf k1 ?_ fun i _ => hn i⟩
    rw [(buildState_counts s).next, h.nextCount, h1]
  · intro hv
    rw [f2] at hv
    exact (h.table hv).congr hf hc hs
  · intro hb hv
    rw [f1] at hb
    rw [f2] at hv
    obtain ⟨-, -, i3, i4, i5, i6, i7, i8, i9⟩ := h.withdrawn hb hv
    exact ⟨f1.trans hb, f2.trans hv, f3.trans i3, f4.trans i4, k2.trans i5, k1.trans i6,
      k3.trans i7, hs.1.trans i8, hs.2.trans i9⟩

/-- A command that writes nothing but the error record and the response keeps the facts. -/
theorem Consistent.kept {s t : State} (h : Consistent s) (hk : AllButErrorKept s t)
    (he : t.err = false ↔ t.errcode = .ok) (hm : MemoriesCanonical t) : Consistent t :=
  h.transport hk.1 hk.2.1 hk.2.2.1 hk.2.2.2.2.2.1 hk.2.2.2.2.2.2.1 hk.2.2.2.2.2.2.2.1
    hk.2.2.2.2.2.2.2.2.2.1 he hm

/-- The facts do not speak of the data word, the response or the host's inputs. -/
theorem Consistent.port {s : State} (h : Consistent s) (d : Count) (r : Option Response)
    (q : List PortIn) : Consistent (outside s s.err s.errcode d r q) :=
  h.transport (fun _ => rfl) (fun _ => rfl) (fun _ => rfl) ⟨rfl, rfl, rfl⟩ ⟨rfl, rfl, rfl, rfl⟩
    ⟨rfl, rfl, rfl⟩ ⟨rfl, rfl⟩ h.error (h.memories.congr rfl rfl rfl rfl rfl)

/-- After `invalidate()` in IDLE the facts hold, whatever the memories hold. -/
theorem Consistent.invalidated {t : State} (hi : Invalidated t) (hp : t.ph = .idle ∧ t.ix = 0)
    (hs : t.sp = 0) (he : t.err = false ↔ t.errcode = .ok) (hm : MemoriesCanonical t) :
    Consistent t := by
  obtain ⟨i1, i2, i3, i4, i5, i6, i7, i8, i9⟩ := id hi
  refine ⟨hp, hs, by simp [i3, i4], by rw [i5, i6]; rfl, by rw [i5, i7]; rfl, ?_, ?_,
    fun _ _ => hi, he, by rw [i5]; decide, hm⟩
  · intro hb; rw [i1] at hb; simp at hb
  · intro hv; rw [i2] at hv; simp at hv

/-- `BUILD` keeps the facts (R95, R106, R111). -/
theorem Consistent.built {s : State} (h : Consistent s) : Consistent (buildState s) := by
  have hc := buildState_counts s
  have hk := buildState_keeps s
  have hf : FreqKept s (buildState s) := freqAt_congr hk.freq
  have hp := presentCount_congr hf
  have hle := presentCount_le s
  refine ⟨⟨hc.ph, hc.ix⟩, hk.sp.trans h.stack, ?_, by rw [hc.next, hc.nleaf],
    by rw [hc.root, hc.nleaf], ?_, ?_, ?_, by rw [hk.err, hk.errcode]; exact h.error,
    by rw [hc.nleaf]; exact hle, h.memories.build⟩
  · rw [hc.empty, hc.single]
    simp only [decide_eq_true_eq, ← BitVec.toNat_inj, hc.nleaf]
    refine ⟨fun e => e, fun e => e, by omega⟩
  · intro _
    rw [hp]
    refine ⟨hc.nleaf, hc.empty, hc.single, fun i hi => ?_⟩
    rw [(buildState_sameTree hf).nodes i (by rwa [BitVec.lt_def] at hi)]
  · intro hv
    rw [hk.codev] at hv
    exact (h.table hv).congr hf (codeAt_congr hk.code) ⟨hk.wlen, hk.wlenraw⟩
  · intro hb
    rw [hc.built] at hb
    simp at hb

/-- What `ASSIGN` leaves when it executes in a consistent state (R113, R125). -/
theorem Consistent.assign_eq {s : State} (h : Consistent s) (hb : s.built = true) :
    ∃ xs, PathFacts s xs ∧ execAssign s = respond .ok .nothing (assigned s xs) ∧
      OnlyTable (clearAssign s) (xs.foldl emitPath (clearAssign s)) ∧
      ∀ u, u.built = true → TreeReady s u →
        execAssign u = respond .ok .nothing (assigned u xs) := by
  obtain ⟨xs, h1, h2⟩ := execAssign_spec s
  exact ⟨xs, h1, h2 s hb (h.treeReady hb), emitAll_only xs _, h2⟩

/-- `ASSIGN` keeps the facts (R122, R123, R125). -/
theorem Consistent.assigned {s t : State} (h : Consistent s) (hb : s.built = true)
    (ht : execAssign s = .next t) : Consistent t := by
  have hm := h.memories.assign ht
  obtain ⟨xs, hx, he, ho, hu⟩ := h.assign_eq hb
  rw [he] at ht
  simp only [respond, Host.Outcome.next.injEq] at ht
  have hf : FreqKept s t := by
    intro b
    subst ht
    exact (freqAt_congr ho.freq b : _)
  obtain ⟨h1, h2, h3, -⟩ := h.tree hb
  have hx' : ∀ u, u.built = true → TreeReady t u →
      execAssign u = respond .ok .nothing (Machine.assigned u xs) := fun u hb hr =>
    hu u hb (hr.congr hf.symm)
  have htab := (tableMatchesFreq_iff t hx' s).2 ⟨fun b => by subst ht; rfl, by subst ht; exact ⟨rfl, rfl⟩⟩
  subst ht
  refine ⟨⟨rfl, rfl⟩, rfl, ?_, ?_, ?_, fun hb' => by simp [Machine.assigned, consumeTree] at hb',
    fun _ => htab, fun _ hv => by simp [Machine.assigned, consumeTree] at hv, ?_, ?_, hm⟩
  · have e1 : (Machine.assigned s xs).empty = s.empty := ho.empty
    have e2 : (Machine.assigned s xs).single = s.single := ho.single
    have e3 : (Machine.assigned s xs).nleaf = s.nleaf := ho.nleaf
    simp only [e1, e2, e3]; exact h.emptySingle
  · have e1 : (Machine.assigned s xs).next = s.next := ho.next
    have e3 : (Machine.assigned s xs).nleaf = s.nleaf := ho.nleaf
    simp only [e1, e3]; exact h.nextCount
  · have e1 : (Machine.assigned s xs).root = s.root := ho.root
    have e3 : (Machine.assigned s xs).nleaf = s.nleaf := ho.nleaf
    simp only [e1, e3]; exact h.rootPlace
  · have e1 : (Machine.assigned s xs).err = s.err := ho.err
    have e2 : (Machine.assigned s xs).errcode = s.errcode := ho.errcode
    simp only [e1, e2]; exact h.error
  · have e3 : (Machine.assigned s xs).nleaf = s.nleaf := ho.nleaf
    simp only [e3]; exact h.leafBound

/-- The response is none of the facts' business. -/
theorem Consistent.answered {s t : State} {c : RspCode} {d : RspData} (h : Consistent s)
    (he : respond c d s = .next t) : Consistent t := by
  simp only [Machine.respond, Host.Outcome.next.injEq] at he
  subst he
  exact h.port s.din (some ⟨c, d⟩) s.host

/-- A refusal keeps the facts: it sets ERR and ERRCODE together (R150). -/
theorem Consistent.refused {s t : State} {c : RspCode} (h : Consistent s) (hc : c ≠ .ok)
    (he : refuse c s = .next t) : Consistent t := by
  simp only [Machine.refuse, Machine.respond, Host.Outcome.next.injEq] at he
  subst he
  refine h.kept (AllButErrorKept.refl s) ?_ h.memories
  simp only [Bool.true_eq_false, false_iff]
  unfold nextErrcode
  split
  · rename_i h1
    intro h2
    rw [h.error.2 h2] at h1
    simp at h1
  · exact hc

/-- Every command keeps the facts. -/
theorem Consistent.executed {i : Instr} {s t : State} (h : Consistent s) (he : exec i s = .next t) :
    Consistent t := by
  cases i with
  | nop | rdf b | rds => exact h.answered he
  | clr =>
    have hm := h.memories.exec he
    simp only [Machine.exec, execClr, Machine.respond, Host.Outcome.next.injEq] at he
    subst he
    exact .invalidated ⟨rfl, rfl, rfl, rfl, rfl, rfl, rfl, rfl, rfl⟩ h.idle h.stack (by simp) hm
  | wrf b =>
    have hm := h.memories.exec he
    simp only [Machine.exec, execWrf, Machine.respond, Host.Outcome.next.injEq] at he
    subst he
    exact .invalidated ⟨rfl, rfl, rfl, rfl, rfl, rfl, rfl, rfl, rfl⟩ h.idle h.stack h.error hm
  | build => exact h.built.answered he
  | assign =>
    by_cases hb : s.built = true
    · exact h.assigned hb he
    · simp only [Machine.exec, execAssign] at he
      rw [if_pos (by simpa using hb)] at he
      exact h.refused (by simp) he
  | rdn n =>
    simp only [Machine.exec, execRdn] at he
    split at he
    · exact h.refused (by simp) he
    · split at he
      · exact h.refused (by simp) he
      · exact h.answered he
  | rdc b | rdw b =>
    simp only [Machine.exec, execRdc, execRdw] at he
    split at he
    · exact h.refused (by simp) he
    · exact h.answered he

end Sys2Proof.Machine
end

