-- ==== Sys2Proof/Laws/Codes.lean ====
section
/-! SUPPORT. Codes as bit-strings: routes through a tree and their path values, the two readings of a
CODE entry (spec/20_memory.md rules R49, R50), stripping (spec/42_encoding_assign.md rules R117,
R118), and prefix-freeness of raw paths (R127). -/

namespace Sys2Proof.Machine

/-! ### Path values -/

/-- The path value of a route that starts after a path of value `p` (R115). -/
def routeValue (p : Nat) (route : List Bool) : Nat := route.foldl (fun v x => 2 * v + x.toNat) p

theorem pathValue_eq (route : List Bool) : pathValue route = routeValue 0 route := rfl

theorem routeValue_cons (p : Nat) (x : Bool) (r : List Bool) :
    routeValue p (x :: r) = routeValue (2 * p + x.toNat) r := rfl

theorem routeValue_eq (p : Nat) (r : List Bool) :
    routeValue p r = p * 2 ^ r.length + routeValue 0 r := by
  induction r generalizing p with
  | nil => simp [routeValue]
  | cons x r ih =>
    rw [routeValue_cons, ih, routeValue_cons, ih (2 * 0 + x.toNat), List.length_cons, Nat.pow_succ]
    ring

theorem routeValue_lt (r : List Bool) : routeValue 0 r < 2 ^ r.length := by
  induction r with
  | nil => simp [routeValue]
  | cons x r ih =>
    rw [routeValue_cons, routeValue_eq, List.length_cons, Nat.pow_succ, Nat.mul_zero, Nat.zero_add]
    have : x.toNat ≤ 1 := by cases x <;> simp
    have := Nat.mul_le_mul_right (2 ^ r.length) this
    omega

/-- The number of bits and the value determine the route. -/
theorem route_unique {r q : List Bool} (hl : r.length = q.length)
    (hv : routeValue 0 r = routeValue 0 q) : r = q := by
  induction r generalizing q with
  | nil => exact (List.length_eq_zero_iff.1 hl.symm).symm
  | cons x r ih =>
    cases q with
    | nil => simp at hl
    | cons y q =>
      simp only [List.length_cons, Nat.add_right_cancel_iff] at hl
      rw [routeValue_cons, routeValue_cons, routeValue_eq, routeValue_eq (2 * 0 + y.toNat), hl] at hv
      have h1 := routeValue_lt r
      have h2 := routeValue_lt q
      rw [hl] at h1
      have hxy : x = y := by
        cases x <;> cases y <;> simp only [Bool.toNat_true, Bool.toNat_false] at hv <;>
          first | rfl | omega
      subst hxy
      rw [ih hl (by omega)]

/-! ### Routes through a tree -/

/-- A route to a leaf is one of the leaf paths (R115). -/
theorem HTree.mem_paths_of_follow {T : HTree} {route : List Bool} {b : Sym} {w : Weight} (d p : Nat)
    (h : T.follow route = some (.leaf b w)) :
    ⟨b, w, d + route.length, routeValue p route⟩ ∈ T.paths d p := by
  induction route generalizing T d p with
  | nil =>
    simp only [HTree.follow, Option.some.injEq] at h
    subst h
    simp [HTree.paths, routeValue]
  | cons x r ih =>
    cases T with
    | leaf => simp [HTree.follow] at h
    | internal w' l r' =>
      simp only [HTree.follow] at h
      have := ih (d + 1) (2 * p + x.toNat) h
      rw [routeValue_cons, List.length_cons, show d + (r.length + 1) = d + 1 + r.length by omega]
      simp only [HTree.paths, List.mem_append]
      cases x with
      | false => exact .inl (by simpa using this)
      | true => exact .inr (by simpa using this)

/-- Every leaf path is the route to its leaf (R115). -/
theorem HTree.follow_of_mem_paths {T : HTree} {d p : Nat} {x : LeafPath} (h : x ∈ T.paths d p) :
    ∃ route, T.follow route = some (.leaf x.sym x.weight) ∧ x.depth = d + route.length ∧
      x.path = routeValue p route := by
  induction T generalizing d p with
  | leaf b w =>
    simp only [HTree.paths, List.mem_singleton] at h
    subst h
    exact ⟨[], rfl, rfl, rfl⟩
  | internal w l r ihl ihr =>
    simp only [HTree.paths, List.mem_append] at h
    rcases h with h | h
    · obtain ⟨q, h1, h2, h3⟩ := ihl h
      exact ⟨false :: q, h1, by rw [h2, List.length_cons]; omega, h3⟩
    · obtain ⟨q, h1, h2, h3⟩ := ihr h
      exact ⟨true :: q, h1, by rw [h2, List.length_cons]; omega, h3⟩

/-! ### Bit-strings (R49, R50) -/

theorem bitString_length (v : Path) (n : Nat) : (bitString v n).length = n := by
  induction n with
  | zero => rfl
  | succ n ih => rw [bitString, List.length_cons, ih]

theorem bitString_getElem? (v : Path) (n j : Nat) (h : j < n) :
    (bitString v n)[j]? = some (v.getLsbD (n - 1 - j)) := by
  induction n generalizing j with
  | zero => omega
  | succ n ih =>
    cases j with
    | zero => simp [bitString]
    | succ j =>
      rw [bitString, List.getElem?_cons_succ, ih j (by omega)]
      congr 2
      omega

theorem getLsbD_of_value {v : Path} {p n : Nat} {x : Bool} {m : Nat} (hm : m < 2 ^ n)
    (h : v.toNat = (2 * p + x.toNat) * 2 ^ n + m) : v.getLsbD n = x := by
  rw [BitVec.getLsbD, h, Nat.testBit_eq_decide_div_mod_eq, Nat.mul_comm, Nat.mul_add_div
    (by positivity), Nat.div_eq_of_lt hm]
  cases x <;> simp

/-- The bits of a path value, read from the first, are the route (R49). -/
theorem bitString_route {v : Path} (route : List Bool) (p : Nat)
    (h : v.toNat = p * 2 ^ route.length + routeValue 0 route) :
    bitString v route.length = route := by
  induction route generalizing p with
  | nil => rfl
  | cons x r ih =>
    rw [← routeValue_eq, routeValue_cons, routeValue_eq] at h
    rw [List.length_cons, bitString, getLsbD_of_value (routeValue_lt r) h, ih (2 * p + x.toNat) h]

/-- No bit at or above the bit length is set (R8). -/
theorem getLsbD_bitlen {v : Path} {n : Nat} (h : bitlen v ≤ n) : v.getLsbD n = false := by
  rw [BitVec.getLsbD]
  exact Nat.testBit_eq_false_of_lt (Nat.lt_of_lt_of_le (lt_two_pow_bitlen v)
    (Nat.pow_le_pow_right (by omega) h))

/-- The top bit of the shortest numeral is 1 (R8, R49). -/
theorem getLsbD_top {v : Path} (h : 0 < bitlen v) : v.getLsbD (bitlen v - 1) = true := by
  have hv : v.toNat ≠ 0 := fun e => by rw [(bitlen_zero_iff v).2 e] at h; omega
  have e : bitlen v - 1 = Nat.log2 v.toNat := by rw [bitlen, if_neg hv]; omega
  rw [BitVec.getLsbD, e, Nat.testBit_eq_decide_div_mod_eq]
  have h1 : 2 ^ Nat.log2 v.toNat ≤ v.toNat := Nat.log2_self_le hv
  have h2 : v.toNat < 2 ^ (Nat.log2 v.toNat + 1) := Nat.lt_log2_self
  have h3 : v.toNat / 2 ^ Nat.log2 v.toNat = 1 := by
    rw [Nat.div_eq_iff (by positivity)]
    rw [Nat.pow_succ] at h2
    omega
  rw [h3]; rfl

/-- Removing the leading zeros leaves the shortest numeral (R117, R118). -/
theorem strip_bitString {v : Path} {n : Nat} (h : bitlen v ≤ n) :
    (bitString v n).dropWhile (fun x => !x) = bitString v (bitlen v) := by
  induction n with
  | zero => rw [Nat.le_zero.1 h]; rfl
  | succ n ih =>
    by_cases he : bitlen v = n + 1
    · have ht := getLsbD_top (v := v) (by omega)
      rw [he] at ht ⊢
      rw [bitString, List.dropWhile_cons]
      simp only [Nat.add_sub_cancel] at ht
      simp [ht]
    · rw [bitString, getLsbD_bitlen (by omega), List.dropWhile_cons]
      simp only [Bool.not_false, if_true]
      exact ih (by omega)

theorem bitString_inj {v w : Path} (n : Nat) (h : bitString v n = bitString w n)
    (hv : v.toNat < 2 ^ n) (hw : w.toNat < 2 ^ n) : v = w := by
  apply BitVec.eq_of_getLsbD_eq
  intro i hi
  by_cases hin : i < n
  · have h1 := bitString_getElem? v n (n - 1 - i) (by omega)
    have h2 := bitString_getElem? w n (n - 1 - i) (by omega)
    rw [h, h2] at h1
    have e : n - 1 - (n - 1 - i) = i := by omega
    rw [e] at h1
    exact (Option.some.inj h1).symm
  · have hpow : 2 ^ n ≤ 2 ^ i := Nat.pow_le_pow_right (by omega) (by omega)
    rw [BitVec.getLsbD, BitVec.getLsbD, Nat.testBit_eq_false_of_lt (by omega),
      Nat.testBit_eq_false_of_lt (by omega)]

/-! ### Prefix-freeness (R127) -/

/-- One raw path is no prefix of another when their intervals are disjoint. -/
theorem not_prefix_of_disjoint {r q : List Bool} {M : Nat} (hr : r.length ≤ M) (hq : q.length ≤ M)
    (h : (routeValue 0 r + 1) * 2 ^ (M - r.length) ≤ routeValue 0 q * 2 ^ (M - q.length) ∨
      (routeValue 0 q + 1) * 2 ^ (M - q.length) ≤ routeValue 0 r * 2 ^ (M - r.length)) :
    ¬r <+: q := by
  rintro ⟨t, rfl⟩
  have e : routeValue 0 (r ++ t) = routeValue 0 r * 2 ^ t.length + routeValue 0 t := by
    rw [← routeValue_eq]
    simp [routeValue, List.foldl_append]
  have ht := routeValue_lt t
  rw [List.length_append] at hq h
  rw [e] at h
  have eM : M - r.length = t.length + (M - (r.length + t.length)) := by omega
  rw [eM, Nat.pow_add] at h
  have hK : 0 < 2 ^ (M - (r.length + t.length)) := by positivity
  generalize 2 ^ (M - (r.length + t.length)) = K at *
  generalize 2 ^ t.length = W at *
  generalize routeValue 0 r = a at *
  generalize routeValue 0 t = c at *
  rw [← Nat.mul_assoc, ← Nat.mul_assoc] at h
  have cancel : ∀ x y : Nat, x * K ≤ y * K → x ≤ y := fun x y hxy =>
    Nat.le_of_mul_le_mul_right hxy hK
  rcases h with h | h
  · have := cancel _ _ h
    rw [Nat.add_mul] at this
    omega
  · have := cancel _ _ h
    omega

/-! ### Entries and routes -/

/-- What a CODE entry says of a route (R115 to R118). -/
structure CodeOf (e : CodeEntry) (route : List Bool) : Prop where
  rawlen : e.rawlen.toNat = route.length
  bits : e.bits.toNat = pathValue route
  len : e.len.toNat = bitlen e.bits
  raw : e.rawPath = route
  stored : e.storedCode = route.dropWhile (fun x => !x)

/-- The entry that `ASSIGN` makes for the leaf at the end of a route (R116, R117). -/
theorem PathFacts.codeOf {s0 : State} {T : HTree} (h : PathFacts s0 (T.paths 0 0))
    {route : List Bool} {b : Sym} {w : Weight} (hf : T.follow route = some (.leaf b w)) :
    CodeOf (LeafPath.entry ⟨b, w, 0 + route.length, routeValue 0 route⟩) route := by
  have hm := HTree.mem_paths_of_follow 0 0 hf
  have E := h.entry hm
  generalize hx : LeafPath.mk b w (0 + route.length) (routeValue 0 route) = x at *
  have h1 : x.entry.rawlen.toNat = route.length := by rw [E.rawlen, ← hx]; simp
  have h2 : x.entry.bits.toNat = routeValue 0 route := by rw [E.bits, ← hx]
  have h3 : x.entry.rawPath = route := by
    rw [CodeEntry.rawPath, h1]; exact bitString_route route 0 (by rw [h2]; omega)
  refine ⟨h1, h2, E.len, h3, ?_⟩
  have hle := E.len_le
  rw [CodeEntry.storedCode, E.len,
    ← strip_bitString (n := x.entry.rawlen.toNat) (by rw [← E.len]; exact hle), ← h3]
  rfl

/-- The state after an `ASSIGN` from a consistent state with a current tree, by its leaf paths (R119,
R122, R138). -/
structure TableOf (s t : State) (xs : List LeafPath) : Prop where
  facts : PathFacts s xs
  freq : FreqKept s t
  absent : ∀ b, freqAt s b = 0 → codeAt t b = codeFill
  leaf : ∀ x ∈ xs, codeAt t x.sym = x.entry
  raw : t.wlenraw.toNat = (xs.map fun x => x.weight.toNat * x.entry.rawlen.toNat).sum
  stripped : t.wlen.toNat = (xs.map fun x => x.weight.toNat * x.entry.len.toNat).sum

theorem Consistent.tableOf {s t : State} (h : Consistent s) (hb : s.built = true)
    (he : execAssign s = .next t) : ∃ xs, TableOf s t xs := by
  obtain ⟨xs, hx, h2, h3, -⟩ := h.assign_eq hb
  rw [h2] at he
  simp only [respond, Host.Outcome.next.injEq] at he
  subst he
  exact ⟨xs, hx, freqAt_congr h3.freq, fun b hb' => codeAt_assigned_absent hx hb',
    fun x hm => codeAt_assigned_leaf hx hm, (assigned_sums hx).1, (assigned_sums hx).2⟩

/-- A present byte's entry is its leaf's. -/
theorem TableOf.present {s t : State} {xs : List LeafPath} (h : TableOf s t xs) {b : Sym}
    (hb : freqAt s b ≠ 0) : ∃ x ∈ xs, x.sym = b ∧ codeAt t b = x.entry := by
  obtain ⟨x, hm, e, -⟩ := h.facts.present hb
  exact ⟨x, hm, e, by rw [← e]; exact h.leaf x hm⟩

end Sys2Proof.Machine
end

