-- ==== Sys2Proof/Laws/MicroRun.lean ====
section
/-! SUPPORT. Runs of the refined machine through one long command (spec/41_tree_build.md rule R101,
spec/42_encoding_assign.md rule R134): a run of micro-operations, and what the ports do beside it. -/

namespace Sys2Proof.Machine

/-- A command is in progress and no response is held. -/
structure Busy (s : State) : Prop where
  ph : s.ph ≠ .idle
  rsp : s.rsp = none

/-- `n` micro-operations, at least one, from `s`; every state before the last is busy. -/
inductive Steps : Nat → State → Host.Outcome State Fault Refusal → Prop where
  | last {s : State} (h : Busy s) : Steps 1 s (microOp s)
  | more {n : Nat} {s t : State} {o : Host.Outcome State Fault Refusal} (h : Busy s)
      (he : microOp s = .next t) (hs : Steps n t o) : Steps (n + 1) s o

theorem Steps.one {s : State} {o : Host.Outcome State Fault Refusal} (h : Busy s)
    (he : microOp s = o) : Steps 1 s o := he ▸ Steps.last h

theorem Steps.trans {a b : Nat} {s t : State} {o p : Host.Outcome State Fault Refusal}
    (h : Steps a s p) (hp : p = .next t) (h' : Steps b t o) : Steps (a + b) s o := by
  induction h with
  | last hb => rw [Nat.add_comm]; exact .more hb hp h'
  | more hb he _ ih => rw [Nat.add_right_comm]; exact .more hb he (ih hp)

/-- A chain of micro-operations followed by a run. -/
theorem Steps.chain {a b : Nat} {f : Nat → State} {o : Host.Outcome State Fault Refusal}
    (hb : ∀ j, j < a → Busy (f j)) (he : ∀ j, j < a → microOp (f j) = .next (f (j + 1)))
    (h : Steps b (f a) o) : Steps (a + b) (f 0) o := by
  induction a generalizing f with
  | zero => rw [Nat.zero_add]; exact h
  | succ a ih =>
    rw [Nat.add_right_comm]
    refine .more (hb 0 (by omega)) (he 0 (by omega)) ?_
    exact ih (f := fun j => f (j + 1)) (fun j hj => hb (j + 1) (by omega))
      (fun j hj => he (j + 1) (by omega)) h

/-! ### The ports beside a run -/

/-- `s` with other host inputs. -/
def withHost (s : State) (q : List PortIn) : State := { s with host := q }

theorem withHost_eq (s : State) (q : List PortIn) :
    withHost s q = outside s s.err s.errcode s.din s.rsp q := rfl

theorem withHost_only {s t : State} (h : OnlyTree s t) (q : List PortIn) :
    outside t s.err s.errcode s.din s.rsp q = withHost t q := by
  rw [withHost_eq, h.err, h.errcode, h.din, h.rsp]

theorem leafStep_withHost (s : State) (q : List PortIn) (b : Sym) :
    leafStep (withHost s q) b = withHost (leafStep s b) q := by
  rw [withHost_eq, leafStep_outside, withHost_only (leafStep_only s b)]

theorem mergeRound_withHost (s : State) (q : List PortIn) :
    mergeRound (withHost s q) = withHost (mergeRound s) q := by
  rw [withHost_eq, mergeRound_outside, withHost_only (mergeRound_only s)]

theorem candCount_withHost (s : State) (q : List PortIn) : candCount (withHost s q) = candCount s :=
  candCount_outside s s.err s.errcode s.din s.rsp q

/-- No micro-operation looks at the host's inputs (R169). -/
theorem microOp_withHost (s : State) (q : List PortIn) :
    microOp (withHost s q) = mapNext (fun t => withHost t q) (microOp s) := by
  unfold microOp
  rw [candCount_withHost, show (withHost s q).ph = s.ph from rfl,
    show (withHost s q).ix = s.ix from rfl, show (withHost s q).sp = s.sp from rfl]
  cases s.ph with
  | idle => rfl
  | scan =>
    simp only []
    split
    · simp only [microB1, leafStep_withHost, show (withHost s q).ix = s.ix from rfl,
        show ∀ b, freqAt (withHost s q) b = freqAt s b from fun _ => rfl,
        show (withHost s q).next = s.next from rfl]
      split <;> rfl
    · split
      · unfold microB2
        rw [show (withHost s q).nleaf = s.nleaf from rfl]
        split <;> rfl
      · rfl
  | merge =>
    simp only []
    split
    · unfold microB3
      rw [mergeRound_withHost, show (withHost s q).next = s.next from rfl]
      split <;> rfl
    · split <;> rfl
  | clear =>
    simp only []
    split
    · rfl
    · split
      · unfold microA2
        rw [show (withHost s q).empty = s.empty from rfl]
        cases s.empty <;> rfl
      · rfl
  | walk =>
    simp only []
    split
    · rfl
    · unfold microA3
      simp only [show ∀ i, nodeAt (withHost s q) i = nodeAt s i from fun _ => rfl,
        show ∀ j, stkAt (withHost s q) j = stkAt s j from fun _ => rfl,
        show (withHost s q).sp = s.sp from rfl]
      split
      · rfl
      · split
        · rfl
        · cases (nodeAt s (stkAt s (s.sp.toNat - 1)).node).kind with
          | leaf => rfl
          | internal =>
            simp only []
            split
            · rfl
            · split <;> rfl

/-- One step of the refined machine in a busy state that is not reset is its micro-operation. -/
theorem microStep_busy {s : State} (h : Busy s) {q : List PortIn}
    (hq : (q.headD idleInput).rst = false) :
    microStep (withHost s q) = mapNext (fun t => withHost t q.tail) (microOp s) := by
  have h1 : (portIn (withHost s q)).rst = false := hq
  have h2 : takeResponse (portIn (withHost s q)) (hostRest (withHost s q)) = withHost s q.tail := by
    unfold takeResponse
    split
    · simp only [hostRest, withHost, h.rsp]
    · rfl
  rw [microStep, tick_busy h1 h.ph, h2, microOp_withHost]

theorem noReset_tail {n : Nat} {s : State} {q : List PortIn} (h : NoReset (n + 1) (withHost s q))
    (t : State) : NoReset n (withHost t q.tail) := by
  intro x hx
  cases q with
  | nil => simp [withHost] at hx
  | cons y q => exact h x (List.mem_cons_of_mem _ hx)

theorem noReset_head {n : Nat} {s : State} {q : List PortIn} (h : NoReset (n + 1) (withHost s q)) :
    (q.headD idleInput).rst = false := by
  cases q with
  | nil => rfl
  | cons y q => exact h y (List.mem_cons_self ..)

/-- A run of micro-operations is a run of the refined machine, which passes over the host's inputs
(R36, R169) and holds no response before its end (R37). -/
theorem Steps.micro {n : Nat} {s : State} {o : Host.Outcome State Fault Refusal}
    (h : Steps n s o) (q : List PortIn) (hq : NoReset n (withHost s q)) :
    microRun n (withHost s q) = mapNext (fun t => withHost t (q.drop n)) o ∧
      ∀ m, m < n → ∃ u, microRun m (withHost s q) = .next u ∧ u.ph ≠ .idle ∧ rspValid u = false := by
  induction h generalizing q with
  | @last s hb =>
    refine ⟨?_, fun m hm => ?_⟩
    · simp only [microRun]
      rw [microStep_busy hb (noReset_head hq), List.drop_one]
      cases microOp s <;> rfl
    · have : m = 0 := by omega
      subst this
      exact ⟨_, rfl, hb.ph, by simp [rspValid, withHost, hb.rsp]⟩
  | @more n s t o hb he hs ih =>
    have hm := microStep_busy hb (noReset_head hq)
    rw [he] at hm
    have hm' : microStep (withHost s q) = .next (withHost t q.tail) := hm
    obtain ⟨i1, i2⟩ := ih q.tail (noReset_tail hq t)
    refine ⟨?_, fun m hlt => ?_⟩
    · simp only [microRun]
      rw [hm']
      simp only []
      rw [i1, List.drop_tail]
    · cases m with
      | zero => exact ⟨_, rfl, hb.ph, by simp [rspValid, withHost, hb.rsp]⟩
      | succ m =>
        obtain ⟨u, h1, h2⟩ := i2 m (by omega)
        refine ⟨u, ?_, h2⟩
        simp only [microRun]
        rw [hm']
        exact h1

/-! ### A command and its micro-operations -/

theorem Accepts.micro {s : State} {i : Instr} (h : Accepts s i) :
    microStep s = startMicro i (accepted s) := by
  obtain ⟨h1, h2, h3, h4⟩ := h
  rw [microStep, tick_presents ⟨h1, h2, h3⟩]
  exact accept_command h4

theorem Accepts.rsp {s : State} {i : Instr} (h : Accepts s i) : (accepted s).rsp = none := by
  obtain ⟨h1, -⟩ := h
  rw [cmdReady, Bool.and_eq_true] at h1
  exact Option.isNone_iff_eq_none.1 h1.2

theorem Accepts.step {s : State} {i : Instr} (h : Accepts s i) :
    step s = exec i (accepted s) := by
  obtain ⟨h1, h2, h3, h4⟩ := h
  rw [Machine.step, tick_presents ⟨h1, h2, h3⟩]
  exact accept_command h4

/-- An accepted command that begins with a micro-operation and goes on with a run of them. -/
theorem Accepts.run {s u : State} {i : Instr} {n : Nat} {o : Host.Outcome State Fault Refusal}
    (h : Accepts s i) (hs : startMicro i (accepted s) = .next u) (hu : u.host = s.host.tail)
    (hn : Steps n u o) (hr : NoReset (n + 1) s) :
    microRun (n + 1) s = mapNext (fun t => { t with host := s.host.drop (n + 1) }) o ∧
      ∀ m, 1 ≤ m → m < n + 1 →
        ∃ u, microRun m s = .next u ∧ u.ph ≠ .idle ∧ rspValid u = false := by
  have hm := h.micro.trans hs
  have hw : withHost u s.host.tail = u := by rw [← hu]; rfl
  have hq : NoReset n (withHost u s.host.tail) := by
    have : NoReset (n + 1) (withHost s s.host) := hr
    exact noReset_tail this u
  obtain ⟨h1, h2⟩ := hn.micro s.host.tail hq
  rw [hw] at h1 h2
  refine ⟨?_, fun m hm1 hm2 => ?_⟩
  · simp only [microRun]
    rw [hm]
    simp only []
    rw [h1, List.drop_tail]
    rfl
  · obtain ⟨m, rfl⟩ := Nat.exists_eq_add_of_le hm1
    obtain ⟨v, hv⟩ := h2 m (by omega)
    refine ⟨v, ?_, hv.2⟩
    rw [Nat.add_comm]
    simp only [microRun]
    rw [hm]
    exact hv.1

end Sys2Proof.Machine
end

