-- ==== Sys2Proof/Laws/Asm.lean ====
section
/-! SUPPORT. The words that the assembler makes, and the state that a run of `WRF` words leaves
(spec/30_encoding.md rules R75, R76). -/

namespace Sys2Proof.Machine

theorem wrfWord_eq (b c : Nat) : wrfWord b c = if b < 256 ∧ c < 2 ^ 32 then
    some (BitVec.ofNat 16 (0x2000 + b), BitVec.ofNat 32 c) else none := by
  unfold wrfWord
  show (if b < 256 ∧ c < 2 ^ 32 then _ else _) = _
  split
  · rename_i h
    have : encode (.wrf (BitVec.ofNat 8 b)) = BitVec.ofNat 16 (0x2000 + b) := by
      apply BitVec.eq_of_toNat_eq
      have hb := h.1
      simp only [encode, Config.SYMW, Config.CMDW, BitVec.toNat_add, BitVec.toNat_setWidth, BitVec.toNat_ofNat]
      omega
    rw [← this]
  · rfl

theorem loadWords_some {es : List (Nat × Nat)} (h : ∀ e ∈ es, e.1 < 256 ∧ e.2 < 2 ^ 32) :
    loadWords es =
      some (es.map fun e => (BitVec.ofNat 16 (0x2000 + e.1), BitVec.ofNat 32 e.2)) := by
  induction es with
  | nil => rfl
  | cons e es ih =>
    obtain ⟨b, c⟩ := e
    rw [loadWords, wrfWord_eq, if_pos (h _ (List.mem_cons_self ..)),
      ih fun e he => h e (List.mem_cons_of_mem _ he)]
    rfl

theorem loadWords_none {es : List (Nat × Nat)} (h : ∃ e ∈ es, ¬(e.1 < 256 ∧ e.2 < 2 ^ 32)) :
    loadWords es = none := by
  induction es with
  | nil => simp at h
  | cons e es ih =>
    obtain ⟨b, c⟩ := e
    rw [loadWords, wrfWord_eq]
    by_cases hb : b < 256 ∧ c < 2 ^ 32
    · rw [if_pos hb, ih]
      obtain ⟨e, he, hn⟩ := h
      rcases List.mem_cons.1 he with rfl | he
      · exact absurd hb hn
      · exact ⟨e, he, hn⟩
    · rw [if_neg hb]

theorem decode_wrfWord {b : Nat} (h : b < 256) :
    decode (BitVec.ofNat 16 (0x2000 + b)) = .command (.wrf (BitVec.ofNat 8 b)) := by
  have hw : (BitVec.ofNat 16 (0x2000 + b)).toNat = 0x2000 + b := by simp; omega
  have h1 : (0x2000 + b) / 4096 = 2 := by omega
  have h2 : (0x2000 + b) % 4096 = b := by omega
  rw [decode_eq, hw, h1, h2]
  simp only [guardBits_command, decide_eq_true_eq]
  refine ⟨h, ?_⟩
  congr 1
  apply BitVec.eq_of_toNat_eq
  simp
  omega

/-- The state after the `WRF` of one `LOAD` entry. -/
def afterWrf (e : Nat × Nat) (s : State) : State :=
  { invalidate (setFreq { s with din := BitVec.ofNat 32 e.2 } (BitVec.ofNat 8 e.1)
      (BitVec.ofNat 32 e.2)) with rsp := some ⟨.ok, .nothing⟩ }

/-- The state after the `WRF` of each entry, in order. -/
def afterWrfs : List (Nat × Nat) → State → State
  | [], s => s
  | e :: es, s => afterWrfs es (afterWrf e s)

theorem runWords_wrfs {es : List (Nat × Nat)} (h : ∀ e ∈ es, e.1 < 256 ∧ e.2 < 2 ^ 32)
    (s : State) :
    runWords (es.map fun e => (BitVec.ofNat 16 (0x2000 + e.1), BitVec.ofNat 32 e.2)) s =
      .next (afterWrfs es s) := by
  induction es generalizing s with
  | nil => rfl
  | cons e es ih =>
    have he := h _ (List.mem_cons_self ..)
    have : accept exec (present (BitVec.ofNat 16 (0x2000 + e.1)) (BitVec.ofNat 32 e.2)) s =
        .next (afterWrf e s) := by
      have hd := decode_wrfWord he.1
      unfold accept present
      simp only []
      rw [hd]
      simp only [exec, execWrf, respond, afterWrf]
    rw [List.map_cons, runWords, this]
    exact ih (fun e he => h e (List.mem_cons_of_mem _ he)) _

/-- What a run of `WRF` leaves outside FREQ. -/
structure WrfsKeep (s t : State) : Prop where
  withdrawn : Invalidated s → Invalidated t
  err : t.err = s.err ∧ t.errcode = s.errcode
  sequencer : SequencerKept s t
  host : t.host = s.host
  rsp : s.rsp = some ⟨.ok, .nothing⟩ → t.rsp = some ⟨.ok, .nothing⟩

theorem afterWrfs_keep (es : List (Nat × Nat)) (s : State) : WrfsKeep s (afterWrfs es s) := by
  induction es generalizing s with
  | nil => exact ⟨id, ⟨rfl, rfl⟩, ⟨rfl, rfl, rfl⟩, rfl, id⟩
  | cons e es ih =>
    have := ih (afterWrf e s)
    exact ⟨fun _ => this.withdrawn ⟨rfl, rfl, rfl, rfl, rfl, rfl, rfl, rfl, rfl⟩, this.err,
      this.sequencer, this.host, fun _ => this.rsp rfl⟩

/-- FREQ after a run of `WRF` to different byte values. -/
theorem freqAt_afterWrfs {es : List (Nat × Nat)} (hn : (es.map Prod.fst).Nodup)
    (h : ∀ e ∈ es, e.1 < 256 ∧ e.2 < 2 ^ 32) (s : State) :
    (∀ e ∈ es, freqAt (afterWrfs es s) (BitVec.ofNat 8 e.1) = BitVec.ofNat 32 e.2) ∧
      ∀ b : Sym, b.toNat ∉ es.map Prod.fst → freqAt (afterWrfs es s) b = freqAt s b := by
  induction es generalizing s with
  | nil => simp [afterWrfs]
  | cons e es ih =>
    rw [List.map_cons, List.nodup_cons] at hn
    obtain ⟨i1, i2⟩ := ih hn.2 (fun e he => h e (List.mem_cons_of_mem _ he)) (afterWrf e s)
    have he := (h e (List.mem_cons_self ..)).1
    have hm : (BitVec.ofNat 8 e.1).toNat = e.1 := by simp; omega
    refine ⟨fun x hx => ?_, fun b hb => ?_⟩
    · rcases List.mem_cons.1 hx with rfl | hx
      · rw [afterWrfs, i2 _ (by rw [hm]; exact hn.1)]
        exact Memory.read_write_same ..
      · exact i1 x hx
    · rw [List.map_cons, List.mem_cons, not_or] at hb
      rw [afterWrfs, i2 b hb.2]
      exact Memory.read_write_other _ _ _ (by rw [hm]; exact hb.1)

end Sys2Proof.Machine
end

