-- ==== Sys2Proof/Laws/MicroBuild.lean ====
section
/-! SUPPORT. The micro-operations of BUILD compute BUILD (spec/41_tree_build.md rule R101): 256 scan
steps are the leaf loop, the merge rounds are `merge_all()`. -/

namespace Sys2Proof.Machine

/-- `s` with the flags, IX and PH of a BUILD in progress (R96). -/
def staged (s : State) (ix : BitVec 9) (p : Phase) : State :=
  { s with empty := false, single := false, built := false, ix := ix, ph := p }

theorem candidates_staged (s : State) (ix : BitVec 9) (p : Phase) :
    candidates (staged s ix p) = candidates s :=
  List.filter_congr fun _ _ => rfl

theorem candCount_staged (s : State) (ix : BitVec 9) (p : Phase) :
    candCount (staged s ix p) = candCount s := by
  rw [candCount, candidates_staged, candCount]

theorem leastCandidate_staged (s : State) (ix : BitVec 9) (p : Phase) :
    leastCandidate (staged s ix p) = leastCandidate s := by
  have hk : key (staged s ix p) = key s := rfl
  rw [leastCandidate, leastCandidate, candidates_staged, hk]

theorem leafStep_staged (s : State) (ix : BitVec 9) (p : Phase) (b : Sym) :
    leafStep (staged s ix p) b = staged (leafStep s b) ix p := by
  have hf : freqAt (staged s ix p) b = freqAt s b := rfl
  by_cases hb : freqAt s b = 0
  · rw [leafStep_absent hb, leafStep_absent (hf.trans hb)]
  · rw [leafStep_present hb, leafStep_present (by rw [hf]; exact hb)]
    rfl

theorem firstExtracted_staged (s : State) (ix : BitVec 9) (p : Phase) :
    firstExtracted (staged s ix p) = staged (firstExtracted s) ix p := by
  unfold firstExtracted
  rw [leastCandidate_staged]
  generalize leastCandidate s = m
  rfl

theorem bothExtracted_staged (s : State) (ix : BitVec 9) (p : Phase) :
    bothExtracted (staged s ix p) = staged (bothExtracted s) ix p := by
  unfold bothExtracted
  rw [firstExtracted_staged, leastCandidate_staged]
  generalize firstExtracted s = u
  generalize leastCandidate u = m
  rfl

theorem mergeRound_staged (s : State) (ix : BitVec 9) (p : Phase) :
    mergeRound (staged s ix p) = staged (mergeRound s) ix p := by
  have hm : ∀ v : State, ∀ m1 m2, mergedNode (staged v ix p) m1 m2 = mergedNode v m1 m2 :=
    fun _ _ _ => rfl
  rw [mergeRound_eq, mergeRound_eq, bothExtracted_staged, leastCandidate_staged,
    firstExtracted_staged, leastCandidate_staged, hm]
  generalize mergedNode _ _ _ = n
  generalize bothExtracted s = u
  rfl

theorem microOp_of_scan {s : State} (h : s.ph = .scan) : microOp s =
    if s.ix.toNat < Config.NSYM then microB1 s
    else if s.ix.toNat = Config.NSYM then microB2 s else .fault .noMicroOp := by
  simp only [microOp, h]

theorem microOp_of_merge {s : State} (h : s.ph = .merge) : microOp s =
    if 2 ≤ candCount s then microB3 s
    else if candCount s = 1 then microB4 s else .fault .noMicroOp := by
  simp only [microOp, h]

theorem staged_ix (s : State) (ix : BitVec 9) (p : Phase) : (staged s ix p).ix = ix := rfl

theorem staged_ph (s : State) (ix : BitVec 9) (p : Phase) : (staged s ix p).ph = p := rfl

theorem staged_next (s : State) (ix : BitVec 9) (p : Phase) : (staged s ix p).next = s.next := rfl

theorem staged_nleaf (s : State) (ix : BitVec 9) (p : Phase) :
    (staged s ix p).nleaf = s.nleaf := rfl

theorem staged_freqAt (s : State) (ix : BitVec 9) (p : Phase) (b : Sym) :
    freqAt (staged s ix p) b = freqAt s b := rfl

theorem completeBuild_staged (s : State) (ix : BitVec 9) (p : Phase) :
    completeBuild (staged s ix p) =
      .next { finish s with ix := 0, ph := .idle, rsp := some ⟨.ok, .nothing⟩ } := rfl

theorem microB2_staged (s : State) (ix : BitVec 9) (p : Phase) : microB2 (staged s ix p) =
    if 2 ≤ s.nleaf.toNat then .next (staged s ix .merge)
    else .next { finish s with ix := 0, ph := .idle, rsp := some ⟨.ok, .nothing⟩ } := rfl

/-! ### The scan -/

/-- The leaf loop after its first `j` byte values. -/
def scanned (a : State) (j : Nat) : State := (allSyms.take j).foldl leafStep (clearBuild a)

theorem allSyms_get {j : Nat} (h : j < allSyms.length) : allSyms[j] = BitVec.ofNat 8 j := by
  simp [allSyms]

theorem scanned_succ (a : State) {j : Nat} (h : j < 256) :
    scanned a (j + 1) = leafStep (scanned a j) (BitVec.ofNat 8 j) := by
  have hl : j < allSyms.length := by rw [allSyms_length]; exact h
  rw [scanned, List.take_succ_eq_append_getElem hl, List.foldl_append, allSyms_get hl]
  rfl

theorem scanned_all (a : State) : scanned a 256 = makeLeaves (clearBuild a) := by
  rw [scanned, ← allSyms_length, List.take_length, makeLeaves]

theorem scanned_next (a : State) {j : Nat} (h : j < 256) : (scanned a j).next.toNat ≤ j := by
  have h0 : LeavesMade (clearBuild a) (clearBuild a) [] := by
    refine ⟨OnlyTree.refl _, rfl, rfl, fun j h => absurd h (by simp), fun i => ?_, fun _ _ => rfl⟩
    rfl
  have hl : (allSyms.take j).length = j := by rw [List.length_take, allSyms_length]; omega
  have := (leavesMade_fold (allSyms.take j) h0 (by simp only [List.length_nil]; omega)).next
  rw [scanned, this, List.nil_append]
  exact (List.length_filter_le ..).trans hl.le

theorem busy_staged {s : State} (hr : s.rsp = none) (ix : BitVec 9) {p : Phase} (hp : p ≠ .idle) :
    Busy (staged s ix p) := ⟨hp, hr⟩

theorem scanned_only (a : State) (j : Nat) : OnlyTree (clearBuild a) (scanned a j) := by
  unfold scanned
  generalize clearBuild a = u
  induction allSyms.take j generalizing u with
  | nil => exact OnlyTree.refl u
  | cons b l ih => exact (leafStep_only u b).trans (ih _)

theorem microOp_scan (a : State) {j : Nat} (h : j < 256) :
    microOp (staged (scanned a j) (BitVec.ofNat 9 j) .scan) =
      .next (staged (scanned a (j + 1)) (BitVec.ofNat 9 (j + 1)) .scan) := by
  have hn := scanned_next a h
  rw [scanned_succ a h]
  generalize scanned a j = u at hn ⊢
  have hix : (BitVec.ofNat 9 j).toNat = j := by simp; omega
  have hb : (BitVec.ofNat 9 j).setWidth 8 = BitVec.ofNat 8 j := by
    apply BitVec.eq_of_toNat_eq; simp
  have hs : (BitVec.ofNat 9 j + 1 : BitVec 9) = BitVec.ofNat 9 (j + 1) := by
    apply BitVec.eq_of_toNat_eq; simp
  rw [microOp_of_scan (staged_ph ..), staged_ix, hix, if_pos h, microB1]
  simp only [staged_ix, hb, staged_next, leafStep_staged, hs]
  rw [if_neg (by simp only [Config.NNODE]; omega)]
  rfl

/-! ### The merge -/

/-- The state after `j` merge rounds. -/
def rounds : Nat → State → State
  | 0, s => s
  | j + 1, s => rounds j (mergeRound s)

theorem rounds_succ (j : Nat) (s : State) : rounds (j + 1) s = mergeRound (rounds j s) := by
  induction j generalizing s with
  | zero => rfl
  | succ j ih => exact ih (mergeRound s)

theorem MergeInv.after_rounds {L : List (Sym × Weight)} {s : State} (h : MergeInv L s) {c : Nat}
    (hc : candCount s = c) (j : Nat) (hj : j + 1 ≤ c) :
    MergeInv L (rounds j s) ∧ candCount (rounds j s) + j = c := by
  induction j with
  | zero => rw [rounds, Nat.add_zero]; exact ⟨h, hc⟩
  | succ j ih =>
    obtain ⟨i1, i2⟩ := ih (by omega)
    rw [rounds_succ]
    have := i1.candCount_round (by omega)
    exact ⟨i1.step (by omega), by omega⟩

theorem mergeAll_eq_rounds {L : List (Sym × Weight)} (fuel : Nat) {s : State} (h : MergeInv L s)
    (hf : candCount s ≤ fuel + 1) (hpos : 1 ≤ candCount s) :
    mergeAll fuel s = rounds (candCount s - 1) s := by
  induction fuel generalizing s with
  | zero =>
    have : candCount s - 1 = 0 := by omega
    rw [this, mergeAll, rounds]
  | succ n ih =>
    unfold mergeAll
    by_cases hc : 2 ≤ candCount s
    · have hr := h.candCount_round hc
      rw [if_pos hc, ih (h.step hc) (by omega) (by omega)]
      have : candCount s - 1 = (candCount (mergeRound s) - 1) + 1 := by omega
      rw [this, rounds]
    · have : candCount s - 1 = 0 := by omega
      rw [if_neg hc, this, rounds]

theorem microOp_merge {L : List (Sym × Weight)} {s : State} (h : MergeInv L s)
    (hc : 2 ≤ candCount s) (ix : BitVec 9) :
    microOp (staged s ix .merge) = .next (staged (mergeRound s) ix .merge) := by
  have hn := h.next_lt hc
  rw [microOp_of_merge (staged_ph ..), candCount_staged, if_pos hc, microB3, staged_next,
    if_neg (by simp only [Config.NNODE]; omega), mergeRound_staged]

theorem rounds_only (j : Nat) (s : State) : OnlyTree s (rounds j s) := by
  induction j generalizing s with
  | zero => exact OnlyTree.refl s
  | succ j ih => exact (mergeRound_only s).trans (ih _)

/-! ### The command -/

/-- R101: after B0, 257 micro-operations for k <= 1 and 257 + k otherwise make what `BUILD`
makes. -/
theorem build_steps (a : State) (hr : a.rsp = none) :
    Steps (if presentCount a ≤ 1 then 257 else 257 + presentCount a) (microB0 a)
      (execBuild a) := by
  have hM := mergeInv_leaves a
  have hspec := makeLeaves_spec a
  have hk : presentCount a ≤ 256 := by
    rw [presentCount, presentSyms]
    exact (List.length_filter_le ..).trans allSyms_length.le
  have hcand : candCount (makeLeaves (clearBuild a)) = presentCount a :=
    candidates_length_leaves hspec (by rw [← presentCount]; omega)
  have hnl : (makeLeaves (clearBuild a)).nleaf.toNat = presentCount a := by
    rw [hspec.nleaf, hspec.next, presentCount]
  have hrsp : (makeLeaves (clearBuild a)).rsp = none := by rw [(makeLeaves_only _).rsp]; exact hr
  have hexec : execBuild a = .next { finish (mergeIfTwo (makeLeaves (clearBuild a))) with
      ix := 0, ph := .idle, rsp := some ⟨.ok, .nothing⟩ } := by
    rw [execBuild, buildState, respond]
  have scan : ∀ {b : Nat} {o : Host.Outcome State Fault Refusal},
      Steps b (staged (makeLeaves (clearBuild a)) 256 .scan) o →
        Steps (256 + b) (microB0 a) o := by
    intro b o h
    have := Steps.chain (a := 256)
      (f := fun j => staged (scanned a j) (BitVec.ofNat 9 j) .scan) (b := b) (o := o)
      (fun j _ => busy_staged ((scanned_only a j).rsp.trans hr) _ (by decide))
      (fun j hj => microOp_scan a hj) (by rw [scanned_all]; exact h)
    exact this
  rw [hexec]
  have hmi : mergeIfTwo (makeLeaves (clearBuild a)) =
      if 2 ≤ (makeLeaves (clearBuild a)).nleaf.toNat then
        mergeAll Config.NNODE (makeLeaves (clearBuild a)) else makeLeaves (clearBuild a) := rfl
  have hma := mergeAll_eq_rounds Config.NNODE hM
    (by rw [hcand]; simp only [Config.NNODE]; omega)
  rw [hmi]
  clear hmi hexec hspec
  generalize hu : makeLeaves (clearBuild a) = u at *
  have h2 : microOp (staged u 256 .scan) = microB2 (staged u 256 .scan) := by
    rw [microOp_of_scan (staged_ph ..), staged_ix, if_neg (by decide), if_pos (by decide)]
  by_cases h1 : presentCount a ≤ 1
  · rw [if_pos h1, if_neg (by omega)]
    refine scan (b := 1) (.one (busy_staged hrsp _ (by decide)) ?_)
    rw [h2, microB2_staged, if_neg (by omega)]
  · rw [if_neg h1, if_pos (by omega), hma (by omega), hcand]
    have key : Steps (1 + ((presentCount a - 1) + 1)) (staged u 256 .scan)
        (.next { finish (rounds (presentCount a - 1) u) with
          ix := 0, ph := .idle, rsp := some ⟨.ok, .nothing⟩ }) := by
      refine Steps.trans (.one (busy_staged hrsp _ (by decide)) rfl)
        (t := staged u 256 .merge) ?_ ?_
      · rw [h2, microB2_staged, if_pos (by omega)]
      · refine Steps.chain (f := fun j => staged (rounds j u) 256 .merge) (fun j _ => ?_)
          (fun j hj => ?_) ?_
        · exact busy_staged ((rounds_only j u).rsp.trans hrsp) _ (by decide)
        · have := hM.after_rounds hcand j (by omega)
          rw [rounds_succ]
          exact microOp_merge this.1 (by omega) _
        · have hc := (hM.after_rounds hcand (presentCount a - 1) (by omega)).2
          refine .one (busy_staged ((rounds_only _ u).rsp.trans hrsp) _ (by decide)) ?_
          generalize rounds (presentCount a - 1) u = v at hc ⊢
          rw [microOp_of_merge (staged_ph ..), candCount_staged, if_neg (by omega),
            if_pos (by omega)]
          exact completeBuild_staged v _ _
    have e : 257 + presentCount a = 256 + (1 + ((presentCount a - 1) + 1)) := by omega
    rw [e]
    exact scan key

end Sys2Proof.Machine
end

