-- ==== Sys2Proof/Laws/MicroAssign.lean ====
section
/-! SUPPORT. The micro-operations of ASSIGN compute ASSIGN (spec/42_encoding_assign.md rule R134):
256 clear steps leave CODE with nothing listed, and the visits walk the tree. -/

namespace Sys2Proof.Machine

theorem microOp_of_clear {s : State} (h : s.ph = .clear) : microOp s =
    if s.ix.toNat < Config.NSYM then .next (microA1 s)
    else if s.ix.toNat = Config.NSYM then .next (microA2 s) else .fault .noMicroOp := by
  simp only [microOp, h]

theorem microOp_of_walk {s : State} (h : s.ph = .walk) :
    microOp s = if s.sp = 0 then microA4 s else microA3 s := by
  simp only [microOp, h]

/-! ### Clearing -/

/-- CODE after its first `j` entries are cleared. -/
def clearedCode (a : State) : Nat → Memory CodeEntry
  | 0 => a.code
  | j + 1 => Memory.write codeFill (clearedCode a j) j codeFill

theorem clearedCode_wf {a : State} (h : MemoriesCanonical a) (j : Nat) (hj : j ≤ 256) :
    Memory.wf codeFill Config.NSYM (clearedCode a j) = true := by
  induction j with
  | zero => exact h.2.2.1
  | succ j ih => exact Memory.wf_write _ (ih (by omega)) (by simp only [Config.NSYM]; omega)

theorem clearedCode_read (a : State) {j b : Nat} (hb : b < j) :
    Memory.read codeFill (clearedCode a j) b = codeFill := by
  induction j with
  | zero => omega
  | succ j ih =>
    rw [clearedCode, Memory.read_write]
    split
    · rfl
    · exact ih (by omega)

theorem clearedCode_all {a : State} (h : MemoriesCanonical a) : clearedCode a 256 = [] :=
  Memory.ext_of_wf (clearedCode_wf h 256 (by omega)) rfl fun b hb => clearedCode_read a hb

/-- `a` inside CLEAR, after `j` clear steps. -/
def clearing (a : State) (j : Nat) : State :=
  { a with
    wlen := 0, wlenraw := 0, codev := false, ix := BitVec.ofNat 9 j, ph := .clear
    code := clearedCode a j }

theorem clearing_ix (a : State) (j : Nat) : (clearing a j).ix = BitVec.ofNat 9 j := rfl

theorem clearing_ph (a : State) (j : Nat) : (clearing a j).ph = .clear := rfl

theorem clearing_busy {a : State} (h : a.rsp = none) (j : Nat) : Busy (clearing a j) :=
  ⟨by rw [clearing_ph]; decide, h⟩

theorem clearing_empty (a : State) (j : Nat) : (clearing a j).empty = a.empty := rfl

theorem clearing_zero (a : State) : clearing a 0 = microA0 a := rfl

theorem microOp_clear (a : State) {j : Nat} (h : j < 256) :
    microOp (clearing a j) = .next (clearing a (j + 1)) := by
  have hix : (BitVec.ofNat 9 j).toNat = j := by simp; omega
  have hb : ((BitVec.ofNat 9 j).setWidth 8).toNat = j := by simp; omega
  have hs : (BitVec.ofNat 9 j + 1 : BitVec 9) = BitVec.ofNat 9 (j + 1) := by
    apply BitVec.eq_of_toNat_eq; simp
  rw [microOp_of_clear (clearing_ph ..), clearing_ix, hix, if_pos h, microA1, setCode,
    clearing_ix, hb, hs]
  rfl

/-! ### Walking -/

/-- `s` inside WALK, with the given stack. -/
def walking (s : State) (sp : BitVec 9) (k : Memory StkEntry) : State :=
  { s with codev := false, ix := 256, ph := .walk, sp := sp, stk := k }

theorem walking_sp (s : State) (sp : BitVec 9) (k : Memory StkEntry) :
    (walking s sp k).sp = sp := rfl

theorem walking_ph (s : State) (sp : BitVec 9) (k : Memory StkEntry) :
    (walking s sp k).ph = .walk := rfl

theorem walking_stkAt (s : State) (sp : BitVec 9) (k : Memory StkEntry) (j : Nat) :
    stkAt (walking s sp k) j = Memory.read stkFill k j := rfl

theorem walking_nodeAt (s : State) (sp : BitVec 9) (k : Memory StkEntry) (i : NodeIdx) :
    nodeAt (walking s sp k) i = nodeAt s i := rfl

theorem busy_walking {s : State} (h : s.rsp = none) (sp : BitVec 9) (k : Memory StkEntry) :
    Busy (walking s sp k) := ⟨by rw [walking_ph]; decide, h⟩

theorem sp_ne_zero {q : Nat} (h : q < 256) : BitVec.ofNat 9 (q + 1) ≠ 0 := by
  intro e
  have := congrArg BitVec.toNat e
  simp at this
  omega

theorem sp_pred {q : Nat} : (BitVec.ofNat 9 (q + 1) - 1 : BitVec 9) = BitVec.ofNat 9 q := by
  rw [← BitVec.ofNat_add_ofNat]
  exact BitVec.add_sub_cancel _ _

theorem sp_top {q : Nat} (h : q < 256) : (BitVec.ofNat 9 (q + 1)).toNat - 1 = q := by
  simp; omega

theorem sp_succ (q : Nat) : (BitVec.ofNat 9 q + 1 : BitVec 9) = BitVec.ofNat 9 (q + 1) := by
  apply BitVec.eq_of_toNat_eq; simp

/-- The visit of a leaf (R131). -/
theorem microOp_leaf {s : State} {q d p : Nat} {k : Memory StkEntry} {n : NodeIdx} (hq : q < 256)
    (htop : Memory.read stkFill k q = ⟨n, BitVec.ofNat 8 d, BitVec.ofNat 255 p⟩)
    (hn : n.toNat < 511) (hk : (nodeAt s n).kind = .leaf) :
    microOp (walking s (BitVec.ofNat 9 (q + 1)) k) =
      .next (walking (emitPath s ⟨(nodeAt s n).sym, (nodeAt s n).weight, d, p⟩)
        (BitVec.ofNat 9 q) k) := by
  rw [microOp_of_walk (walking_ph ..), walking_sp, if_neg (sp_ne_zero hq), microA3, walking_sp,
    sp_top hq, if_neg (by simp only [Config.STKDEPTH]; omega)]
  simp only [walking_stkAt, htop, walking_nodeAt, hk, sp_pred]
  rw [if_neg (by simp only [Config.NNODE]; omega)]
  rfl

/-- The visit of an internal node (R131). -/
theorem microOp_internal {s : State} {q d p : Nat} {k : Memory StkEntry} {n : NodeIdx}
    (hq : q + 1 < 256) (hd : d < 255)
    (htop : Memory.read stkFill k q = ⟨n, BitVec.ofNat 8 d, BitVec.ofNat 255 p⟩)
    (hn : n.toNat < 511) (hk : (nodeAt s n).kind = .internal) :
    microOp (walking s (BitVec.ofNat 9 (q + 1)) k) =
      .next (walking s (BitVec.ofNat 9 (q + 1 + 1)) (Memory.write stkFill (Memory.write stkFill k q
        ⟨(nodeAt s n).right, BitVec.ofNat 8 (d + 1), BitVec.ofNat 255 (2 * p + 1)⟩) (q + 1)
        ⟨(nodeAt s n).left, BitVec.ofNat 8 (d + 1), BitVec.ofNat 255 (2 * p)⟩)) := by
  have hd' : (BitVec.ofNat 8 d).toNat = d := by simp; omega
  rw [microOp_of_walk (walking_ph ..), walking_sp, if_neg (sp_ne_zero (by omega)), microA3,
    walking_sp, sp_top (by omega), if_neg (by simp only [Config.STKDEPTH]; omega)]
  simp only [walking_stkAt, htop, walking_nodeAt, hk, hd']
  rw [if_neg (by simp only [Config.NNODE]; omega), if_neg (by simp only [Config.MAXLEN]; omega),
    if_neg (by simp only [Config.STKDEPTH]; omega), two_mul_path_succ, two_mul_path,
    ofNat_succ_len, sp_succ]
  rfl

theorem HTree.leaves_pos (T : HTree) : 1 ≤ T.leaves.length :=
  List.length_pos_of_ne_nil T.leaves_ne_nil

/-- The visits of a subtree whose root is on top of the stack: one for each node, and at the end
the stack below is as it was (R133). -/
theorem walk_steps {s0 : State} {n : NodeIdx} {T : HTree} (hT : TreeAt s0 n T) {q d p : Nat}
    {s : State} {k : Memory StkEntry} (hs : s.node = s0.node) (hr : s.rsp = none)
    (hq : q + T.height < 256) (hd : d + T.height ≤ 255)
    (htop : Memory.read stkFill k q = ⟨n, BitVec.ofNat 8 d, BitVec.ofNat 255 p⟩) :
    ∃ k', (∀ j, j < q → Memory.read stkFill k' j = Memory.read stkFill k j) ∧
      Steps (2 * T.leaves.length - 1) (walking s (BitVec.ofNat 9 (q + 1)) k)
        (.next (walking ((T.paths d p).foldl emitPath s) (BitVec.ofNat 9 q) k')) := by
  induction hT generalizing q d p s k with
  | @leaf i h1 h2 =>
    have hn := nodeAt_congr (s := s0) (t := s) hs i
    simp only [HTree.height] at hq
    refine ⟨k, fun _ _ => rfl, ?_⟩
    have := microOp_leaf (s := s) (by omega) htop h1 (by rw [hn]; exact h2)
    rw [hn] at this
    exact .one (busy_walking hr ..) this
  | @internal i l r h1 h2 hl hr' ihl ihr =>
    have hn := nodeAt_congr (s := s0) (t := s) hs i
    simp only [HTree.height] at hq hd
    have hv := microOp_internal (s := s) (by omega) (by omega) htop h1 (by rw [hn]; exact h2)
    rw [hn] at hv
    obtain ⟨k1, e1, s1⟩ := ihl (q := q + 1) (d := d + 1) (p := 2 * p) (s := s)
      (k := Memory.write stkFill (Memory.write stkFill k q ⟨(nodeAt s0 i).right,
        BitVec.ofNat 8 (d + 1), BitVec.ofNat 255 (2 * p + 1)⟩) (q + 1)
        ⟨(nodeAt s0 i).left, BitVec.ofNat 8 (d + 1), BitVec.ofNat 255 (2 * p)⟩)
      hs hr (by omega) (by omega) (Memory.read_write_same ..)
    have ho := emitAll_only (l.paths (d + 1) (2 * p)) s
    obtain ⟨k2, e2, s2⟩ := ihr (q := q) (d := d + 1) (p := 2 * p + 1)
      (s := (l.paths (d + 1) (2 * p)).foldl emitPath s) (k := k1) (ho.node.trans hs)
      (ho.rsp.trans hr) (by omega) (by omega) (by
        rw [e1 q (by omega), Memory.read_write_other _ _ _ (by omega), Memory.read_write_same])
    refine ⟨k2, fun j hj => ?_, ?_⟩
    · rw [e2 j hj, e1 j (by omega), Memory.read_write_other _ _ _ (by omega),
        Memory.read_write_other _ _ _ (by omega)]
    · have hl1 := l.leaves_pos
      have hl2 := r.leaves_pos
      have e : 2 * (HTree.internal (nodeAt s0 i).weight l r).leaves.length - 1 =
          1 + ((2 * l.leaves.length - 1) + (2 * r.leaves.length - 1)) := by
        simp only [HTree.leaves, List.length_append]; omega
      rw [e, HTree.paths, List.foldl_append]
      exact (Steps.one (busy_walking hr ..) hv).trans rfl (s1.trans rfl s2)

/-! ### The command -/

theorem microA2_eq (s : State) : microA2 s =
    if s.empty then { s with sp := 0, ph := .walk }
    else { setStk s 0 ⟨s.root, 0, 0⟩ with sp := 1, ph := .walk } := by
  unfold microA2
  by_cases he : s.empty = true
  · simp only [if_pos he]
  · simp only [if_neg he]; rfl

/-- The state after the clear end (R130). -/
theorem microA2_clearing {a : State} {j : Nat} (hc : clearedCode a j = [])
    (hj : BitVec.ofNat 9 j = 256) : microA2 (clearing a j) =
      if a.empty then walking (clearAssign a) 0 a.stk
      else walking (clearAssign a) (BitVec.ofNat 9 1)
        (Memory.write stkFill a.stk 0 ⟨a.root, 0, 0⟩) := by
  rw [microA2_eq, clearing_empty]
  by_cases he : a.empty = true
  · rw [if_pos he, if_pos he, clearing, hc, hj]; rfl
  · rw [if_neg he, if_neg he, clearing, hc, hj]; rfl

theorem microOp_end (s : State) (k : Memory StkEntry) : microOp (walking s 0 k) =
    .next { consumeTree s with
      sp := 0, ix := 0, ph := .idle, stk := k, rsp := some ⟨.ok, .nothing⟩ } := by
  rw [microOp_of_walk (walking_ph ..), walking_sp, if_pos rfl]
  rfl

/-- R134: after A0, 258 micro-operations for k = 0 and 257 + 2k otherwise make what `ASSIGN` makes,
but for what is left in STK. -/
theorem assign_steps {a : State} (h : Consistent a) (hb : a.built = true) (hr : a.rsp = none) :
    ∃ xs k', execAssign a = .next { assigned a xs with rsp := some ⟨.ok, .nothing⟩ } ∧
      Steps (if presentCount a = 0 then 258 else 257 + 2 * presentCount a) (microA0 a)
        (.next { assigned a xs with stk := k', rsp := some ⟨.ok, .nothing⟩ }) := by
  obtain ⟨xs, hx, he, -, -⟩ := h.assign_eq hb
  obtain ⟨-, hempty, -, -⟩ := h.tree hb
  have hk := presentCount_le a
  have clear : ∀ {b : Nat} {o : Host.Outcome State Fault Refusal},
      Steps b (clearing a 256) o → Steps (256 + b) (microA0 a) o := by
    intro b o hs
    have := Steps.chain (a := 256) (f := fun j => clearing a j) (b := b) (o := o)
      (fun j _ => clearing_busy hr j) (fun j hj => microOp_clear a hj) hs
    simp only [clearing_zero] at this
    exact this
  have h2 : microOp (clearing a 256) = .next (microA2 (clearing a 256)) := by
    rw [microOp_of_clear (clearing_ph ..), clearing_ix, if_neg (by simp), if_pos (by simp)]
  have hbc : Busy (clearing a 256) := clearing_busy hr 256
  have hc256 := clearedCode_all h.memories
  rw [microA2_clearing hc256 rfl, hempty] at h2
  by_cases h0 : presentCount a = 0
  · have hxs : xs = [] := by
      have := hx.leaves.length_eq
      rw [leafList_empty h0, List.length_map] at this
      exact List.eq_nil_of_length_eq_zero this
    subst hxs
    refine ⟨[], a.stk, he, ?_⟩
    rw [h0] at h2
    rw [if_pos h0]
    refine clear (b := 2) (.more hbc h2 (.one (busy_walking (by exact hr) ..) ?_))
    exact microOp_end ..
  · obtain ⟨T, rfl, hT⟩ := hx.tree (by omega)
    have hat := hT a (h.treeReady hb)
    have hlen : T.leaves.length = presentCount a := by
      have := hx.leaves.length_eq
      rw [leafList_length, List.length_map] at this
      rw [← this, ← HTree.paths_leaves T 0 0, List.length_map]
    have hh := T.height_lt_leaves
    obtain ⟨k', -, hs⟩ := walk_steps hat (q := 0) (d := 0) (p := 0) (s := clearAssign a)
      (k := Memory.write stkFill a.stk 0 ⟨a.root, 0, 0⟩) rfl hr (by omega) (by omega)
      (Memory.read_write_same ..)
    refine ⟨T.paths 0 0, k', he, ?_⟩
    rw [if_neg (by simpa using h0)] at h2
    rw [if_neg h0]
    have e : 257 + 2 * presentCount a = 256 + (1 + ((2 * T.leaves.length - 1) + 1)) := by omega
    rw [e]
    refine clear ((Steps.one hbc h2).trans rfl (hs.trans rfl (.one ?_ ?_)))
    · exact busy_walking ((emitAll_only _ (clearAssign a)).rsp.trans hr) ..
    · exact microOp_end ..

/-! ### Memories -/

theorem MemoriesCanonical.startMicro {i : Instr} {s t : State} (h : MemoriesCanonical s)
    (he : startMicro i s = .next t) : MemoriesCanonical t := by
  cases i with
  | build =>
    simp only [Machine.startMicro, Host.Outcome.next.injEq] at he
    subst he
    exact ⟨h.1, h.2.1, h.2.2.1, rfl, h.2.2.2.2⟩
  | assign =>
    simp only [Machine.startMicro] at he
    split at he
    · simp only [refuse, respond, Host.Outcome.next.injEq] at he
      subst he
      exact h.congr rfl rfl rfl rfl rfl
    · simp only [Host.Outcome.next.injEq] at he
      subst he
      exact h.congr rfl rfl rfl rfl rfl
  | nop | clr | wrf b | rdf b | rdn n | rdc b | rds | rdw x =>
    rw [startMicro_short (by simp) (by simp)] at he
    exact h.exec he

/-- A run of micro-operations keeps the memories canonical. -/
theorem Steps.canonical {n : Nat} {s t : State} {o : Host.Outcome State Fault Refusal}
    (h : Steps n s o) (ho : o = .next t) (hs : MemoriesCanonical s) : MemoriesCanonical t := by
  induction h with
  | last hb => exact hs.microOp ho
  | more hb he _ ih => exact ih ho (hs.microOp he)

end Sys2Proof.Machine
end

