-- ==== Sys2Proof/Laws/Optimal.lean ====
section
/-! SUPPORT. What merging the two least costs (spec/41_tree_build.md rule R107): any tree over some
weights can be turned into a tree over the merged weights that is cheaper by at least the two least
weights together. -/

namespace Sys2Proof.Machine

/-- A binary tree without its labels. -/
inductive Shape where
  | leaf
  | node (l r : Shape)

/-- The depths of the leaves from left to right, when the root has depth `d`. -/
def Shape.depths : Shape → Nat → List Nat
  | .leaf, d => [d]
  | .node l r, d => l.depths (d + 1) ++ r.depths (d + 1)

/-- The sum of weight times depth. -/
def dot (w E : List Nat) : Nat := (List.zipWith (· * ·) w E).sum

theorem dot_cons (x e : Nat) (w E : List Nat) : dot (x :: w) (e :: E) = x * e + dot w E := by
  simp [dot]

theorem dot_append {w w' E E' : List Nat} (h : w.length = E.length) :
    dot (w ++ w') (E ++ E') = dot w E + dot w' E' := by
  rw [dot, List.zipWith_append h, List.sum_append, dot, dot]

theorem Shape.depths_pos (s : Shape) (d : Nat) : 1 ≤ (s.depths d).length := by
  induction s generalizing d with
  | leaf => simp [Shape.depths]
  | node l r ih _ => have := ih (d + 1); simp only [Shape.depths, List.length_append]; omega

/-- Two sibling leaves of greatest depth, and the shape in which they are one leaf. -/
structure Deepest (s : Shape) (d : Nat) (pre post : List Nat) (m : Nat) (s' : Shape) : Prop where
  depths : s.depths d = pre ++ (m + 1) :: (m + 1) :: post
  joined : s'.depths d = pre ++ m :: post
  le : ∀ x ∈ s.depths d, x ≤ m + 1
  ge : d ≤ m

theorem Shape.deepest (s : Shape) (d : Nat) :
    s = .leaf ∨ ∃ pre post m s', Deepest s d pre post m s' := by
  induction s generalizing d with
  | leaf => exact .inl rfl
  | node l r ihl ihr =>
    right
    have left : ∀ pre post m l', Deepest l (d + 1) pre post m l' →
        (∀ x ∈ r.depths (d + 1), x ≤ m + 1) → ∃ pre post m s', Deepest (.node l r) d pre post m s' := by
      intro pre post m l' h hr
      refine ⟨pre, post ++ r.depths (d + 1), m, .node l' r, ?_, ?_, ?_, by have := h.ge; omega⟩
      · simp [Shape.depths, h.depths]
      · simp [Shape.depths, h.joined]
      · intro x hx
        rcases List.mem_append.1 hx with hx | hx
        · exact h.le x hx
        · exact hr x hx
    have right : ∀ pre post m r', Deepest r (d + 1) pre post m r' →
        (∀ x ∈ l.depths (d + 1), x ≤ m + 1) → ∃ pre post m s', Deepest (.node l r) d pre post m s' := by
      intro pre post m r' h hl
      refine ⟨l.depths (d + 1) ++ pre, post, m, .node l r', ?_, ?_, ?_, by have := h.ge; omega⟩
      · simp [Shape.depths, h.depths]
      · simp [Shape.depths, h.joined]
      · intro x hx
        rcases List.mem_append.1 hx with hx | hx
        · exact hl x hx
        · exact h.le x hx
    rcases ihl (d + 1) with rfl | ⟨p1, q1, m1, l', h1⟩
    · rcases ihr (d + 1) with rfl | ⟨p2, q2, m2, r', h2⟩
      · exact ⟨[], [], d, .leaf, rfl, rfl, by simp [Shape.depths], Nat.le_refl d⟩
      · refine right _ _ _ _ h2 fun x hx => ?_
        have := h2.ge
        simp only [Shape.depths, List.mem_singleton] at hx
        omega
    · rcases ihr (d + 1) with rfl | ⟨p2, q2, m2, r', h2⟩
      · refine left _ _ _ _ h1 fun x hx => ?_
        have := h1.ge
        simp only [Shape.depths, List.mem_singleton] at hx
        omega
      · rcases Nat.le_total m1 m2 with h | h
        · exact right _ _ _ _ h2 fun x hx => (h1.le x hx).trans (by omega)
        · exact left _ _ _ _ h1 fun x hx => (h2.le x hx).trans (by omega)

/-- A weight `a` of the list `x :: u`, none above `x`, may take `x`'s place at greatest depth. -/
theorem exchange {a x M : Nat} {u E : List Nat} (hlen : u.length = E.length)
    (hE : ∀ e ∈ E, e ≤ M) (ha : a ∈ x :: u) (hax : a ≤ x) :
    ∃ u', u'.length = E.length ∧ (a :: u').Perm (x :: u) ∧
      dot u' E + a * M ≤ dot u E + x * M := by
  rcases List.mem_cons.1 ha with rfl | ha
  · exact ⟨u, hlen, .refl _, Nat.le_refl _⟩
  · obtain ⟨u1, u2, rfl⟩ := List.append_of_mem ha
    simp only [List.length_append, List.length_cons] at hlen
    obtain ⟨E1, e, E2, rfl, h1⟩ : ∃ E1 e E2, E = E1 ++ e :: E2 ∧ u1.length = E1.length := by
      have hlt : u1.length < E.length := by omega
      exact ⟨E.take u1.length, E[u1.length], E.drop (u1.length + 1), by
        rw [← List.drop_eq_getElem_cons hlt, List.take_append_drop], by
        rw [List.length_take]; omega⟩
    refine ⟨u1 ++ x :: u2, by simp at hlen ⊢; omega, ?_, ?_⟩
    · exact ((List.perm_middle (l₁ := u1)).cons a).trans
        ((List.Perm.swap x a _).trans ((List.perm_middle (l₁ := u1)).symm.cons x))
    · rw [dot_append h1, dot_append h1, dot_cons, dot_cons]
      have he : e ≤ M := hE e (by simp)
      obtain ⟨y, rfl⟩ := Nat.exists_eq_add_of_le hax
      have := Nat.mul_le_mul_left y he
      simp only [Nat.add_mul] at *
      omega

/-- Two least weights may take the places of greatest depth. -/
theorem exchange_two {a b x y M : Nat} {u E R : List Nat} (hlen : u.length = E.length)
    (hE : ∀ e ∈ E, e ≤ M) (hp : (x :: y :: u).Perm (a :: b :: R)) (hab : a ≤ b)
    (hb : ∀ r ∈ R, b ≤ r) : ∃ u', u'.length = E.length ∧ u'.Perm R ∧
      dot u' E + (a + b) * M ≤ dot u E + (x + y) * M := by
  have go : ∀ x y, (x :: y :: u).Perm (a :: b :: R) → a ∈ x :: u →
      ∃ u', u'.length = E.length ∧ u'.Perm R ∧
        dot u' E + (a + b) * M ≤ dot u E + (x + y) * M := by
    intro x y hp ha
    have hall : ∀ z ∈ x :: y :: u, a ≤ z := by
      intro z hz
      rcases List.mem_cons.1 (hp.mem_iff.1 hz) with rfl | hz
      · exact Nat.le_refl _
      · rcases List.mem_cons.1 hz with rfl | hz
        · exact hab
        · exact hab.trans (hb z hz)
    obtain ⟨u1, l1, p1, c1⟩ := exchange hlen hE ha (hall x (by simp))
    have p2 : (y :: u1).Perm (b :: R) := by
      have h1 : (a :: y :: u1).Perm (x :: y :: u) :=
        (List.Perm.swap y a u1).trans ((p1.cons y).trans (List.Perm.swap x y u))
      exact (h1.trans hp).cons_inv
    have hby : ∀ z ∈ y :: u1, b ≤ z := by
      intro z hz
      rcases List.mem_cons.1 (p2.mem_iff.1 hz) with rfl | hz
      · exact Nat.le_refl _
      · exact hb z hz
    obtain ⟨u2, l2, p3, c2⟩ := exchange l1 hE (p2.mem_iff.2 (by simp)) (hby y (by simp))
    refine ⟨u2, l2, (p3.trans p2).cons_inv, ?_⟩
    simp only [Nat.add_mul] at *
    omega
  have ha : a ∈ x :: y :: u := hp.mem_iff.2 (by simp)
  by_cases h : a ∈ x :: u
  · exact go x y hp h
  · have hay : a ∈ y :: u := by
      simp only [List.mem_cons, not_or] at *
      tauto
    obtain ⟨u', h1, h2, h3⟩ := go y x ((List.Perm.swap x y u).trans hp) hay
    exact ⟨u', h1, h2, by rw [Nat.add_comm x y]; exact h3⟩

/-- Any tree over weights whose two least are `a` and `b` costs at least `a + b` more than some tree
over the weights in which these two are one. -/
theorem contract {s : Shape} {w R : List Nat} {a b : Nat} (hlen : w.length = (s.depths 0).length)
    (hp : w.Perm (a :: b :: R)) (hab : a ≤ b) (hb : ∀ r ∈ R, b ≤ r) :
    ∃ (s' : Shape) (w' : List Nat), w'.length = (s'.depths 0).length ∧ w'.Perm ((a + b) :: R) ∧
      dot w' (s'.depths 0) + (a + b) ≤ dot w (s.depths 0) := by
  rcases s.deepest 0 with rfl | ⟨pre, post, m, s', h⟩
  · have := hp.length_eq
    simp only [Shape.depths, List.length_cons, List.length_nil] at hlen this
    omega
  · rw [h.depths] at hlen ⊢
    simp only [List.length_append, List.length_cons] at hlen
    obtain ⟨w1, x, y, w2, rfl, h1⟩ :
        ∃ w1 x y w2, w = w1 ++ x :: y :: w2 ∧ w1.length = pre.length := by
      have hlt : pre.length < w.length := by omega
      have hlt' : pre.length + 1 < w.length := by omega
      refine ⟨w.take pre.length, w[pre.length], w[pre.length + 1], w.drop (pre.length + 2), ?_, by
        rw [List.length_take]; omega⟩
      rw [← List.drop_eq_getElem_cons hlt', ← List.drop_eq_getElem_cons hlt,
        List.take_append_drop]
    simp only [List.length_append, List.length_cons] at hlen
    have hE : ∀ e ∈ pre ++ post, e ≤ m + 1 := by
      intro e he
      refine h.le e ?_
      rw [h.depths]
      simp only [List.mem_append, List.mem_cons] at he ⊢
      tauto
    have hp' : (x :: y :: (w1 ++ w2)).Perm (a :: b :: R) := by
      refine List.Perm.trans ?_ hp
      exact ((List.perm_middle (l₁ := w1)).symm.cons x).trans
        (List.perm_middle (l₁ := w1)).symm
    obtain ⟨u, l, p, c⟩ := exchange_two (E := pre ++ post) (M := m + 1)
      (by simp only [List.length_append]; omega) hE hp' hab hb
    simp only [List.length_append] at l
    obtain ⟨u1, u2, rfl, g1⟩ : ∃ u1 u2, u = u1 ++ u2 ∧ u1.length = pre.length :=
      ⟨u.take pre.length, u.drop pre.length, (List.take_append_drop _ _).symm, by
        rw [List.length_take]; omega⟩
    refine ⟨s', u1 ++ (a + b) :: u2, ?_, ?_, ?_⟩
    · rw [h.joined]
      simp only [List.length_append, List.length_cons] at *
      omega
    · exact (List.perm_middle (l₁ := u1)).trans (p.cons (a + b))
    · rw [h.joined, dot_append g1, dot_cons, dot_append h1, dot_cons, dot_cons]
      rw [dot_append g1, dot_append h1] at c
      simp only [Nat.add_mul, Nat.mul_add, Nat.mul_one] at *
      omega

/-! ### Trees and merge rounds -/

/-- A tree without its labels. -/
def HTree.shape : HTree → Shape
  | .leaf _ _ => .leaf
  | .internal _ l r => .node l.shape r.shape

/-- The weights of a tree's leaves. -/
def HTree.leafWeights (T : HTree) : List Nat := T.leaves.map fun p => p.2.toNat

theorem HTree.leafWeights_length (T : HTree) (d : Nat) :
    T.leafWeights.length = (T.shape.depths d).length := by
  induction T generalizing d with
  | leaf b w => rfl
  | internal w l r ihl ihr =>
    have h1 := ihl (d + 1)
    have h2 := ihr (d + 1)
    simp only [HTree.leafWeights, HTree.leaves, HTree.shape, Shape.depths, List.length_append,
      List.length_map] at *
    omega

theorem HTree.cost_eq_dot (T : HTree) (d : Nat) :
    T.cost d = dot T.leafWeights (T.shape.depths d) := by
  induction T generalizing d with
  | leaf b w => simp [HTree.cost, HTree.leafWeights, HTree.leaves, HTree.shape, Shape.depths, dot]
  | internal w l r ihl ihr =>
    have h := l.leafWeights_length (d + 1)
    rw [HTree.cost, ihl, ihr]
    simp only [HTree.leafWeights, HTree.leaves, HTree.shape, Shape.depths, List.map_append] at *
    rw [dot_append h]

/-- No tree over the leaves costs less than the merges made so far and some tree over the
candidates. -/
def MergeBound (L : List (Sym × Weight)) (s : State) : Prop :=
  ∀ (sh : Shape) (w : List Nat), w.length = (sh.depths 0).length →
    w.Perm (L.map fun p => p.2.toNat) →
    ∃ (sh' : Shape) (w' : List Nat), w'.length = (sh'.depths 0).length ∧
      w'.Perm ((candidates s).map (weightAt s)) ∧
      dot w' (sh'.depths 0) + innerTotal s L.length (s.next.toNat - L.length) ≤
        dot w (sh.depths 0)

theorem MergeBound.step {L : List (Sym × Weight)} {s : State} (hb : MergeBound L s)
    (h : MergeInv L s) (hc : 2 ≤ candCount s) : MergeBound L (mergeRound s) := by
  intro sh w hw hp
  obtain ⟨sh1, w1, l1, p1, c1⟩ := hb sh w hw hp
  have hr := roundFacts hc
  have hsplit := (candidates_split hr).map (weightAt s)
  have hround := h.candidates_round hc
  have hnew := mergedNode_weight (h.weight_pair hr)
  have hnext := h.next_succ hc
  have hwn : weightAt (mergeRound s) s.next =
      weightAt s (leastCandidate s) + weightAt s (leastCandidate (firstExtracted s)) := by
    rw [weightAt, nodeAt_mergeRound_next, hnew]
  generalize leastCandidate s = m1 at *
  generalize leastCandidate (firstExtracted s) = m2 at *
  simp only [List.map_cons] at hsplit
  have hle12 : weightAt s m1 ≤ weightAt s m2 := by
    rcases hr.least1 m2 hr.cand2 hr.lt2 with h | h <;> omega
  have hle : ∀ x ∈ (others s m1 m2).map (weightAt s), weightAt s m2 ≤ x := by
    intro x hx
    obtain ⟨j, hj, rfl⟩ := List.mem_map.1 hx
    obtain ⟨⟨h1, h2⟩, h3, -⟩ := mem_others.1 hj
    rcases hr.least2 j h2 h1 h3 with h | h <;> omega
  obtain ⟨sh2, w2, l2, p2, c2⟩ := contract l1 (p1.trans hsplit) hle12 hle
  have hm := hround.map (weightAt (mergeRound s))
  have hkeep : (others s m1 m2).map (weightAt (mergeRound s)) =
      (others s m1 m2).map (weightAt s) :=
    List.map_congr_left fun j hj => weightAt_mergeRound_lt (h.candlt j (mem_others.1 hj).1.2)
  rw [List.map_cons, hwn, hkeep] at hm
  refine ⟨sh2, w2, l2, p2.trans hm.symm, ?_⟩
  · have hge := h.ge
    have hlt := s.next.isLt
    have e : (mergeRound s).next.toNat - L.length = (s.next.toNat - L.length) + 1 := by omega
    have e' : L.length + (s.next.toNat - L.length) = s.next.toNat := by omega
    rw [e, innerTotal_succ, e']
    have e2 : (BitVec.ofNat 9 s.next.toNat : NodeIdx) = s.next := by simp
    rw [e2, hwn, innerTotal_congr (s := s) (t := mergeRound s) fun r hr' => by
      apply weightAt_mergeRound_lt
      simp only [BitVec.toNat_ofNat, Config.IDXW]
      omega]
    omega

theorem MergeBound.all {L : List (Sym × Weight)} (fuel : Nat) {s : State} (hb : MergeBound L s)
    (h : MergeInv L s) : MergeBound L (mergeAll fuel s) := by
  induction fuel generalizing s with
  | zero => exact hb
  | succ n ih =>
    unfold mergeAll
    split
    · rename_i hc
      exact ih (hb.step h hc) (h.step hc)
    · exact hb

theorem mergeBound_leaves (s : State) :
    MergeBound (leafList s) (makeLeaves (clearBuild s)) := by
  have h := mergeInv_leaves s
  have hM := makeLeaves_spec s
  have hlen := leafList_length s
  have hn := hM.next
  have hcand := hM.cand
  generalize makeLeaves (clearBuild s) = t at *
  intro sh w hw hp
  have h0 : t.next.toNat - (leafList s).length = 0 := by
    rw [hlen, hn, presentCount]; omega
  refine ⟨sh, w, hw, hp.trans ?_, by rw [h0]; exact Nat.le_refl _⟩
  have hsm := h.small
  have hc : (candidates t).Perm
      ((List.range (leafList s).length).map (BitVec.ofNat 9)) := by
    refine (List.perm_ext_iff_of_nodup (candidates_nodup t) ?_).2 fun i => ?_
    · refine List.Nodup.map_on (fun a ha b hb e => ?_) List.nodup_range
      have e' := congrArg BitVec.toNat e
      simp only [List.mem_range, BitVec.toNat_ofNat] at ha hb e'
      omega
    · rw [mem_candidates, hcand]
      simp only [decide_eq_true_eq, List.mem_map, List.mem_range]
      change _ ∧ i.toNat < presentCount s ↔ _
      constructor
      · rintro ⟨-, hi⟩
        exact ⟨i.toNat, by omega, by simp⟩
      · rintro ⟨j, hj, rfl⟩
        simp only [BitVec.toNat_ofNat, Config.IDXW]
        omega
  refine List.Perm.trans (.of_eq ?_) (hc.map (weightAt t)).symm
  rw [List.map_map]
  have : (List.range (leafList s).length).map (weightAt t ∘ BitVec.ofNat 9) =
      (List.range ((leafList s).map fun p => p.2.toNat).length).map
        (weightAt t ∘ BitVec.ofNat 9) := by rw [List.length_map]
  rw [this, perm_range_map]
  intro j hj
  rw [List.length_map] at hj
  simp only [Function.comp_apply, weightAt, h.leaf j hj, List.getElem_map]

/-- `BUILD` ends with the bound. -/
theorem buildState_bound (s : State) : MergeBound (leafList s) (buildState s) := by
  have hb := mergeBound_leaves s
  have h := mergeInv_leaves s
  unfold buildState
  generalize makeLeaves (clearBuild s) = u at *
  have key : MergeBound (leafList s) (mergeIfTwo u) := by
    unfold mergeIfTwo
    split
    · exact hb.all _ h
    · exact hb
  generalize mergeIfTwo u = v at key
  exact key

/-- With one candidate left, the merges cost no more than any tree over the leaves. -/
theorem buildState_least {s : State} (hk : 1 ≤ presentCount s) (T : HTree)
    (hT : T.leaves.Perm (leafList s)) :
    innerTotal (buildState s) (presentCount s) (presentCount s - 1) ≤ T.cost 0 := by
  have hb := buildState_bound s
  have hc := buildState_counts s
  have hr := buildState_root_cand hk
  generalize buildState s = t at *
  obtain ⟨sh, w, l, p, c⟩ := hb T.shape T.leafWeights (T.leafWeights_length 0) (hT.map _)
  rw [← T.cost_eq_dot, leafList_length, hc.next] at c
  have e : 2 * presentCount s - 1 - presentCount s = presentCount s - 1 := by omega
  rw [e] at c
  omega

end Sys2Proof.Machine
end

