-- ==== Sys2Proof/Laws/PerInstr.lean ====
section
/-! SUPPORT. The families of statements made once for each constructor of `Instr`. -/

/-! The word of a command is well-formed, and the row of the opcode map that it matches is the
command's own and no other (spec/30_encoding.md rule R69). -/

namespace Sys2Proof.Laws.Encoded

/-- The encoding of `i` is a well-formed word that matches exactly the row of `i`'s mnemonic. -/
def Statement (i : Instr) : Prop :=
  wellFormedWord (encode i) = true ∧
    (opcodeTable.filter fun r => r.accepts (encode i)).map OpcodeRow.mnemonic = [mnemonic i]

theorem nop : Statement .nop := by unfold Statement; decide

theorem clr : Statement .clr := by unfold Statement; decide

theorem wrf (b : Sym) : Statement (.wrf b) := by revert b; unfold Statement; decide

theorem rdf (b : Sym) : Statement (.rdf b) := by revert b; unfold Statement; decide

theorem build : Statement .build := by unfold Statement; decide

theorem assign : Statement .assign := by unfold Statement; decide

theorem rdn (i : NodeIdx) : Statement (.rdn i) := by revert i; unfold Statement; decide

theorem rdc (b : Sym) : Statement (.rdc b) := by revert b; unfold Statement; decide

theorem rds : Statement .rds := by unfold Statement; decide

theorem rdw (s : BitVec 1) : Statement (.rdw s) := by revert s; unfold Statement; decide

end Sys2Proof.Laws.Encoded
end

