-- ==== Sys2Proof/Tests/Slice0.lean ====
section
/-! SUPPORT. Tests against the vectors of spec/95_test_vectors.md, and for each obligation with
hypotheses a concrete state and operands that meet them. -/

set_option Elab.async false

namespace Sys2Proof.Tests

open Sys2Proof.Machine

/-! ### Small states -/

/-- The next state of an outcome, or the reset state where it stops. -/
def after : Host.Outcome State Fault Refusal → State
  | .next t => t
  | .fault _ => State.reset
  | .refused _ => State.reset

/-- Whether an outcome is a next state. -/
def goes : Host.Outcome State Fault Refusal → Bool
  | .next _ => true
  | .fault _ => false
  | .refused _ => false

theorem next_after {o : Host.Outcome State Fault Refusal} (h : goes o = true) :
    o = .next (after o) := by
  cases o with
  | next t => rfl
  | fault r => simp [goes] at h
  | refused r => simp [goes] at h

/-- The reset state with counts in FREQ. -/
def table (l : Memory Count) : State := { State.reset with freq := l }

/-- The counts of vector VB1 (scenario S1). -/
def s1 : State := table [(0x41, 3), (0x42, 2), (0x43, 1)]

/-- After vector VB1. -/
def b1 : State := after (exec .build s1)

/-- After vector VA1. -/
def a1 : State := after (exec .assign b1)

/-- The counts of vector VB2: one present byte. -/
def s2 : State := table [(0x61, 5)]

/-- After vector VB2. -/
def b2 : State := after (exec .build s2)

/-- After vector VB3: no present byte. -/
def b3 : State := after (exec .build State.reset)

/-- The counts of vector VB11. -/
def s11 : State := table [(0x61, 5), (0x62, 2), (0x63, 1), (0x64, 1), (0x72, 2)]

/-- After vector VA11. -/
def a11 : State := after (exec .assign (after (exec .build s11)))

/-- A state with one command word at its port. -/
def offered (s : State) (w : Cmd) : State := { s with rsp := none, host := [present w 0] }

/-- The response code and the packed data of an outcome. -/
def answer (o : Host.Outcome State Fault Refusal) : BitVec 2 × Dout :=
  (rspCode (after o), dout (after o))

theorem build_goes (s : State) : ∃ t, exec .build s = .next t := ⟨_, rfl⟩

theorem commands_go (s : State) :
    ∃ u, runCommands [(.wrf 0x41, 9), (.rds, 0)] s = .next u := by
  unfold runCommands
  exact ⟨_, rfl⟩

theorem build_runs (s : State) : ∃ u, runCommands [(.build, 0)] s = .next u := by
  unfold runCommands
  exact ⟨_, rfl⟩

theorem clr_goes (s : State) : ∃ t, exec .clr s = .next t := ⟨_, rfl⟩

theorem wrf_goes (s : State) (b : Sym) : ∃ t, exec (.wrf b) s = .next t := ⟨_, rfl⟩

theorem rdf_goes (s : State) (b : Sym) : ∃ t, exec (.rdf b) s = .next t := ⟨_, rfl⟩

theorem rds_goes (s : State) : ∃ t, exec .rds s = .next t := ⟨_, rfl⟩

theorem nop_goes (s : State) : ∃ t, exec .nop s = .next t := ⟨_, rfl⟩

theorem consistent_table {l : Memory Count} (h : Memory.wf freqFill Config.NSYM l = true) :
    Consistent (table l) :=
  .invalidated ⟨rfl, rfl, rfl, rfl, rfl, rfl, rfl, rfl, rfl⟩ ⟨rfl, rfl⟩ rfl
    (by simp [table, State.reset]) ⟨h, rfl, rfl, rfl, rfl⟩

theorem consistent_s1 : Consistent s1 := consistent_table (by decide)

theorem next_b1 : exec .build s1 = .next b1 := rfl

theorem consistent_b1 : Consistent b1 := consistent_s1.executed next_b1

theorem next_a1 : exec .assign b1 = .next a1 := next_after (by decide +kernel)

theorem consistent_a1 : Consistent a1 := consistent_b1.executed next_a1

theorem consistent_b2 : Consistent b2 :=
  (consistent_table (by decide)).executed (i := .build) (s := s2) rfl

theorem consistent_b3 : Consistent b3 :=
  (consistent_table (l := []) rfl).executed (i := .build) (s := State.reset) rfl

theorem consistent_offered {s : State} (h : Consistent s) (w : Cmd) : Consistent (offered s w) :=
  h.port s.din none [present w 0]

theorem built_b1 : b1.built = true := (buildState_counts s1).built

theorem built_b2 : b2.built = true := (buildState_counts s2).built

theorem built_b3 : b3.built = true := (buildState_counts State.reset).built

/-! What the witnesses need of these states, each state evaluated once. -/

theorem facts_counts : presentCount s1 = 3 ∧ presentCount s2 = 1 ∧ presentCount State.reset = 0 := by
  decide +kernel

theorem present_s1 : presentCount s1 = 3 := facts_counts.1

theorem present_s2 : presentCount s2 = 1 := facts_counts.2.1

theorem after_built (s : State) : after (exec .build s) =
    { buildState s with rsp := some ⟨.ok, .nothing⟩ } := by
  simp only [exec, execBuild, respond, after]

theorem freq_built (s : State) : FreqKept s (after (exec .build s)) := by
  intro b
  have h := (buildState_keeps s).freq
  rw [after_built]
  generalize buildState s = v at *
  exact freqAt_congr (s := s) (t := { v with rsp := some ⟨.ok, .nothing⟩ }) h b

theorem tree_built {s : State} (h : 1 ≤ presentCount s) :
    ∃ T, TreeAt (after (exec .build s)) (after (exec .build s)).root T := by
  obtain ⟨T, hT, -⟩ := buildState_tree h
  rw [after_built]
  generalize buildState s = v at *
  exact ⟨T, TreeAt.of_node (s := v) (t := { v with rsp := some ⟨.ok, .nothing⟩ }) rfl hT⟩

theorem present_b1 : presentCount b1 = 3 :=
  (presentCount_congr (freq_built s1)).trans present_s1

theorem present_b3 : presentCount b3 = 0 :=
  (presentCount_congr (freq_built State.reset)).trans facts_counts.2.2

theorem freq_b1 (b : Sym) : freqAt b1 b = freqAt s1 b :=
  freq_built s1 b

theorem facts_b1 : b1.next = 5 ∧ b1.root = 4 ∧ b1.codev = false ∧ b1.empty = false ∧
    (nodeAt b1 2).kind = .leaf ∧ (nodeAt b1 4).kind = .internal ∧
    (after (exec (.rdn 5) b1)).rsp = some ⟨.index, .nothing⟩ ∧ goes (exec (.rdn 5) b1) = true ∧
    goes (exec (.rdn 4) b1) = true := by
  decide +kernel

theorem facts_a1 : a1.codev = true ∧ (codeAt a1 0x42).len = 1 ∧ (codeAt a1 0x42).rawlen = 2 ∧
    (codeAt a1 0x43).rawlen = 2 ∧ goes (exec (.rdc 0xFF) a1) = true ∧
    goes (exec (.rdw 1) a1) = true := by
  decide +kernel

theorem codev_b1 : b1.codev = false := facts_b1.2.2.1

theorem codev_a1 : a1.codev = true := facts_a1.1

theorem facts_a2 : goes (exec .assign b2) = true ∧ (after (exec .assign b2)).codev = true ∧
    presentCount (after (exec .assign b2)) ≤ 1 ∧ b2.single = true ∧ b2.empty = false ∧
    b3.empty = true := by decide +kernel

/-! ### Well-formedness: an ill-formed word for each check, refused (VE2, VE7, VE17, VE24, VE25) -/

theorem test_illformed_opcode : wellFormedWord 0xA000#16 = false ∧
    decode 0xA000#16 = .reservedOpcode := by decide

theorem test_illformed_z : wellFormedWord 0x0001#16 = false ∧
    decode 0x0001#16 = .reservedBits := by decide

theorem test_illformed_b : wellFormedWord 0x2100#16 = false ∧
    decode 0x2100#16 = .reservedBits := by decide

theorem test_illformed_n : wellFormedWord 0x6200#16 = false ∧
    decode 0x6200#16 = .reservedBits := by decide

theorem test_illformed_s : wellFormedWord 0x9002#16 = false ∧
    decode 0x9002#16 = .reservedBits := by decide

/-! ### Decoding: words of section 2.1 of the vectors, bit by bit -/

theorem test_decode_nop : decode 0b0000000000000000#16 = .command .nop := by decide

theorem test_decode_clr : decode 0b0001000000000000#16 = .command .clr ∧
    decode 0b0001100000000000#16 = .reservedBits := by decide

theorem test_decode_wrf : decode 0b0010000000000000#16 = .command (.wrf 0) ∧
    decode 0b0010000011111111#16 = .command (.wrf 0xFF) := by decide

theorem test_decode_rdf : decode 0b0011000001000001#16 = .command (.rdf 0x41) ∧
    decode 0b0011111101000001#16 = .reservedBits := by decide

theorem test_decode_build : decode 0b0100000000000000#16 = .command .build ∧
    decode 0b0100000000000001#16 = .reservedBits := by decide

theorem test_decode_assign : decode 0b0101000000000000#16 = .command .assign ∧
    decode 0b0101111111111111#16 = .reservedBits := by decide

theorem test_decode_rdn : decode 0b0110000111111110#16 = .command (.rdn 510) ∧
    decode 0b0110000111111111#16 = .command (.rdn 511) := by decide

theorem test_decode_rdc : decode 0b0111000001000010#16 = .command (.rdc 0x42) ∧
    decode 0b0111000101000010#16 = .reservedBits := by decide

theorem test_decode_rds : decode 0b1000000000000000#16 = .command .rds ∧
    decode 0b1000000000010000#16 = .reservedBits := by decide

theorem test_decode_rdw : decode 0b1001000000000000#16 = .command (.rdw 0) ∧
    decode 0b1001000000000001#16 = .command (.rdw 1) := by decide

theorem test_decode_reserved : decode 0b1111000000000000#16 = .reservedOpcode ∧
    decode 0b1111111111111111#16 = .reservedOpcode := by decide

/-! ### Commands: the source of each expected result is named -/

/-- VT2. -/
theorem test_nop : answer (exec .nop s1) = (0, 0) := by decide +kernel

/-- VF7. -/
theorem test_clr_zeroes : freqAt (after (exec .clr s1)) 0x41 = 0 := by decide

/-- VF10, VX10. -/
theorem test_clr_error : (after (exec .clr (after (exec (.rdn 0) s1)))).err = false := by decide

/-- VF3: the later `WRF` wins. -/
theorem test_wrf_later : freqAt (after (exec (.wrf 0x41) { s1 with din := 7 })) 0x41 = 7 := by decide

/-- VF9: `WRF` does not clear ERR. -/
theorem test_wrf_error :
    status (after (exec (.wrf 0x41) (after (exec (.rdn 0) State.reset)))) = 0x00000050#32 := by
  decide

/-- VF2. -/
theorem test_rdf : answer (exec (.rdf 0x41) s1) = (0, 3) ∧
    answer (exec (.rdf 0x44) s1) = (0, 0) := by decide +kernel

/-- VB1: the nodes. -/
theorem test_build_nodes : [0, 1, 2, 3, 4].map (nodeAt b1) =
    [⟨.leaf, 3, 0x41, 0, 0⟩, ⟨.leaf, 2, 0x42, 0, 0⟩, ⟨.leaf, 1, 0x43, 0, 0⟩,
     ⟨.internal, 3, 0, 2, 1⟩, ⟨.internal, 6, 0, 3, 0⟩] := by decide +kernel

/-- VB8: the largest counts; the sum does not wrap. -/
theorem test_build_largest : nodeAt (after (exec .build
    (table [(0, 0xFFFFFFFF), (1, 0xFFFFFFFF)]))) 2 =
      ⟨.internal, 8589934590, 0, 1, 0⟩ := by decide +kernel

/-- VA1: the codes. -/
theorem test_assign_codes : [0x41, 0x42, 0x43, 0x44].map (codeAt a1) =
    [⟨1, 1, 1⟩, ⟨2, 1, 1⟩, ⟨2, 0, 0⟩, ⟨0, 0, 0⟩] := by decide +kernel

/-- VA11: the codes and the sums. -/
theorem test_assign_more : [0x61, 0x62, 0x63, 0x64, 0x72].map (codeAt a11) =
    [⟨1, 0, 0⟩, ⟨2, 2, 2⟩, ⟨4, 4, 13⟩, ⟨4, 4, 12⟩, ⟨3, 3, 7⟩] ∧
      a11.wlenraw = 23 ∧ a11.wlen = 18 := by decide +kernel

/-- VN4. -/
theorem test_rdn : answer (exec (.rdn 4) b1) = (0, 0x40000000018000600) := by decide +kernel

/-- VN5, VN7. -/
theorem test_rdn_refused : answer (exec (.rdn 5) b1) = (3, 0) ∧
    answer (exec (.rdn 0) State.reset) = (2, 0) := by decide +kernel

/-- VC2. -/
theorem test_rdc : answer (exec (.rdc 0x42) a1) = (0, 2 * 2 ^ 263 + 2 ^ 255 + 1) := by
  decide +kernel

/-- VC7. -/
theorem test_rdc_refused : answer (exec (.rdc 0) State.reset) = (2, 0) := by decide +kernel

/-- VT7, VT8. -/
theorem test_rds : answer (exec .rds b1) = (0, 0x00080301) ∧
    answer (exec .rds a1) = (0, 0x00080302) := by decide +kernel

/-- VT13. -/
theorem test_rds_error : answer (exec .rds (after (exec (.rdn 0) b3))) = (0, 0x00000075) := by
  decide +kernel

/-- VW1, VW2. -/
theorem test_rdw : answer (exec (.rdw 0) a1) = (0, 5) ∧ answer (exec (.rdw 1) a1) = (0, 9) := by
  decide +kernel

/-- VW4. -/
theorem test_rdw_refused : answer (exec (.rdw 0) State.reset) = (2, 0) := by decide +kernel

/-- VX1, VX8: an ILLEGAL word, and the first code kept. -/
theorem test_illegal : status (after (step (offered State.reset 0xA000))) = 0x00000030#32 ∧
    status (after (step (offered (after (exec .assign State.reset)) 0xA000))) = 0x00000050#32 := by
  decide

/-- VZ3: reset during a command. -/
theorem test_reset_busy :
    (after (step { s1 with ph := .merge, host := [pulseRst] })).ph = .idle := by decide

/-- The stripping vectors of section 2.4: "0010" is stored as "10", "0" as the empty code. -/
theorem test_stripping : leafCode 4 2 = ⟨4, 2, 2⟩ ∧ leafCode 1 0 = ⟨1, 0, 0⟩ ∧
    leafCode 4 5 = ⟨4, 3, 5⟩ ∧ (leafCode 4 2).storedCode = [true, false] := by decide

/-- A line of R75's own examples, comments and pseudo-instructions included. -/
theorem test_assemble : assembleText "LOAD 0x41:3, 0x42:2 ; counts\n RUN\n\nRDW 1".toList =
    some [(0x1000#16, 0), (0x2041#16, 3), (0x2042#16, 2), (0x4000#16, 0), (0x5000#16, 0),
      (0x9001#16, 0)] := by decide

/-- An operand out of range is an error of the assembler (R75). -/
theorem test_assemble_range : assembleText "RDN 512".toList = none ∧
    assembleText "WRF 256, 1".toList = none := by decide

/-! ### Witnesses: each meets the hypotheses of the obligation that its name ends in -/

theorem witness_RstReplacesAnyState :
    (portIn { s1 with ph := .merge, ix := 256, host := [pulseRst] }).rst = true := rfl

theorem accepts_offered {s : State} {w : Cmd} {i : Instr} (h : s.ph = .idle)
    (hd : decode w = .command i) : Accepts (offered s w) i := by
  refine ⟨?_, rfl, rfl, hd⟩
  show (decide (s.ph = .idle) && true) = true
  rw [h]; rfl

theorem witness_StepRunsDecodedCommand : Accepts (offered s1 0x4000) .build ∧
    Accepts (offered b1 0x61FF) (.rdn 511) :=
  ⟨accepts_offered rfl (by decide), accepts_offered (buildState_counts s1).ph (by decide)⟩

theorem witness_FetchWordRunsItsCommand : decode 0x20FF#16 = .command (.wrf 0xFF) := by decide

theorem witness_IllegalWordIsRefused : Presents (offered s1 0x9002) ∧
    wellFormedWord (portIn (offered s1 0x9002)).cmd = false := ⟨⟨rfl, rfl, rfl⟩, by decide⟩

theorem witness_CommandNotReadyIsAsNotPresented :
    (∃ s q rest, s.host = q :: rest ∧ q.cmdValid = true ∧ s.ph ≠ .idle ∧ cmdReady s = false) ∧
      ∃ s q rest, s.host = q :: rest ∧ q.cmdValid = true ∧ s.ph = .idle ∧ cmdReady s = false :=
  ⟨⟨{ offered s1 0x4000 with ph := .scan }, present 0x4000 0, [], rfl, rfl, by decide, rfl⟩,
    ⟨{ offered s1 0x4000 with rsp := some ⟨.ok, .nothing⟩ }, present 0x4000 0, [], rfl, rfl, rfl,
      rfl⟩⟩

/-- A response held, with a host that takes it or not. -/
def held (q : PortIn) : State := { s1 with rsp := some ⟨.ok, .count 3⟩, host := [q] }

theorem witness_ResponseIsHeldUntilTaken :
    (held take).ph = .idle ∧ (held take).rsp = some ⟨.ok, .count 3⟩ ∧
      (portIn (held take)).rst = false ∧ (portIn (held take)).rspReady = true ∧
      (portIn (held (present 0 0))).rst = false ∧
      (portIn (held (present 0 0))).rspReady = false := by decide

theorem witness_EveryCommandAnswers :
    (∃ t, exec .nop s1 = .next t ∧ isRead .nop = false) ∧
      ∃ t, exec (.rdn 0) s1 = .next t ∧ t.rsp = some ⟨.seq, .nothing⟩ :=
  ⟨⟨_, rfl, rfl⟩, ⟨_, rfl, rfl⟩⟩

theorem witness_DecodeEncodeAgree : decode 0x61FF#16 = .command (.rdn 511) ∧
    decode 0x9001#16 = .command (.rdw 1) := by decide

theorem witness_DecodeFollowsOpcodeTable :
    (∃ r ∈ opcodeTable, r.accepts 0x61FF#16 = true) ∧
      ∀ r ∈ opcodeTable, r.accepts 0x6200#16 = false := by decide

theorem witness_OperandsAsTheyStand : decode 0x20FF#16 = .command (.wrf 0xFF) ∧
    decode 0x30FF#16 = .command (.rdf 0xFF) ∧ decode 0x70FF#16 = .command (.rdc 0xFF) ∧
    decode 0x61FF#16 = .command (.rdn 511) ∧ decode 0x9001#16 = .command (.rdw 1) ∧
    ∀ b, Instr.rdf 0xFF ≠ .wrf b := ⟨by decide, by decide, by decide, by decide, by decide, by simp⟩

theorem witness_ResponsePacking : (∃ t, exec (.rdf 0xFF) s1 = .next t) ∧
    (∃ t, exec .rds s1 = .next t) ∧
    (∃ t, b1.built = true ∧ 4 < b1.next ∧ exec (.rdn 4) b1 = .next t) ∧
    (∃ t, a1.codev = true ∧ exec (.rdc 0xFF) a1 = .next t) ∧
    ∃ t, a1.codev = true ∧ exec (.rdw 1) a1 = .next t := by
  have h4 : (4 : NodeIdx) < b1.next := by rw [facts_b1.1]; decide
  exact ⟨rdf_goes s1 0xFF, rds_goes s1, ⟨_, built_b1, h4, next_after facts_b1.2.2.2.2.2.2.2.2⟩,
    ⟨_, codev_a1, next_after facts_a1.2.2.2.2.1⟩, ⟨_, codev_a1, next_after facts_a1.2.2.2.2.2⟩⟩

theorem witness_PseudoInstructions : [(255, 2), (0, 1)] ≠ [] ∧
    (∀ e ∈ [(255, 2 ^ 32 - 1), (0, 1)], e.1 < 256 ∧ e.2 < 2 ^ 32) ∧
      (∃ e ∈ [(256, 1)], ¬(e.1 < 256 ∧ e.2 < 2 ^ 32)) ∧
      (∃ ws, assembleLine (.load [(255, 2), (0, 1)]) = some ws) ∧
      (∃ ws, assembleLine (.load [(0, 1), (255, 2)]) = some ws) ∧
      ([(255, 2), (0, 1)].map Prod.fst).Nodup ∧ [(0, 1), (255, 2)].Perm [(255, 2), (0, 1)] ∧
      (∃ e ∈ [(255, 2), (0, 1)], e.1 = 255) ∧
      (1 : Sym).toNat ∉ [(255, 2), (0, 1)].map Prod.fst :=
  ⟨by decide, by decide, by decide, ⟨_, rfl⟩, ⟨_, rfl⟩, by decide, List.Perm.swap .., by decide,
    by decide⟩

theorem witness_ClrZeroesTheTable : (s1.ph = .idle ∧ s1.ix = 0 ∧ s1.sp = 0) ∧
    ∃ s t, exec .clr s = .next t ∧ s.err = true ∧ t.err = false :=
  ⟨⟨rfl, rfl, rfl⟩, { s1 with err := true, errcode := .seq }, _, rfl, rfl, rfl⟩

theorem witness_WrfWritesOneEntry : (0xFF : Sym) ≠ 0 := by decide

theorem witness_WritesCommuteAndTheLaterWins : (0 : Sym) ≠ 0xFF := by decide

theorem witness_RdfResponds : ∃ u, exec .clr s1 = .next u := ⟨_, rfl⟩

theorem witness_ReadsAndWritesRepeat :
    (∃ t, isRead (.rdf 0x41) = true ∧ exec (.rdf 0x41) s1 = .next t ∧
        Responds t .ok (.count 3)) ∧
      (∃ t, exec (.wrf 0xFF) s1 = .next t) ∧ ∃ t, exec .clr s1 = .next t :=
  ⟨⟨_, rfl, rfl, rfl⟩, ⟨_, rfl⟩, ⟨_, rfl⟩⟩

theorem witness_BuildCompletes : 1 ≤ presentCount s1 ∧ 1 ≤ presentCount s2 ∧
    presentCount b3 = 0 := by
  rw [present_s1, present_s2, present_b3]; decide

theorem witness_BuildFrame : exec .build a1 = .next (after (exec .build a1)) ∧
    a1.codev = true := ⟨rfl, codev_a1⟩

theorem witness_BuildMakesLeaves : (2 < (presentSyms s1).length) ∧ exec .build s1 = .next b1 :=
  ⟨by have := present_s1; rw [presentCount] at this; omega, next_b1⟩

/-- The candidates that vector VB1's first merge round chooses among. -/
def leaves1 : State := { makeLeaves (clearBuild s1) with ph := .merge }

theorem facts_leaves1 : candAt leaves1 0 = true ∧ 0 ≠ leastCandidate leaves1 ∧
    2 ≤ candCount leaves1 ∧ leaves1.next.toNat < 511 := by decide +kernel

theorem witness_ExtractMinIsLeast : (0 : NodeIdx).toNat < 511 ∧ candAt leaves1 0 = true ∧
    0 ≠ leastCandidate leaves1 ∧ key leaves1 0 = key leaves1 0 :=
  ⟨by decide, facts_leaves1.1, facts_leaves1.2.1, rfl⟩

theorem witness_MergeRoundTakesTheTwoLeast : leaves1.ph = .merge ∧ 2 ≤ candCount leaves1 ∧
    leaves1.next.toNat < 511 ∧ candAt leaves1 0 = true ∧ (0 : NodeIdx) ≠ 2 ∧ (0 : NodeIdx) ≠ 1 :=
  ⟨rfl, facts_leaves1.2.2.1, facts_leaves1.2.2.2, facts_leaves1.1, by decide, by decide⟩

theorem witness_BuildNodeCounts : exec .build s1 = .next b1 ∧ (2 : NodeIdx).toNat < presentCount s1 ∧
    presentCount s1 ≤ (3 : NodeIdx).toNat ∧ (4 : NodeIdx).toNat < 2 * presentCount s1 - 1 ∧
    freqAt s1 0x43 ≠ 0 ∧ freqAt s1 0x44 = 0 ∧ (2 : NodeIdx) < b1.next ∧
    (nodeAt b1 2).kind = .leaf := by
  rw [present_s1, facts_b1.1]
  exact ⟨next_b1, by decide, by decide, by decide, by decide, by decide, by decide,
    facts_b1.2.2.2.2.1⟩

theorem tree_b1 : ∃ T, TreeAt b1 b1.root T := tree_built (by rw [present_s1]; decide)

theorem witness_BuildWeights : exec .build s1 = .next b1 ∧ (2 : NodeIdx) < b1.next ∧
    (nodeAt b1 2).kind = .leaf ∧ (4 : NodeIdx) < b1.next ∧ (nodeAt b1 4).kind = .internal ∧
    (∃ i T, i < b1.next ∧ TreeAt b1 i T) ∧ 1 ≤ presentCount s1 ∧
    presentCount s1 ≤ (3 : NodeIdx).toNat ∧ (3 : NodeIdx) ≤ 4 := by
  obtain ⟨T, hT⟩ := tree_b1
  refine ⟨next_b1, by rw [facts_b1.1]; decide, facts_b1.2.2.2.2.1, by rw [facts_b1.1]; decide,
    facts_b1.2.2.2.2.2.1, ⟨b1.root, T, by rw [facts_b1.1, facts_b1.2.1]; decide, hT⟩, ?_⟩
  rw [present_s1]; decide

theorem witness_BuildOwnership : exec .build s1 = .next b1 ∧ (4 : NodeIdx) < b1.next ∧
    (nodeAt b1 4).kind = .internal ∧ (0 : NodeIdx) < b1.next ∧ (0 : NodeIdx) ≠ b1.root := by
  rw [facts_b1.1, facts_b1.2.1]
  exact ⟨next_b1, by decide, facts_b1.2.2.2.2.2.1, by decide, by decide⟩

theorem witness_BuildDependsOnFreqOnly : FreqKept s1 { s1 with built := true, next := 5 } ∧
    exec .build s1 = .next b1 ∧ exec .build b1 = .next (after (exec .build b1)) ∧
    (4 : NodeIdx) < b1.next ∧ ∃ t, exec .build { s1 with built := true, next := 5 } = .next t :=
  ⟨fun _ => rfl, next_b1, rfl, by rw [facts_b1.1]; decide, build_goes _⟩

theorem witness_DepthIsBounded :
    (HTree.internal 3 (.leaf 0 1) (.leaf 1 2)).follow [true] = some (.leaf 1 2) ∧
      exec .build s1 = .next b1 ∧ 1 ≤ presentCount s1 ∧
      ∃ T route b w, TreeAt b1 b1.root T ∧ T.follow route = some (.leaf b w) := by
  refine ⟨rfl, next_b1, by rw [present_s1]; decide, ?_⟩
  obtain ⟨T, hT⟩ := tree_b1
  obtain ⟨x, rest, h, -⟩ := HTree.paths_zero T 0
  obtain ⟨r, hr, -⟩ := HTree.follow_of_mem_paths (T := T) (d := 0) (p := 0) (x := x)
    (by rw [h]; exact List.mem_cons_self ..)
  exact ⟨T, r, _, _, hT, hr⟩

theorem present_offered (s : State) (w : Cmd) : presentCount (offered s w) = presentCount s :=
  presentCount_congr fun _ => rfl

theorem noReset_offered (n : Nat) (s : State) (w : Cmd) : NoReset n (offered s w) := by
  intro q hq
  have := List.mem_of_mem_take hq
  rw [List.mem_singleton.1 this]
  rfl

theorem witness_BuildMicroOpsAgree :
    (Accepts (offered s1 0x4000) .build ∧ ¬presentCount (offered s1 0x4000) ≤ 1 ∧
        NoReset 261 (offered s1 0x4000)) ∧
      Accepts (offered s2 0x4000) .build ∧ presentCount (offered s2 0x4000) ≤ 1 ∧
        NoReset 258 (offered s2 0x4000) := by
  refine ⟨⟨accepts_offered rfl (by decide), ?_, noReset_offered 261 _ _⟩,
    accepts_offered rfl (by decide), ?_, noReset_offered 258 _ _⟩
  · show ¬presentCount s1 ≤ 1
    rw [present_s1]; decide
  · show presentCount s2 ≤ 1
    rw [present_s2]

theorem witness_RdnServesNode : State.reset.built = false ∧ b1.built = true ∧ b1.next ≤ 5 ∧
    4 < b1.next := by
  rw [facts_b1.1]
  exact ⟨rfl, built_b1, by decide, by decide⟩

theorem witness_AssignCompletes : Consistent b1 ∧ b1.built = true ∧ Consistent b3 ∧
    b3.built = true := ⟨consistent_b1, built_b1, consistent_b3, built_b3⟩

theorem witness_AssignCodesAreRoutes : Consistent b1 ∧ b1.built = true ∧ b1.empty = false ∧
    freqAt b1 0x43 ≠ 0 ∧ Consistent b2 ∧ b2.built = true ∧ b2.empty = false := by
  rw [freq_b1]
  exact ⟨consistent_b1, built_b1, facts_b1.2.2.2.1, by decide, consistent_b2, built_b2,
    facts_a2.2.2.2.2.1⟩

theorem witness_AssignEdgeCases : (Consistent b1 ∧ b1.built = true ∧ freqAt b1 0x44 = 0) ∧
    (Consistent b2 ∧ b2.built = true ∧ b2.single = true) ∧
    Consistent b3 ∧ b3.built = true ∧ b3.empty = true := by
  rw [freq_b1]
  exact ⟨⟨consistent_b1, built_b1, by decide⟩, ⟨consistent_b2, built_b2, facts_a2.2.2.2.1⟩,
    consistent_b3, built_b3, facts_a2.2.2.2.2.2⟩

theorem witness_AssignSums : Consistent b1 ∧ b1.built = true := ⟨consistent_b1, built_b1⟩

theorem witness_TableFacts : Consistent b1 ∧ b1.built = true ∧ exec .assign b1 = .next a1 ∧
    freqAt b1 0x44 = 0 ∧ freqAt b1 0x41 ≠ 0 ∧ freqAt b1 0x42 ≠ 0 ∧ 2 ≤ presentCount b1 ∧
    FreqKept b1 b1 := by
  simp only [present_b1, freq_b1]
  exact ⟨consistent_b1, built_b1, next_a1, by decide, by decide, by decide, by decide,
    fun _ => rfl⟩

theorem witness_OnlyRawPathsArePrefixFree : Consistent b1 ∧ b1.built = true ∧
    exec .assign b1 = .next a1 ∧ freqAt b1 0x42 ≠ 0 ∧ freqAt b1 0x43 ≠ 0 ∧
    (codeAt a1 0x42).rawlen = (codeAt a1 0x43).rawlen ∧ 2 ≤ presentCount b1 := by
  rw [present_b1, freq_b1, freq_b1, facts_a1.2.2.1, facts_a1.2.2.2.1]
  exact ⟨consistent_b1, built_b1, next_a1, by decide, by decide, rfl, by decide⟩

theorem witness_AssignMicroOpsAgree :
    (Consistent (offered b1 0x5000) ∧ (offered b1 0x5000).built = true ∧
        Accepts (offered b1 0x5000) .assign ∧ presentCount (offered b1 0x5000) = 3 ∧
        NoReset 264 (offered b1 0x5000)) ∧
      Consistent (offered b3 0x5000) ∧ (offered b3 0x5000).built = true ∧
        Accepts (offered b3 0x5000) .assign ∧ presentCount (offered b3 0x5000) = 0 ∧
        NoReset 259 (offered b3 0x5000) :=
  ⟨⟨consistent_offered consistent_b1 _, built_b1,
      accepts_offered (buildState_counts s1).ph (by decide),
      (present_offered ..).trans present_b1, noReset_offered 264 _ _⟩,
    consistent_offered consistent_b3 _, built_b3,
    accepts_offered (buildState_counts State.reset).ph (by decide),
    (present_offered ..).trans present_b3, noReset_offered 259 _ _⟩

theorem witness_BuildIsOptimal : 1 ≤ presentCount s1 ∧ exec .build s1 = .next b1 ∧
    ∃ T T' : HTree, TreeAt b1 b1.root T ∧ T'.leaves.Perm T.leaves := by
  obtain ⟨T, hT⟩ := tree_b1
  exact ⟨by rw [present_s1]; decide, next_b1, T, T, hT, List.Perm.refl _⟩

theorem witness_AssignConsumesTheTree : b1.built = true ∧ exec .assign b1 = .next a1 ∧
    (∀ j ∈ [(Instr.wrf 0x41, (9 : Count)), (.rds, 0)], j.1 ≠ .build) ∧
    ∃ u, runCommands [(.wrf 0x41, 9), (.rds, 0)] a1 = .next u :=
  ⟨built_b1, next_a1, by decide, commands_go _⟩

theorem witness_CodeBitOrder : Consistent a1 ∧ a1.codev = true ∧
    0 < (codeAt a1 0x42).len.toNat ∧ 1 < (codeAt a1 0x42).rawlen.toNat ∧
    0 < (codeAt a1 0x42).rawlen.toNat - (codeAt a1 0x42).len.toNat := by
  rw [facts_a1.2.1, facts_a1.2.2.1]
  exact ⟨consistent_a1, codev_a1, by decide, by decide, by decide⟩

theorem freq_assigned {s t : State} (hb : s.built = true) (h : execAssign s = .next t) :
    FreqKept s t := by
  obtain ⟨u, hu, rfl⟩ := execAssign_keeps hb h
  exact fun b => freqAt_congr (s := s) hu.freq b

theorem freq_a1 (b : Sym) : freqAt a1 b = freqAt s1 b :=
  (freq_assigned built_b1 next_a1 b).trans (freq_b1 b)

theorem witness_RdcServesCode : b1.codev = false ∧ a1.codev = true ∧ Consistent a1 ∧
    freqAt a1 0xFF = 0 := by
  rw [freq_a1]
  exact ⟨codev_b1, codev_a1, consistent_a1, by decide⟩

theorem witness_RdwServesSums : b1.codev = false ∧ a1.codev = true ∧
    ∃ s, Consistent s ∧ s.codev = true ∧ presentCount s ≤ 1 :=
  ⟨codev_b1, codev_a1, after (exec .assign b2), consistent_b2.executed (next_after facts_a2.1),
    facts_a2.2.1, facts_a2.2.2.1⟩

theorem witness_SeqIsRaisedWithoutAProduct : s1.built = false ∧ s1.codev = false := ⟨rfl, rfl⟩

theorem witness_RefusalWritesOnlyTheErrorRecord :
    (∃ t, exec .assign s1 = .next t ∧ t.rsp = some ⟨.seq, .nothing⟩) ∧
      goes (exec (.rdn 5) b1) = true ∧
      (after (exec (.rdn 5) b1)).rsp = some ⟨.index, .nothing⟩ ∧
      Presents (offered s1 0xF000) ∧ goes (step (offered s1 0xF000)) = true ∧
      rspCode (after (step (offered s1 0xF000))) ≠ 0 :=
  ⟨⟨_, rfl, rfl⟩, facts_b1.2.2.2.2.2.2.2.1, facts_b1.2.2.2.2.2.2.1, ⟨rfl, rfl, rfl⟩,
    by decide, by decide⟩

theorem witness_WhichCommandsAreRefused : Presents (offered s1 0xF000) ∧
    wellFormedWord (portIn (offered s1 0xF000)).cmd = false ∧ Consistent b1 :=
  ⟨⟨rfl, rfl, rfl⟩, by decide, consistent_b1⟩

/-- A state with ERR set and a command word offered. -/
def erred (w : Cmd) : State := { offered s1 w with err := true, errcode := .index }

theorem witness_ErrAltersNoCommand : (Instr.rdf 0x41 ≠ .rds ∧ Instr.rds = .rds) ∧
    (Instr.assign ≠ .clr ∧ (erred 0x5000).err = true ∧
      ∃ t, exec .assign (erred 0x5000) = .next t) ∧
    (portIn (erred 0x5000)).rst = false ∧ decode (portIn (erred 0x5000)).cmd ≠ .command .clr ∧
    (erred 0x5000).err = true ∧ goes (step (erred 0x5000)) = true :=
  ⟨by decide, ⟨by decide, rfl, ⟨_, rfl⟩⟩, rfl, by decide, rfl, by decide⟩

theorem witness_FlagLife : (∃ t, exec .clr a1 = .next t) ∧ (∃ t, exec (.wrf 0x41) a1 = .next t) ∧
    (∃ t, exec .build a1 = .next t) ∧ (exec .assign b1 = .next a1 ∧ refusalCause .assign b1 = .ok) ∧
    (∃ t, exec (.rdf 0x41) a1 = .next t ∧ isRead (.rdf 0x41) = true) ∧
    (∃ t, exec .nop a1 = .next t) ∧
    ∃ t, exec .assign s1 = .next t ∧ refusalCause .assign s1 ≠ .ok := by
  obtain ⟨t, ht⟩ := rdf_goes a1 0x41
  refine ⟨clr_goes _, wrf_goes _ _, build_goes _, ⟨next_a1, ?_⟩, ⟨t, ht, rfl⟩, nop_goes _,
    ⟨_, rfl, by decide⟩⟩
  simp only [refusalCause, built_b1, if_true]

theorem witness_WriteWithdrawsTreeAndTable :
    (∃ t u, exec .clr a1 = .next t ∧ runCommands [(.wrf 0x41, 9), (.rds, 0)] t = .next u) ∧
      (∃ t, exec (.wrf 0x41) a1 = .next t) ∧
      (∀ j ∈ [(Instr.wrf 0x41, (9 : Count)), (.rds, 0)], j.1 ≠ .build) ∧
      (∃ u, runCommands [(.build, 0)] s1 = .next u) ∧ exec .clr State.reset =
        .next (after (exec .clr State.reset)) ∧
      ∀ j ∈ [(Instr.build, (0 : Count))], j.1 ≠ .assign := by
  obtain ⟨t, ht⟩ := clr_goes a1
  obtain ⟨u, hu⟩ := commands_go t
  obtain ⟨v, hv⟩ := build_runs s1
  exact ⟨⟨t, u, ht, hu⟩, wrf_goes _ _, by decide, ⟨v, hv⟩, rfl, by decide⟩

theorem witness_StepKeepsConsistent : Consistent (offered s1 0x4000) ∧
    ∃ t, step (offered s1 0x4000) = .next t :=
  ⟨consistent_offered consistent_s1 _,
    ⟨_, (accepts_offered (s := s1) rfl (by decide) : Accepts (offered s1 0x4000) .build).step⟩⟩

theorem witness_StepNeverStops : Consistent b1 := consistent_b1

theorem witness_StepsKeepMemoriesCanonical : MemoriesCanonical (offered s1 0x4000) ∧
    (∃ t, step (offered s1 0x4000) = .next t) ∧ ∃ t, microStep (offered s1 0x4000) = .next t :=
  ⟨(consistent_offered consistent_s1 _).memories, witness_StepKeepsConsistent.2,
    ⟨_, (accepts_offered (s := s1) rfl (by decide) : Accepts (offered s1 0x4000) .build).micro⟩⟩

/-- `s1` with other contents in the memory that no command reads there. -/
def hidden1 : State := setCand { offered s1 0x4000 with m1 := 7 } 3 true

theorem witness_HiddenStateIsUnobservable : Consistent (offered s1 0x4000) ∧ Consistent hidden1 ∧
    SameVisible (offered s1 0x4000) hidden1 ∧ ∃ t, step (offered s1 0x4000) = .next t := by
  have h := consistent_offered consistent_s1 0x4000
  refine ⟨h, h.transport (fun _ => rfl) (fun _ => rfl) (fun _ => rfl) ⟨rfl, rfl, rfl⟩
      ⟨rfl, rfl, rfl, rfl⟩ ⟨rfl, rfl, rfl⟩ ⟨rfl, rfl⟩ (by decide)
      ⟨h.memories.1, rfl, rfl, by decide, rfl⟩, ?_, witness_StepKeepsConsistent.2⟩
  exact ⟨fun _ => rfl, ⟨rfl, rfl, rfl⟩, ⟨rfl, rfl, rfl, rfl⟩, ⟨rfl, rfl⟩, ⟨rfl, rfl, rfl⟩,
    ⟨rfl, rfl⟩, ⟨rfl, rfl⟩, rfl, fun _ _ _ => rfl, fun _ _ => rfl⟩

theorem witness_EveryCommandResponds : Consistent (offered b1 0x5000) ∧
    Accepts (offered b1 0x5000) .assign ∧ NoReset 770 (offered b1 0x5000) :=
  ⟨consistent_offered consistent_b1 _,
    accepts_offered (buildState_counts s1).ph (by decide), noReset_offered 770 _ _⟩

end Sys2Proof.Tests
end

section
/-! SUPPORT. What a sampling does with a held response and with a word at a port that is not ready,
and where the fields of STATUS lie (spec/10_state.md rules R35 to R37). -/

namespace Sys2Proof.Machine

/-! ### The ports -/

/-- The port is not ready while a response is held (R36). -/
theorem cmdReady_held {s : State} {r : Response} (h : s.rsp = some r) : cmdReady s = false := by
  simp [cmdReady, h]

theorem takeResponse_ready {q : PortIn} (h : q.rspReady = true) (s : State) :
    takeResponse q s = { s with rsp := none } := if_pos h

theorem takeResponse_notReady {q : PortIn} (h : q.rspReady = false) (s : State) :
    takeResponse q s = s := if_neg (by simp [h])

/-- Taking a response, or not, is a change outside the machine's tree and table (R37). -/
theorem takeResponse_eq_outside (q : PortIn) (s : State) : takeResponse q s =
    outside s s.err s.errcode s.din (if q.rspReady then none else s.rsp) s.host := by
  cases hq : q.rspReady with
  | true => rw [takeResponse_ready hq]; rfl
  | false => rw [takeResponse_notReady hq]; rfl

/-- The presented word plays no part in a sampling that finds the port not ready (R36, V9). -/
theorem tick_word_ignored (run : Instr → State → Host.Outcome State Fault Refusal) {s : State}
    {q : PortIn} {rest : List PortIn} (w : Cmd) (d : Count) (hs : s.host = q :: rest)
    (hn : cmdReady s = false) : tick run s =
      tick run { s with host := { q with cmdValid := false, cmd := w, din := d } :: rest } := by
  generalize hs' : { s with host := { q with cmdValid := false, cmd := w, din := d } :: rest } = s'
  have hq : portIn s = q := by rw [portIn, hs]; rfl
  have hq' : portIn s' = { q with cmdValid := false, cmd := w, din := d } := by rw [← hs']; rfl
  have hrest : hostRest s' = hostRest s := by rw [← hs', hostRest, hostRest, hs]; rfl
  have htake : takeResponse (portIn s') (hostRest s') = takeResponse (portIn s) (hostRest s) := by
    rw [hq, hq', hrest]; rfl
  have hph : s'.ph = s.ph := by rw [← hs']
  have hrst : (portIn s').rst = (portIn s).rst := by rw [hq, hq']
  cases hr : (portIn s).rst with
  | true => rw [tick_rst hr, tick_rst (hrst.trans hr), hrest]
  | false =>
    by_cases hp : s.ph = .idle
    · rw [tick_quiet hr hp (by rw [hn]; rfl),
        tick_quiet (hrst.trans hr) (hph.trans hp) (by rw [hq', Bool.and_false]), htake]
    · rw [tick_busy hr hp, tick_busy (hrst.trans hr) (by rwa [hph]), htake]

/-- A decodable word placed by `withFetchWord` is accepted (log entry 13). -/
theorem accepts_withFetchWord (s : State) {w : Cmd} {i : Instr} (hd : decode w = .command i) :
    Accepts (s.withFetchWord 16 w.toNat) i := by
  refine ⟨rfl, rfl, rfl, ?_⟩
  show decode (BitVec.ofNat 16 (w.toNat % 2 ^ 16)) = _
  rw [Nat.mod_eq_of_lt w.isLt, BitVec.ofNat_toNat, BitVec.setWidth_eq, hd]

theorem accepted_withFetchWord (s : State) (n w : Nat) :
    accepted (s.withFetchWord n w) = { s with ph := .idle, rsp := none } := rfl

/-! ### STATUS -/

theorem flagBit_getLsbD_zero (b : Bool) : (flagBit b).getLsbD 0 = b := by
  cases b <;> rfl

/-- The flags of STATUS, bit by bit (R35). -/
theorem status_flags (s : State) :
    (status s).getLsbD 0 = s.built ∧ (status s).getLsbD 1 = s.codev ∧
      (status s).getLsbD 2 = s.empty ∧ (status s).getLsbD 3 = s.single ∧
      (status s).getLsbD 4 = s.err ∧ (status s).getLsbD 7 = false := by
  simp [status, BitVec.getLsbD_append, flagBit_getLsbD_zero, -BitVec.getLsbD_eq_getElem]

/-- The fields of STATUS that are wider than a bit (R35). -/
theorem status_fields (s : State) :
    (status s).extractLsb' 5 2 = s.errcode.toBits ∧ (status s).extractLsb' 8 9 = s.nleaf ∧
      (status s).extractLsb' 17 9 = s.root ∧ (status s).extractLsb' 26 6 = 0 := by
  simp [status, BitVec.extractLsb'_append_eq_of_le, BitVec.extractLsb'_append_eq_of_add_le]

end Sys2Proof.Machine
end

section
/-! SUPPORT. The facts of spec/10_state.md rule R40 at reset and across one sampling of the port. -/

namespace Sys2Proof.Machine

theorem Consistent.reset : Consistent State.reset :=
  .invalidated ⟨rfl, rfl, rfl, rfl, rfl, rfl, rfl, rfl, rfl⟩ ⟨rfl, rfl⟩ rfl
    ⟨fun _ => rfl, fun _ => rfl⟩ .reset

/-- `rst = 1` leaves the facts, whatever was in progress (R162). -/
theorem Consistent.resetBy (s : State) : Consistent (resetBy s) :=
  Consistent.reset.port 0 none s.host

/-- Taking the data word and the port input keeps the facts (R36). -/
theorem Consistent.accepted {s : State} (h : Consistent s) : Consistent (accepted s) :=
  h.port (portIn s).din s.rsp s.host.tail

/-- A sampling in which no command is accepted keeps the facts (R37). -/
theorem Consistent.taken {s : State} (h : Consistent s) (q : PortIn) :
    Consistent (takeResponse q (hostRest s)) := by
  rw [takeResponse_eq_outside]
  exact h.port s.din _ s.host.tail

end Sys2Proof.Machine
end

section
/-! SUPPORT. Two states that look alike to the host answer alike (spec/70_reset_and_hazards.md rule
R170): `SameVisible` across what the ports do and across each command. -/

namespace Sys2Proof.Machine

/-- Whenever the first outcome is a next state, the second is one that looks the same. -/
def SameAnswer (o o' : Host.Outcome State Fault Refusal) : Prop :=
  ∀ t, o = .next t → ∃ t', o' = .next t' ∧ SameVisible t t'

theorem SameAnswer.next {t t' : State} (h : SameVisible t t') :
    SameAnswer (.next t) (.next t') := fun _ ht => ⟨t', rfl, by cases ht; exact h⟩

theorem SameVisible.refl (s : State) : SameVisible s s :=
  ⟨fun _ => rfl, ⟨rfl, rfl, rfl⟩, ⟨rfl, rfl, rfl, rfl⟩, ⟨rfl, rfl⟩, ⟨rfl, rfl, rfl⟩, ⟨rfl, rfl⟩,
    ⟨rfl, rfl⟩, rfl, fun _ _ _ => rfl, fun _ _ => rfl⟩

section

variable {s s' : State} (h : SameVisible s s')
include h

/-! ### The ports -/

/-- Equal changes outside the tree and the table keep the likeness. -/
theorem SameVisible.outside {e e' : Bool} {c c' : RspCode} {d d' : Count}
    {r r' : Option Response} {q q' : List PortIn} (he : e' = e ∧ c' = c) (hp : d' = d ∧ q' = q)
    (hr : r' = r) : SameVisible (outside s e c d r q) (outside s' e' c' d' r' q') :=
  ⟨h.freq, h.counts, h.flags, he, h.sequencer, h.sums, hp, hr, h.nodes, h.codes⟩

theorem SameVisible.portIn_eq : portIn s' = portIn s := by rw [portIn, portIn, h.port.2]

theorem SameVisible.cmdReady_eq : cmdReady s' = cmdReady s := by
  rw [cmdReady, cmdReady, h.sequencer.1, h.response]

theorem SameVisible.presents (hp : Presents s) : Presents s' := by
  rwa [Presents, h.portIn_eq, h.cmdReady_eq]

theorem SameVisible.resetBy_eq : resetBy (hostRest s') = resetBy (hostRest s) := by
  simp only [resetBy, hostRest, h.port.2]

theorem SameVisible.accepted : SameVisible (accepted s) (accepted s') :=
  h.outside h.error ⟨congrArg PortIn.din h.portIn_eq, congrArg List.tail h.port.2⟩ h.response

theorem SameVisible.taken (q : PortIn) :
    SameVisible (takeResponse q (hostRest s)) (takeResponse q (hostRest s')) := by
  rw [takeResponse_eq_outside, takeResponse_eq_outside]
  refine h.outside h.error ⟨h.port.1, congrArg List.tail h.port.2⟩ ?_
  rw [show (hostRest s').rsp = (hostRest s).rsp from h.response]

/-! ### Responses and refusals -/

theorem SameVisible.respond (c : RspCode) (d : RspData) :
    SameAnswer (respond c d s) (respond c d s') :=
  .next (h.outside h.error h.port rfl)

theorem SameVisible.refuse (c : RspCode) : SameAnswer (refuse c s) (refuse c s') := by
  refine .next (h.outside ⟨rfl, ?_⟩ h.port rfl)
  rw [nextErrcode, nextErrcode, h.error.1, h.error.2]

theorem SameVisible.status_eq : status s' = status s := by
  obtain ⟨-, hnleaf, hroot⟩ := h.counts
  obtain ⟨hbuilt, hcodev, hempty, hsingle⟩ := h.flags
  obtain ⟨herr, herrcode⟩ := h.error
  rw [status, status, hnleaf, hroot, hbuilt, hcodev, hempty, hsingle, herr, herrcode]

/-! ### The commands -/

/-- A write of FREQ withdraws the products, so only FREQ and what stands outside is left to see
(R84). -/
theorem SameVisible.withdrawn {m m' : Memory Count}
    (hm : FreqKept { s with freq := m } { s' with freq := m' }) :
    SameVisible (invalidate { s with freq := m }) (invalidate { s' with freq := m' }) :=
  ⟨hm, ⟨rfl, rfl, rfl⟩, ⟨rfl, rfl, rfl, rfl⟩, h.error, h.sequencer, ⟨rfl, rfl⟩, h.port, h.response,
    fun hb => absurd hb Bool.false_ne_true, fun hv => absurd hv Bool.false_ne_true⟩

theorem SameVisible.clr : SameAnswer (execClr s) (execClr s') :=
  .next ((h.withdrawn (m := []) (m' := []) fun _ => rfl).outside ⟨rfl, rfl⟩ h.port rfl)

theorem SameVisible.wrf (b : Sym) : SameAnswer (execWrf b s) (execWrf b s') := by
  have hf : FreqKept (setFreq s b s.din) (setFreq s' b s'.din) := fun x => by
    rw [freqAt_setFreq, freqAt_setFreq, h.freq x, h.port.1]
  exact (h.withdrawn hf).respond .ok .nothing

/-- `BUILD` makes its tree of FREQ alone (R106), and looks at nothing that is hidden. -/
theorem SameVisible.build : SameVisible (buildState s) (buildState s') := by
  have hk := buildState_keeps s
  have hk' := buildState_keeps s'
  have hc := buildState_counts s
  have hc' := buildState_counts s'
  have hT := buildState_sameTree h.freq
  refine ⟨?_, ⟨hT.next, hT.nleaf, hT.root⟩, ⟨?_, ?_, hT.empty, hT.single⟩, ⟨?_, ?_⟩, ⟨?_, ?_, ?_⟩,
    ⟨?_, ?_⟩, ⟨?_, ?_⟩, ?_, fun _ i hi => hT.nodes i (BitVec.lt_def.1 hi), fun hv b => ?_⟩
  · exact fun b => by rw [freqAt_congr hk'.freq, freqAt_congr hk.freq, h.freq b]
  · rw [hc'.built, hc.built]
  · rw [hk'.codev, hk.codev, h.flags.2.1]
  · rw [hk'.err, hk.err, h.error.1]
  · rw [hk'.errcode, hk.errcode, h.error.2]
  · rw [hc'.ph, hc.ph]
  · rw [hc'.ix, hc.ix]
  · rw [hk'.sp, hk.sp, h.sequencer.2.2]
  · rw [hk'.wlen, hk.wlen, h.sums.1]
  · rw [hk'.wlenraw, hk.wlenraw, h.sums.2]
  · rw [hk'.din, hk.din, h.port.1]
  · rw [hk'.host, hk.host, h.port.2]
  · rw [hk'.rsp, hk.rsp, h.response]
  · rw [codeAt_congr hk'.code, codeAt_congr hk.code, h.codes (hk.codev ▸ hv) b]

/-- Equal emissions leave equal tables, and all else as alike as before (R113, R125). -/
theorem SameVisible.assigned (xs : List LeafPath) :
    SameVisible (assigned s xs) (assigned s' xs) := by
  have ho := emitAll_only xs (clearAssign s)
  have ho' := emitAll_only xs (clearAssign s')
  obtain ⟨hcode, hsums⟩ := assigned_congr xs s s'
  refine ⟨?_, ⟨?_, ?_, ?_⟩, ⟨rfl, rfl, ?_, ?_⟩, ⟨?_, ?_⟩, ⟨rfl, rfl, rfl⟩, hsums, ⟨?_, ?_⟩, ?_,
    fun hb => absurd hb Bool.false_ne_true, fun _ => hcode⟩
  · exact fun b => (freqAt_congr ho'.freq b).trans ((h.freq b).trans (freqAt_congr ho.freq b).symm)
  · exact ho'.next.trans (h.counts.1.trans ho.next.symm)
  · exact ho'.nleaf.trans (h.counts.2.1.trans ho.nleaf.symm)
  · exact ho'.root.trans (h.counts.2.2.trans ho.root.symm)
  · exact ho'.empty.trans (h.flags.2.2.1.trans ho.empty.symm)
  · exact ho'.single.trans (h.flags.2.2.2.trans ho.single.symm)
  · exact ho'.err.trans (h.error.1.trans ho.err.symm)
  · exact ho'.errcode.trans (h.error.2.trans ho.errcode.symm)
  · exact ho'.din.trans (h.port.1.trans ho.din.symm)
  · exact ho'.host.trans (h.port.2.trans ho.host.symm)
  · exact ho'.rsp.trans (h.response.trans ho.rsp.symm)

/-- Both current trees are the one that `BUILD` makes of FREQ (R40 item 5), so `ASSIGN` emits the
same from both. -/
theorem SameVisible.assign (hs : Consistent s) (hs' : Consistent s') :
    SameAnswer (execAssign s) (execAssign s') := by
  by_cases hb : s.built = true
  · have hb' : s'.built = true := h.flags.1.trans hb
    obtain ⟨xs, -, he, -, hall⟩ := hs.assign_eq hb
    rw [he, hall s' hb' ((hs'.treeReady hb').congr h.freq.symm)]
    exact (h.assigned xs).respond .ok .nothing
  · have hb0 : s.built = false := by simpa using hb
    rw [execAssign, execAssign, if_pos hb0, if_pos (h.flags.1.trans hb0)]
    exact h.refuse .seq

theorem SameVisible.rdn (n : NodeIdx) : SameAnswer (execRdn n s) (execRdn n s') := by
  rw [execRdn, execRdn, h.flags.1, h.counts.1]
  split
  · exact h.refuse .seq
  · rename_i hb
    split
    · exact h.refuse .index
    · rename_i hn
      rw [h.nodes (by simpa using hb) n (BitVec.not_le.1 hn)]
      exact h.respond _ _

theorem SameVisible.rdc (b : Sym) : SameAnswer (execRdc b s) (execRdc b s') := by
  rw [execRdc, execRdc, h.flags.2.1]
  split
  · exact h.refuse .seq
  · rename_i hv
    rw [h.codes (by simpa using hv) b]
    exact h.respond _ _

theorem SameVisible.rdw (x : BitVec 1) : SameAnswer (execRdw x s) (execRdw x s') := by
  rw [execRdw, execRdw, h.flags.2.1, selectedSum, selectedSum, h.sums.1, h.sums.2]
  split
  · exact h.refuse .seq
  · exact h.respond _ _

theorem SameVisible.exec (hs : Consistent s) (hs' : Consistent s') (i : Instr) :
    SameAnswer (exec i s) (exec i s') := by
  cases i with
  | nop => exact h.respond .ok .nothing
  | clr => exact h.clr
  | wrf b => exact h.wrf b
  | rdf b =>
    show SameAnswer (execRdf b s) (execRdf b s')
    rw [execRdf, execRdf, h.freq b]
    exact h.respond _ _
  | build => exact h.build.respond .ok .nothing
  | assign => exact h.assign hs hs'
  | rdn n => exact h.rdn n
  | rdc b => exact h.rdc b
  | rds =>
    show SameAnswer (execRds s) (execRds s')
    rw [execRds, execRds, h.status_eq]
    exact h.respond _ _
  | rdw x => exact h.rdw x

/-! ### The step -/

/-- The word at the port is the same, so both take it as the same command or both refuse it. -/
theorem SameVisible.accept (hs : Consistent s) (hs' : Consistent s') :
    SameAnswer (accept Machine.exec (portIn s) (hostRest s))
      (accept Machine.exec (portIn s') (hostRest s')) := by
  by_cases hd : ∃ i, decode (portIn s).cmd = .command i
  · obtain ⟨i, hi⟩ := hd
    rw [accept_command hi, accept_command (by rwa [h.portIn_eq])]
    exact h.accepted.exec hs.accepted hs'.accepted i
  · rw [accept_illegal fun i hi => hd ⟨i, hi⟩,
      accept_illegal fun i hi => hd ⟨i, by rwa [← h.portIn_eq]⟩]
    exact h.accepted.refuse .illegal

/-- Between commands a sampling resets, accepts or only takes the response, in both alike. -/
theorem SameVisible.step (hs : Consistent s) (hs' : Consistent s') :
    SameAnswer (step s) (step s') := by
  have hq := h.portIn_eq
  have hc := h.cmdReady_eq
  rw [Machine.step, Machine.step]
  cases hr : (portIn s).rst with
  | true =>
    rw [tick_rst hr, tick_rst (by rwa [hq]), h.resetBy_eq]
    exact .next (.refl _)
  | false =>
    cases hn : cmdReady s && (portIn s).cmdValid with
    | true =>
      have hp : Presents s := ⟨(Bool.and_eq_true_iff.1 hn).1, hr, (Bool.and_eq_true_iff.1 hn).2⟩
      rw [tick_presents hp, tick_presents (h.presents hp)]
      exact h.accept hs hs'
    | false =>
      rw [tick_quiet hr hs.idle.1 hn, tick_quiet (by rwa [hq]) hs'.idle.1 (by rwa [hc, hq]), hq]
      exact .next (h.taken _)

end

end Sys2Proof.Machine
end

section
/-! The statements of spec/10_state.md that are settled: reset, the ports, STATUS, the facts of R40
and what cannot be observed. -/

namespace Sys2Proof.Machine

/-- Settles O1: the reset state holds R41's values field by field. -/
theorem resetLeavesSpecifiedValues : Obligations.ResetLeavesSpecifiedValues :=
  ⟨fun _ => rfl, rfl, rfl, rfl, rfl, rfl, rfl, rfl, rfl, rfl, rfl, rfl, rfl, rfl, rfl, rfl,
    by decide, rfl, rfl⟩

/-- Settles O4, by the branch of `tick` that accepts a word. -/
theorem stepRunsDecodedCommand : Obligations.StepRunsDecodedCommand := fun _ _ h => h.step

/-- Settles O5: the placed word is accepted, and the state it runs in is the one made ready. -/
theorem fetchWordRunsItsCommand : Obligations.FetchWordRunsItsCommand := fun s w i hd => by
  rw [(accepts_withFetchWord s hd).step, accepted_withFetchWord]

/-- Settles O7: in no branch of `tick` that a port which is not ready can take is the word read. -/
theorem commandNotReadyIsAsNotPresented : Obligations.CommandNotReadyIsAsNotPresented :=
  fun _ _ _ w d hs hn => ⟨tick_word_ignored exec w d hs hn, tick_word_ignored startMicro w d hs hn⟩

/-- Settles O8: while a response is held the port is not ready, so a sampling only takes it. -/
theorem responseIsHeldUntilTaken : Obligations.ResponseIsHeldUntilTaken := by
  intro s r hp hr hrst
  have hstep : step s = .next (takeResponse (portIn s) (hostRest s)) :=
    tick_quiet hrst hp (by rw [cmdReady_held hr, Bool.false_and])
  refine ⟨fun hno => ?_, fun hyes => ⟨?_, ?_⟩⟩
  · rw [hstep, takeResponse_notReady hno, hostRest]
  · rw [hstep, takeResponse_ready hyes, hostRest]
  · simp [cmdReady, hp]

/-- Settles O24: `RDS` responds STATUS, whose fields lie where R35 puts them. -/
theorem rdsReadsStatus : Obligations.RdsReadsStatus := by
  intro s
  obtain ⟨t, ht, hresp, hkept⟩ := respond_spec s .ok (.status (status s))
  obtain ⟨hbuilt, hcodev, hempty, hsingle, herr, hzero⟩ := status_flags s
  obtain ⟨hcode, hnleaf, hroot, hrest⟩ := status_fields s
  exact ⟨t, status s, ht, hresp, hkept, hbuilt, hcodev, hempty, hsingle, herr, hcode, hzero, hnleaf,
    hroot, hrest⟩

/-- Settles O55: at reset everything derived is withdrawn. -/
theorem resetIsConsistent : Obligations.ResetIsConsistent := .reset

/-- Settles O56, by the cases of one sampling: reset, an accepted command, a refused word, or a
response taken. No micro-operation runs between commands. -/
theorem stepKeepsConsistent : Obligations.StepKeepsConsistent := by
  intro s t h ht
  obtain ⟨-, hreset⟩ | ⟨-, hbusy, -⟩ | ⟨i, -, hrun⟩ | ⟨-, hrefuse⟩ | ⟨-, -, hquiet⟩ :=
    tick_cases exec s
  · cases hreset.symm.trans ht
    exact .resetBy _
  · exact absurd h.idle.1 hbusy
  · exact h.accepted.executed (hrun.symm.trans ht)
  · exact h.accepted.refused (by decide) (hrefuse.symm.trans ht)
  · cases hquiet.symm.trans ht
    exact h.taken _

/-- Settles O59: two machines that look alike answer each sampling alike. -/
theorem hiddenStateIsUnobservable : Obligations.HiddenStateIsUnobservable :=
  fun _ _ t hs hs' h ht => h.step hs hs' t ht

end Sys2Proof.Machine
end

section
/-! SUPPORT. What reads, a repeated write and one sampling of the port do to the memories, and the
entries of a current table (spec/20_memory.md rules R46, R49, R50, R53). -/

namespace Sys2Proof.Machine

/-! ### Reads and writes (R53) -/

/-- A read answers from `s` whatever response is held, or is refused. -/
theorem exec_read_cases {i : Instr} (hi : isRead i = true) (s : State) :
    (∃ d, ∀ r, exec i { s with rsp := r } = respond .ok d s) ∨
      ∃ c, c ≠ .ok ∧ exec i s = refuse c s := by
  cases i with
  | nop | clr | wrf b | build | assign => cases hi
  | rdf b => exact .inl ⟨.count (freqAt s b), fun _ => rfl⟩
  | rds => exact .inl ⟨.status (status s), fun _ => rfl⟩
  | rdn n =>
    by_cases hb : s.built = false
    · exact .inr ⟨.seq, by decide, if_pos hb⟩
    · by_cases hn : s.next ≤ n
      · exact .inr ⟨.index, by decide, (if_neg hb).trans (if_pos hn)⟩
      · exact .inl ⟨.node (nodeAt s n), fun _ => (if_neg hb).trans (if_neg hn)⟩
  | rdc b =>
    by_cases hv : s.codev = false
    · exact .inr ⟨.seq, by decide, if_pos hv⟩
    · exact .inl ⟨.code (codeAt s b), fun _ => if_neg hv⟩
  | rdw x =>
    by_cases hv : s.codev = false
    · exact .inr ⟨.seq, by decide, if_pos hv⟩
    · exact .inl ⟨.sum (selectedSum x s), fun _ => if_neg hv⟩

/-- An executed read changes nothing but the response, and answers again what it answered. -/
theorem exec_read_repeats {i : Instr} {s t : State} {d : RspData} (hi : isRead i = true)
    (he : exec i s = .next t) (hr : Responds t .ok d) : StateKept s t ∧ exec i t = .next t := by
  obtain ⟨d', hread⟩ | ⟨c, hc, hrefuse⟩ := exec_read_cases hi s
  · cases (hread s.rsp).symm.trans he
    exact ⟨⟨AllButErrorKept.refl s, rfl, rfl⟩, hread (some ⟨.ok, d'⟩)⟩
  · cases hrefuse.symm.trans he
    cases hr
    exact absurd rfl hc

/-- The second of two `WRF` of one byte with one data word writes what stands there (R83). -/
theorem exec_wrf_repeats {b : Sym} {s t : State} (he : exec (.wrf b) s = .next t) :
    exec (.wrf b) t = .next t := by
  cases he
  simp only [exec, execWrf, respond, setFreq, invalidate, Memory.write_write]

/-! ### The canonical form (R46) -/

/-- Reset, the port and the micro-operations keep the canonical form, so a sampling does when what
it runs of an accepted command does. -/
theorem MemoriesCanonical.tick {run : Instr → State → Host.Outcome State Fault Refusal}
    (hrun : ∀ {i s t}, MemoriesCanonical s → run i s = .next t → MemoriesCanonical t)
    {s t : State} (h : MemoriesCanonical s) (he : tick run s = .next t) : MemoriesCanonical t := by
  have htaken : MemoriesCanonical (takeResponse (portIn s) (hostRest s)) := by
    rw [takeResponse_eq_outside]
    exact h
  obtain ⟨-, hreset⟩ | ⟨-, -, hbusy⟩ | ⟨i, -, hcommand⟩ | ⟨-, hrefuse⟩ | ⟨-, -, hquiet⟩ :=
    tick_cases run s
  · cases hreset.symm.trans he
    exact .reset
  · exact htaken.microOp (hbusy.symm.trans he)
  · exact hrun (s := accepted s) h (hcommand.symm.trans he)
  · cases hrefuse.symm.trans he
    exact h
  · cases hquiet.symm.trans he
    exact htaken

/-! ### The entries of a current table (R49, R50) -/

/-- A current table is what `ASSIGN` writes for the leaves of the present FREQ (R40 item 6). -/
theorem Consistent.currentTable {s : State} (h : Consistent s) (hv : s.codev = true) :
    ∃ xs, PathFacts s xs ∧ CodeKept (Machine.assigned s xs) s ∧
      SumsKept (Machine.assigned s xs) s := by
  obtain ⟨xs, hx, hassign⟩ := execAssign_spec s
  exact ⟨xs, hx, (tableMatchesFreq_iff s hassign s).1 (h.table hv)⟩

/-- In a current table LEN is the length of the shortest numeral of BITS: an absent byte's entry is
empty, a present byte's is its leaf's (R49, R116, R119). -/
theorem Consistent.len_eq_bitlen {s : State} (h : Consistent s) (hv : s.codev = true) (b : Sym) :
    (codeAt s b).len.toNat = bitlen (codeAt s b).bits := by
  obtain ⟨xs, hx, hcode, -⟩ := h.currentTable hv
  rw [hcode b]
  by_cases hb : freqAt s b = 0
  · rw [codeAt_assigned_absent hx hb]
    rfl
  · obtain ⟨x, hm, rfl, -⟩ := hx.present hb
    rw [codeAt_assigned_leaf hx hm]
    exact x.entry_len

/-- The raw bits before the stored ones are 0. -/
theorem rawPath_leading_zero {e : CodeEntry} (h : e.len.toNat = bitlen e.bits) {j : Nat}
    (hj : j < e.rawlen.toNat - e.len.toNat) : e.rawPath[j]? = some false := by
  rw [CodeEntry.rawPath, bitString_getElem? _ _ _ (by omega), getLsbD_bitlen (by omega)]

/-- A nonempty stored code begins with 1. -/
theorem storedCode_first_one {e : CodeEntry} (h : e.len.toNat = bitlen e.bits)
    (hpos : 0 < e.len.toNat) : e.storedCode[0]? = some true := by
  rw [CodeEntry.storedCode, bitString_getElem? _ _ _ hpos, Nat.sub_zero, h,
    getLsbD_top (h ▸ hpos)]

end Sys2Proof.Machine
end

section
/-! The statements of spec/20_memory.md that are settled: reads and writes that may be repeated, the
bits of a code, and the canonical form of the memories. -/

namespace Sys2Proof.Machine

/-- Settles O22: an executed read keeps what a second one reads, a second write of the same word
writes what stands there, and `CLR` leaves no entry listed. -/
theorem readsAndWritesRepeat : Obligations.ReadsAndWritesRepeat :=
  ⟨fun _ _ _ _ hi he hr => exec_read_repeats hi he hr, fun _ _ _ he => exec_wrf_repeats he,
    fun _ _ he _ => by cases he; rfl⟩

/-- Settles O46: both strings are read off BITS from the top, and in a current table LEN is the
length of BITS without its leading zeros. -/
theorem codeBitOrder : Obligations.CodeBitOrder := by
  intro s b hs hv
  have hlen := hs.len_eq_bitlen hv b
  exact ⟨bitString_length _ _, bitString_length _ _, fun j hj => bitString_getElem? _ _ j hj,
    fun j hj => bitString_getElem? _ _ j hj, fun j hj => rawPath_leading_zero hlen hj,
    storedCode_first_one hlen⟩

/-- Settles O58: a sampling keeps the canonical form in both machines, since a command run whole and
the start of a refined one keep it. -/
theorem stepsKeepMemoriesCanonical : Obligations.StepsKeepMemoriesCanonical := by
  intro s t h ht
  obtain hstep | hmicro := ht
  · exact h.tick .exec hstep
  · exact h.tick .startMicro hmicro

end Sys2Proof.Machine
end

section
/-! SUPPORT. A word decodes to a command exactly when it is the command's encoding, and the row of
the opcode map that a word matches (spec/30_encoding.md rules R63, R69 to R74). -/

namespace Sys2Proof

/-! ### Decoding and encoding (R74) -/

/-- The opcode and the operand of a word whose argument is the operand alone (R63). -/
theorem word_fields {n op : Nat} {w : Cmd} {x : BitVec n} (hn : n < 12)
    (hw : w.toNat = op * 4096 + x.toNat) :
    w.toNat / 4096 = op ∧ w.toNat % 4096 < 2 ^ n ∧ BitVec.ofNat n w.toNat = x := by
  have hx : x.toNat < 4096 := x.isLt.trans (Nat.pow_lt_pow_right (by decide) hn)
  have hdvd : 2 ^ n ∣ op * 4096 := (Nat.pow_dvd_pow 2 hn.le).mul_left op
  have hlt := x.isLt
  refine ⟨by omega, by omega, BitVec.eq_of_toNat_eq ?_⟩
  rw [BitVec.toNat_ofNat, hw, Nat.add_mod, Nat.mod_eq_zero_of_dvd hdvd, Nat.zero_add, Nat.mod_mod,
    Nat.mod_eq_of_lt x.isLt]

/-- A word whose argument fits in `n` bits is its opcode and its `n`-bit operand (R63). -/
theorem word_eq_operand {n op : Nat} {w : Cmd} (hop : w.toNat / 4096 = op) (hn : n < 12)
    (harg : w.toNat % 4096 < 2 ^ n) : w.toNat = op * 4096 + (BitVec.ofNat n w.toNat).toNat := by
  have hdvd : 2 ^ n ∣ 4096 := Nat.pow_dvd_pow 2 hn.le
  rw [BitVec.toNat_ofNat, ← Nat.mod_mod_of_dvd w.toNat hdvd, Nat.mod_eq_of_lt harg]
  omega

/-- The operand of a word is its low bits as they stand (R68). -/
theorem operand_toNat {n op : Nat} {w : Cmd} {x : BitVec n} (hn : n < 12)
    (hw : w.toNat = op * 4096 + x.toNat) : x.toNat = w.toNat % 2 ^ n := by
  obtain ⟨-, -, hx⟩ := word_fields hn hw
  rw [← BitVec.toNat_ofNat, hx]

/-- A command's word decodes to the command: its opcode is the command's, its argument the operand
(R74). -/
@[simp] theorem decode_encode (i : Instr) : decode (encode i) = .command i := by
  have hw := encode_toNat i
  cases i with
  | nop | clr | build | assign | rds => rfl
  | wrf x | rdf x | rdn x | rdc x | rdw x =>
    obtain ⟨hop, harg, hx⟩ := word_fields (by decide) hw
    rw [decode_eq, hop]
    exact guardBits_command.2 ⟨decide_eq_true harg, congrArg _ hx⟩

/-- A word that decodes to a command is the command's encoding: below its opcode the argument is 0,
or it is the operand that the format has room for (R71, R74). -/
theorem encode_decode {w : Cmd} {i : Instr} (h : decode w = .command i) : encode i = w := by
  apply BitVec.eq_of_toNat_eq
  rw [encode_toNat]
  rw [decode_eq] at h
  split at h
  case h_11 => cases h
  all_goals
    rename_i hop
    rw [guardBits_command, decide_eq_true_eq] at h
    obtain ⟨harg, rfl⟩ := h
  -- the opcodes of format Z
  case h_1 | h_2 | h_5 | h_6 | h_9 =>
    dsimp only
    omega
  -- the opcodes with an operand
  case h_3 | h_4 | h_7 | h_8 | h_10 => exact (word_eq_operand hop (by decide) harg).symm

theorem decode_eq_command_iff {w : Cmd} {i : Instr} : decode w = .command i ↔ w = encode i :=
  ⟨fun h => (encode_decode h).symm, fun h => h ▸ decode_encode i⟩

/-- What is no command is refused for its opcode or, having a defined one, for its reserved bits
(R70, R71). -/
theorem decode_reservedBits_iff (w : Cmd) :
    decode w = .reservedBits ↔ w.toNat / 4096 ≤ 9 ∧ wellFormedWord w = false := by
  rw [← Bool.not_eq_true, ← decode_command_iff,
    show w.toNat / 4096 ≤ 9 ↔ decode w ≠ .reservedOpcode by
      rw [Ne, decode_reservedOpcode_iff]; omega]
  cases decode w <;> simp

/-! ### The opcode map (R69) -/

/-- Masking off the low `n` bits of a word rounds it down to a multiple of `2 ^ n`. -/
theorem toNat_and_highMask (w : Cmd) (n : Nat) :
    (w &&& (BitVec.allOnes 16 <<< n)).toNat = w.toNat / 2 ^ n * 2 ^ n := by
  have hand : w &&& (BitVec.allOnes 16 <<< n) = (w >>> n) <<< n := by
    ext j hj
    simp only [BitVec.getElem_and, BitVec.getElem_shiftLeft]
    by_cases h : j < n
    · simp [h]
    · simp [h, BitVec.getLsbD_eq_getElem hj, Nat.add_sub_cancel' (Nat.le_of_not_lt h),
        -BitVec.reduceAllOnes, Bool.and_comm]
  rw [hand, BitVec.toNat_shiftLeft, BitVec.toNat_ushiftRight, Nat.shiftRight_eq_div_pow,
    Nat.shiftLeft_eq, Nat.mod_eq_of_lt ((Nat.div_mul_le_self _ _).trans_lt w.isLt)]

/-- Each row's pattern is a defined opcode over zeros, and its mask keeps every bit above the
operand of the opcode's format. -/
theorem opcodeTable_formats : ∀ r ∈ opcodeTable, r.pattern.toNat % 4096 = 0 ∧
    (opcodeFormat (r.pattern.toNat / 4096)).map
      (fun f => BitVec.allOnes 16 <<< f.operandBits) = some r.mask := by decide

/-- Every operand leaves the opcode free (R63). -/
theorem operandBits_lt (f : Format) : f.operandBits < 12 := by
  cases f <;> decide

/-- A word that a row accepts has the row's opcode and 0 in every bit that must be 0. -/
theorem accepts_wellFormedWord {r : OpcodeRow} (hr : r ∈ opcodeTable) {w : Cmd}
    (h : r.accepts w = true) : wellFormedWord w = true := by
  obtain ⟨hzero, hmask⟩ := opcodeTable_formats r hr
  obtain ⟨f, hf, hmask⟩ := Option.map_eq_some_iff.1 hmask
  have hround : w.toNat / 2 ^ f.operandBits * 2 ^ f.operandBits = r.pattern.toNat := by
    rw [← toNat_and_highMask, hmask, ← beq_iff_eq.1 h]
  have hlow := Nat.mod_lt w.toNat (Nat.two_pow_pos f.operandBits)
  have hsplit := Nat.div_add_mod' w.toNat (2 ^ f.operandBits)
  have hsmall : 2 ^ f.operandBits < 4096 := Nat.pow_lt_pow_right (by decide) (operandBits_lt f)
  have hop : w.toNat / 4096 = r.pattern.toNat / 4096 := by omega
  simp only [wellFormedWord, hop, hf, decide_eq_true_eq]
  omega

/-- The rows that accept a command's word are the one of its mnemonic. -/
theorem accepts_encode_filter (i : Instr) :
    (opcodeTable.filter fun r => r.accepts (encode i)).map OpcodeRow.mnemonic = [mnemonic i] := by
  cases i with
  | nop => exact Laws.Encoded.nop.2
  | clr => exact Laws.Encoded.clr.2
  | wrf b => exact (Laws.Encoded.wrf b).2
  | rdf b => exact (Laws.Encoded.rdf b).2
  | build => exact Laws.Encoded.build.2
  | assign => exact Laws.Encoded.assign.2
  | rdn n => exact (Laws.Encoded.rdn n).2
  | rdc b => exact (Laws.Encoded.rdc b).2
  | rds => exact Laws.Encoded.rds.2
  | rdw x => exact (Laws.Encoded.rdw x).2

/-- No two rows share a mnemonic. -/
theorem mnemonic_injOn_opcodeTable : ∀ r ∈ opcodeTable, ∀ r' ∈ opcodeTable,
    r.mnemonic = r'.mnemonic → r = r' := by decide

/-- Among the mnemonics of the rows that accept a command's word there is the command's, and no
other. -/
theorem mem_accepting_mnemonics {i : Instr} {m : String} :
    (∃ r ∈ opcodeTable, r.accepts (encode i) = true ∧ r.mnemonic = m) ↔ m = mnemonic i := by
  rw [← List.mem_singleton, ← accepts_encode_filter i]
  simp only [List.mem_map, List.mem_filter, and_assoc]

/-- A row accepts a command's word exactly when it is the command's row (R69). -/
theorem accepts_encode_iff {r : OpcodeRow} (hr : r ∈ opcodeTable) (i : Instr) :
    r.accepts (encode i) = true ↔ mnemonic i = r.mnemonic := by
  refine ⟨fun h => (mem_accepting_mnemonics.1 ⟨r, hr, h, rfl⟩).symm, fun h => ?_⟩
  obtain ⟨r', hr', hacc, hm⟩ := mem_accepting_mnemonics.2 h.symm
  rwa [mnemonic_injOn_opcodeTable r hr r' hr' hm.symm]

/-- A word that a row accepts is the encoding of a command with the row's mnemonic (R69). -/
theorem accepts_iff {r : OpcodeRow} (hr : r ∈ opcodeTable) (w : Cmd) :
    r.accepts w = true ↔ ∃ i, w = encode i ∧ mnemonic i = r.mnemonic := by
  constructor
  · intro h
    obtain ⟨i, hi⟩ := (decode_command_iff w).2 (accepts_wellFormedWord hr h)
    obtain rfl := decode_eq_command_iff.1 hi
    exact ⟨i, rfl, (accepts_encode_iff hr i).1 h⟩
  · rintro ⟨i, rfl, hm⟩
    exact (accepts_encode_iff hr i).2 hm

end Sys2Proof
end

section
/-! SUPPORT. What a command answers, what of the data word it uses, and where the fields of its
response lie (spec/30_encoding.md rules R68, R77, R78). -/

namespace Sys2Proof.Machine

/-! ### Responses (R77) -/

/-- A command that is no read answers without data, or stops. -/
theorem exec_nonRead_cases {i : Instr} (hi : isRead i = false) (s : State) :
    (∃ c u, exec i s = respond c .nothing u) ∨ ∃ r, exec i s = .fault r := by
  cases i with
  | rdf b | rdn n | rdc b | rds | rdw x => cases hi
  | nop | clr | wrf b | build => exact .inl ⟨.ok, _, rfl⟩
  | assign =>
    show (∃ c u, execAssign s = respond c .nothing u) ∨ ∃ r, execAssign s = .fault r
    rw [execAssign]
    split
    · exact .inl ⟨.seq, _, rfl⟩
    · cases walkTree (clearAssign s) with
      | ok u => exact .inl ⟨.ok, _, rfl⟩
      | error r => exact .inr ⟨r, rfl⟩

/-- A command that completes leaves a response, with data only if it is a read that executed. -/
theorem exec_responds {i : Instr} {s t : State} (h : exec i s = .next t) :
    ∃ r, t.rsp = some r ∧ (r.code ≠ .ok ∨ isRead i = false → r.data = .nothing) := by
  cases hi : isRead i with
  | true =>
    obtain ⟨d, hread⟩ | ⟨c, -, hrefuse⟩ := exec_read_cases hi s
    · cases (hread s.rsp).symm.trans h
      exact ⟨⟨.ok, d⟩, rfl, by simp⟩
    · cases hrefuse.symm.trans h
      exact ⟨⟨c, .nothing⟩, rfl, fun _ => rfl⟩
  | false =>
    obtain ⟨c, u, hresp⟩ | ⟨r, hfault⟩ := exec_nonRead_cases hi s
    · cases hresp.symm.trans h
      exact ⟨⟨c, .nothing⟩, rfl, fun _ => rfl⟩
    · cases hfault.symm.trans h

/-! ### The data word (R68) -/

theorem mapNext_mapNext (f g : State → State) (o : Host.Outcome State Fault Refusal) :
    mapNext f (mapNext g o) = mapNext (fun t => f (g t)) o := by
  cases o <;> rfl

/-- `s` with another data word taken. -/
def withDin (s : State) (d : Count) : State := { s with din := d }

theorem withDin_eq_outside (s : State) (d : Count) :
    withDin s d = outside s s.err s.errcode d s.rsp s.host := rfl

/-- `BUILD` carries the data word along: it is one of the fields outside the tree. -/
theorem buildState_withDin (s : State) (d : Count) :
    buildState (withDin s d) = withDin (buildState s) d := by
  have hself := buildState_outside s s.err s.errcode s.din s.rsp s.host
  have hd := buildState_outside s s.err s.errcode d s.rsp s.host
  rw [outside_self] at hself
  rw [withDin_eq_outside, hd, hself]
  generalize buildState s = t
  rfl

/-- So does `ASSIGN`. Both runs are the run with the fields outside put back, and differ in one of
them. -/
theorem execAssign_withDin (s : State) (d : Count) :
    execAssign (withDin s d) = mapNext (withDin · d) (execAssign s) := by
  cases hb : s.built with
  | false =>
    have hb' : (withDin s d).built = false := hb
    rw [execAssign, execAssign, if_pos hb, if_pos hb']
    rfl
  | true =>
    have hself := execAssign_outside s s.err s.errcode s.din s.rsp s.host hb
    rw [outside_self] at hself
    calc execAssign (withDin s d)
        = mapNext (fun t => outside t s.err s.errcode d (some ⟨.ok, .nothing⟩) s.host)
            (execAssign s) := execAssign_outside s _ _ d _ _ hb
      _ = mapNext (withDin · d) (mapNext
            (fun t => outside t s.err s.errcode s.din (some ⟨.ok, .nothing⟩) s.host)
            (execAssign s)) := by rw [mapNext_mapNext]; rfl
      _ = mapNext (withDin · d) (execAssign s) := congrArg (mapNext _) hself.symm

/-- No command but `WRF` uses the data word. -/
theorem exec_withDin {i : Instr} (hi : ∀ b, i ≠ .wrf b) (s : State) (d : Count) :
    exec i (withDin s d) = mapNext (withDin · d) (exec i s) := by
  cases i with
  | wrf b => exact absurd rfl (hi b)
  | nop | clr | rdf b | rds => rfl
  | build =>
    show respond .ok .nothing (buildState (withDin s d)) = _
    rw [buildState_withDin]
    rfl
  | assign => exact execAssign_withDin s d
  | rdn n =>
    show execRdn n (withDin s d) = mapNext (withDin · d) (execRdn n s)
    rw [execRdn, execRdn, apply_ite (mapNext _), apply_ite (mapNext _)]
    rfl
  | rdc b =>
    show execRdc b (withDin s d) = mapNext (withDin · d) (execRdc b s)
    rw [execRdc, execRdc, apply_ite (mapNext _)]
    rfl
  | rdw x =>
    show execRdw x (withDin s d) = mapNext (withDin · d) (execRdw x s)
    rw [execRdw, execRdw, apply_ite (mapNext _)]
    rfl

/-! ### Packing (R78) -/

theorem dout_eq_pack {t : State} {c : RspCode} {d : RspData} (h : t.rsp = some ⟨c, d⟩) :
    dout t = pack d := by rw [dout, h]

/-- What stands on `dout` after a command that responds data. -/
theorem dout_respond {o : Host.Outcome State Fault Refusal} {c : RspCode} {d : RspData}
    {s t : State} (ho : o = respond c d s) (h : o = .next t) : dout t = pack d := by
  cases ho.symm.trans h
  rfl

/-- Widening a field puts zeros above it. -/
theorem extractLsb'_setWidth_above {w v start len : Nat} (x : BitVec w) (h : w ≤ start) :
    (x.setWidth v).extractLsb' start len = 0 := by
  ext j hj
  simp only [BitVec.getElem_extractLsb', BitVec.getLsbD_setWidth,
    BitVec.getLsbD_of_ge x (start + j) (by omega), Bool.and_false, BitVec.ofNat_eq_ofNat,
    BitVec.getElem_zero]

/-- A response of one field has it in its lowest bits, and zeros above. -/
theorem extractLsb'_setWidth_field {w v len : Nat} (x : BitVec w) (h : w ≤ v) :
    (x.setWidth v).extractLsb' 0 w = x ∧ (x.setWidth v).extractLsb' w len = 0 :=
  ⟨by rw [BitVec.extractLsb'_setWidth_of_le (by omega), BitVec.extractLsb'_eq_self],
    extractLsb'_setWidth_above x le_rfl⟩

/-- The fields of `RDN`'s response, right lowest (R78). -/
theorem pack_node_fields (n : Node) :
    (pack (.node n)).extractLsb' 0 9 = n.right ∧ (pack (.node n)).extractLsb' 9 9 = n.left ∧
      (pack (.node n)).extractLsb' 18 8 = n.sym ∧ (pack (.node n)).extractLsb' 26 40 = n.weight ∧
      (pack (.node n)).extractLsb' 66 1 = n.kind.toBit ∧
      (pack (.node n)).extractLsb' 67 205 = 0 := by
  refine ⟨?_, ?_, ?_, ?_, ?_, extractLsb'_setWidth_above _ le_rfl⟩ <;>
    simp (disch := decide) only [pack, packNode, BitVec.extractLsb'_setWidth_of_le,
      BitVec.extractLsb'_append_eq_of_le, BitVec.extractLsb'_append_eq_of_add_le] <;>
    exact BitVec.extractLsb'_eq_self

/-- The fields of `RDC`'s response, BITS lowest (R78). -/
theorem pack_code_fields (e : CodeEntry) :
    (pack (.code e)).extractLsb' 0 255 = e.bits ∧ (pack (.code e)).extractLsb' 255 8 = e.len ∧
      (pack (.code e)).extractLsb' 263 8 = e.rawlen ∧ (pack (.code e)).extractLsb' 271 1 = 0 := by
  refine ⟨?_, ?_, ?_, extractLsb'_setWidth_above _ le_rfl⟩ <;>
    simp (disch := decide) only [pack, packCode, BitVec.extractLsb'_setWidth_of_le,
      BitVec.extractLsb'_append_eq_of_le, BitVec.extractLsb'_append_eq_of_add_le] <;>
    exact BitVec.extractLsb'_eq_self

end Sys2Proof.Machine
end

section
/-! SUPPORT. The words of the assembler's lines, and what the words of a `LOAD` leave
(spec/30_encoding.md rules R75, R76). -/

namespace Sys2Proof.Machine

/-! ### Lines with an operand (R75) -/

/-- The word of a command whose operand is the number `a`, in range. -/
theorem plainWord_operand {n op a : Nat} {i : Instr} (ha : a < 2 ^ n)
    (hi : (encode i).toNat = op * 4096 + (BitVec.ofNat n a).toNat) :
    plainWord i = (BitVec.ofNat 16 (op * 4096 + a), 0) := by
  rw [BitVec.toNat_ofNat, Nat.mod_eq_of_lt ha] at hi
  rw [plainWord, ← hi, BitVec.ofNat_toNat, BitVec.setWidth_eq]

/-- A line whose operand must fit in `n` bits gives the opcode over the operand, or an error. -/
theorem operandLine_eq {n op : Nat} {i : Instr} (a : Nat)
    (hi : (encode i).toNat = op * 4096 + (BitVec.ofNat n a).toNat) :
    (if a < 2 ^ n then some [plainWord i] else none) =
      if a < 2 ^ n then some [(BitVec.ofNat 16 (op * 4096 + a), 0)] else none := by
  split
  case isTrue ha => rw [plainWord_operand ha hi]
  case isFalse => rfl

/-- A line with a byte value gives its command's word when the value is in range. -/
theorem assembleLine_symWord (f : Sym → Instr) (b : Nat) :
    (symWord f b).map (fun w => [w]) =
      if b < 2 ^ 8 then some [plainWord (f (BitVec.ofNat 8 b))] else none :=
  apply_ite (Option.map _) ..

/-! ### Running a LOAD (R76) -/

/-- The operands of an entry of a `LOAD` are in range (R75). -/
def EntryInRange (e : Nat × Nat) : Prop := e.1 < 256 ∧ e.2 < 2 ^ 32

/-- The word and data word of an entry of a `LOAD`. -/
def entryWord (e : Nat × Nat) : PortWord := (BitVec.ofNat 16 (0x2000 + e.1), BitVec.ofNat 32 e.2)

theorem assembleLine_load {es : List (Nat × Nat)} (h : ∀ e ∈ es, EntryInRange e) :
    assembleLine (.load es) = some ((0x1000#16, 0) :: es.map entryWord) := by
  rw [assembleLine, loadWords_some h]
  rfl

theorem assembleLine_load_none {es : List (Nat × Nat)} (h : ∃ e ∈ es, ¬EntryInRange e) :
    assembleLine (.load es) = none := by
  rw [assembleLine, loadWords_none h]
  rfl

/-- The assembler has words for a `LOAD` only if every operand is in range. -/
theorem entries_inRange {es : List (Nat × Nat)} {ws : List PortWord}
    (h : assembleLine (.load es) = some ws) : ∀ e ∈ es, EntryInRange e := by
  by_contra hno
  push Not at hno
  rw [assembleLine_load_none hno] at h
  cases h

/-- The state after the `CLR` that begins a `LOAD`. -/
def afterClr (s : State) : State :=
  { invalidate (clearFreq { s with din := 0 }) with
    err := false, errcode := .ok, rsp := some ⟨.ok, .nothing⟩ }

/-- The state after the words of a `LOAD`. -/
def afterLoad (es : List (Nat × Nat)) (s : State) : State := afterWrfs es (afterClr s)

theorem runWords_load {es : List (Nat × Nat)} {ws : List PortWord} {s : State}
    (h : assembleLine (.load es) = some ws) : runWords ws s = .next (afterLoad es s) := by
  have hrange := entries_inRange h
  cases (assembleLine_load hrange).symm.trans h
  have hclr : accept exec (present 0x1000#16 0) s = .next (afterClr s) := rfl
  rw [runWords, hclr]
  exact runWords_wrfs hrange (afterClr s)

theorem afterLoad_invalidated (es : List (Nat × Nat)) (s : State) :
    Invalidated (afterLoad es s) :=
  (afterWrfs_keep es (afterClr s)).withdrawn ⟨rfl, rfl, rfl, rfl, rfl, rfl, rfl, rfl, rfl⟩

/-- A `LOAD` leaves the listed counts over an all-zero table. -/
theorem freqAt_afterLoad {es : List (Nat × Nat)} (hn : (es.map Prod.fst).Nodup)
    (h : ∀ e ∈ es, EntryInRange e) (s : State) :
    (∀ e ∈ es, freqAt (afterLoad es s) (BitVec.ofNat 8 e.1) = BitVec.ofNat 32 e.2) ∧
      ∀ b : Sym, b.toNat ∉ es.map Prod.fst → freqAt (afterLoad es s) b = 0 :=
  freqAt_afterWrfs hn h (afterClr s)

/-- The order of the entries does not change the table. -/
theorem freqKept_afterLoad_perm {es es' : List (Nat × Nat)} (hp : es'.Perm es)
    (hn : (es.map Prod.fst).Nodup) (h : ∀ e ∈ es, EntryInRange e) (s : State) :
    FreqKept (afterLoad es s) (afterLoad es' s) := by
  intro b
  have hpf := hp.map Prod.fst
  obtain ⟨hlisted, hother⟩ := freqAt_afterLoad hn h s
  obtain ⟨hlisted', hother'⟩ :=
    freqAt_afterLoad (hpf.nodup_iff.2 hn) (fun e he => h e (hp.mem_iff.1 he)) s
  by_cases hb : b.toNat ∈ es.map Prod.fst
  · obtain ⟨e, he, heb⟩ := List.mem_map.1 hb
    obtain rfl : BitVec.ofNat 8 e.1 = b := by rw [heb, BitVec.ofNat_toNat, BitVec.setWidth_eq]
    rw [hlisted e he, hlisted' e (hp.mem_iff.2 he)]
  · rw [hother b hb, hother' b fun hb' => hb (hpf.mem_iff.1 hb')]

/-- With the products withdrawn only FREQ, the error record, the sequencer and the ports are left to
see. -/
theorem SameVisible.of_invalidated {s t : State} (hs : Invalidated s) (ht : Invalidated t)
    (hf : FreqKept s t) (he : ErrorKept s t) (hq : SequencerKept s t) (hp : PortKept s t)
    (hr : t.rsp = s.rsp) : SameVisible s t := by
  obtain ⟨hb, hv, hempty, hsingle, hnleaf, hnext, hroot, hwlen, hwlenraw⟩ := hs
  obtain ⟨hb', hv', hempty', hsingle', hnleaf', hnext', hroot', hwlen', hwlenraw'⟩ := ht
  exact ⟨hf, ⟨hnext'.trans hnext.symm, hnleaf'.trans hnleaf.symm, hroot'.trans hroot.symm⟩,
    ⟨hb'.trans hb.symm, hv'.trans hv.symm, hempty'.trans hempty.symm, hsingle'.trans hsingle.symm⟩,
    he, hq, ⟨hwlen'.trans hwlen.symm, hwlenraw'.trans hwlenraw.symm⟩, hp, hr,
    fun h => absurd (hb.symm.trans h) Bool.false_ne_true,
    fun h => absurd (hv.symm.trans h) Bool.false_ne_true⟩

/-- Outside FREQ and the data word, any two `LOAD`s leave the same to see. -/
theorem sameVisible_afterLoad {es es' : List (Nat × Nat)} {s : State}
    (hf : FreqKept (afterLoad es s) (afterLoad es' s)) :
    SameVisible { afterLoad es s with din := (afterLoad es' s).din } (afterLoad es' s) := by
  obtain ⟨-, ⟨herr, hcode⟩, ⟨hph, hix, hsp⟩, hhost, hrsp⟩ := afterWrfs_keep es (afterClr s)
  obtain ⟨-, ⟨herr', hcode'⟩, ⟨hph', hix', hsp'⟩, hhost', hrsp'⟩ :=
    afterWrfs_keep es' (afterClr s)
  exact .of_invalidated (afterLoad_invalidated es s) (afterLoad_invalidated es' s) hf
    ⟨herr'.trans herr.symm, hcode'.trans hcode.symm⟩
    ⟨hph'.trans hph.symm, hix'.trans hix.symm, hsp'.trans hsp.symm⟩
    ⟨rfl, hhost'.trans hhost.symm⟩ ((hrsp' rfl).trans (hrsp rfl).symm)

end Sys2Proof.Machine
end

section
/-! The statements of spec/30_encoding.md that are settled: decoding and encoding, the responses,
the operands, and the assembler. -/

namespace Sys2Proof.Machine

/-- Settles O11, by the opcode and the operand of the word. -/
theorem decodeEncodeAgree : Obligations.DecodeEncodeAgree :=
  ⟨decode_encode, fun _ _ => encode_decode⟩

/-- Settles O12: the words that a row accepts are the encodings of its mnemonic's commands. -/
theorem decodeFollowsOpcodeTable : Obligations.DecodeFollowsOpcodeTable := by
  refine ⟨fun w r hr => ?_, fun w r hr r' hr' h h' => ?_,
    fun w => ⟨fun h i hi => ?_, fun h r hr => ?_⟩⟩
  · simp only [decode_eq_command_iff, accepts_iff hr]
  · obtain ⟨i, rfl, hm⟩ := (accepts_iff hr w).1 h
    exact mnemonic_injOn_opcodeTable r hr r' hr' (hm.symm.trans ((accepts_encode_iff hr' i).1 h'))
  · obtain rfl := decode_eq_command_iff.1 hi
    obtain ⟨r, hr, hacc, -⟩ := mem_accepting_mnemonics.2 (rfl : mnemonic i = mnemonic i)
    exact absurd hacc (by simp [h r hr])
  · rw [Bool.eq_false_iff]
    intro hacc
    obtain ⟨i, rfl, -⟩ := (accepts_iff hr w).1 hacc
    exact h i (decode_encode i)

/-- Settles O13: a word is reserved by its opcode, is a well-formed command, or is neither. -/
theorem commandsAreTheWellFormedWords : Obligations.CommandsAreTheWellFormedWords :=
  ⟨decode_reservedOpcode_iff, decode_command_iff, decode_reservedBits_iff⟩

/-- Settles O10, by evaluation on the twelve words. -/
theorem decodeSamples : Obligations.DecodeSamples := by
  unfold Obligations.DecodeSamples
  decide

/-- Settles O9: a read that executed is the only command that responds data. -/
theorem everyCommandAnswers : Obligations.EveryCommandAnswers := by
  refine ⟨fun i s t h => ?_, rfl, rfl, rfl, rfl⟩
  obtain ⟨r, hr, hdata⟩ := exec_responds h
  refine ⟨r, hr, by rw [rspValid, hr]; rfl, by rw [rspCode, hr], fun hno => ?_⟩
  rw [dout_eq_pack hr, hdata hno]
  rfl

/-- Settles O15: each read responds its record, and the fields of a record are packed from bit 0
up. -/
theorem responsePacking : Obligations.ResponsePacking := by
  refine ⟨fun s b t h => ?_, fun s i t hb hi h => ?_, fun s b t hv h => ?_, fun s t h => ?_,
    fun s x t hv h => ?_⟩
  · rw [dout_respond rfl h]
    exact extractLsb'_setWidth_field _ (by decide)
  · have hrdn : exec (.rdn i) s = respond .ok (.node (nodeAt s i)) s :=
      (if_neg (by simp [hb])).trans (if_neg (BitVec.not_le.2 hi))
    rw [dout_respond hrdn h]
    exact pack_node_fields _
  · have hrdc : exec (.rdc b) s = respond .ok (.code (codeAt s b)) s := if_neg (by simp [hv])
    rw [dout_respond hrdc h]
    exact pack_code_fields _
  · rw [dout_respond rfl h]
    exact extractLsb'_setWidth_field _ (by decide)
  · have hrdw : exec (.rdw x) s = respond .ok (.sum (selectedSum x s)) s := if_neg (by simp [hv])
    rw [dout_respond hrdw h]
    exact extractLsb'_setWidth_field _ (by decide)

/-- Settles O14: a command word is its opcode over its operand, and only `WRF` uses the data
word. -/
theorem operandsAsTheyStand : Obligations.OperandsAsTheyStand := by
  refine ⟨fun w b h => ?_, fun w i h => ?_, fun w x h => ?_, fun s b d => ⟨_, rfl, ?_⟩,
    fun i s d hi => exec_withDin hi s d⟩
  · obtain h | h | h := h <;> rw [decode_eq_command_iff.1 h] <;>
      exact operand_toNat (by decide) (encode_toNat _)
  · rw [decode_eq_command_iff.1 h]
    exact operand_toNat (by decide) (encode_toNat (.rdn i))
  · rw [decode_eq_command_iff.1 h]
    exact operand_toNat (by decide) (encode_toNat (.rdw x))
  · exact (freqAt_setFreq _ b d b).trans (if_pos rfl)

/-- Settles O16, by the number that each encoding is. -/
theorem assemblerLines : Obligations.AssemblerLines := by
  refine ⟨rfl, rfl, rfl, rfl, rfl, fun b c => ?_, fun b => ?_, fun i => ?_, fun b => ?_,
    fun x => ?_⟩
  · rw [assembleLine, wrfWord_eq, apply_ite (Option.map _)]
    rfl
  · exact (assembleLine_symWord .rdf b).trans (operandLine_eq b (encode_toNat (.rdf _)))
  · simp only [← Nat.lt_add_one_iff]
    exact operandLine_eq i (encode_toNat (.rdn _))
  · exact (assembleLine_symWord .rdc b).trans (operandLine_eq b (encode_toNat (.rdc _)))
  · simp only [← Nat.lt_add_one_iff]
    exact operandLine_eq x (encode_toNat (.rdw _))

/-- Settles O17: a `LOAD` runs as `CLR` and one `WRF` for each entry, so FREQ is what is listed, in
whatever order, and all else is what `CLR` leaves. -/
theorem pseudoInstructions : Obligations.PseudoInstructions := by
  refine ⟨rfl, rfl, rfl, fun es _ h => assembleLine_load h, fun es h => assembleLine_load_none h,
    fun es ws s _ hws hn => ?_⟩
  have hrange := entries_inRange hws
  obtain ⟨hlisted, hother⟩ := freqAt_afterLoad hn hrange s
  refine ⟨afterLoad es s, runWords_load hws, afterLoad_invalidated es s, hlisted, hother,
    fun es' ws' t' hp hws' ht' => ?_⟩
  cases (runWords_load hws').symm.trans ht'
  have hfreq := freqKept_afterLoad_perm hp hn hrange s
  exact ⟨hfreq, sameVisible_afterLoad hfreq⟩

end Sys2Proof.Machine
end

section
/-! SUPPORT. What a `WRF` leaves, what two leave in either order, and what a command can do to the
error record (spec/40_frequency_table.md rules R82 to R84, spec/60_exceptions.md rule R150). -/

namespace Sys2Proof.Machine

/-! ### The state after a `WRF` (R83, R84) -/

/-- The state after a `WRF` of byte value `b` with the data word `c`. -/
def written (b : Sym) (c : Count) (s : State) : State :=
  { invalidate (setFreq (withDin s c) b c) with rsp := some ⟨.ok, .nothing⟩ }

theorem exec_wrf (b : Sym) (s : State) : exec (.wrf b) s = .next (written b s.din s) := rfl

@[simp] theorem runCommands_wrf (b : Sym) (c : Count) (rest : List (Instr × Count)) (s : State) :
    runCommands ((.wrf b, c) :: rest) s = runCommands rest (written b c s) := rfl

theorem freqAt_written (b : Sym) (c : Count) (s : State) (x : Sym) :
    freqAt (written b c s) x = if x = b then c else freqAt s x :=
  freqAt_setFreq (withDin s c) b c x

theorem written_invalidated (b : Sym) (c : Count) (s : State) : Invalidated (written b c s) :=
  invalidate_spec (setFreq (withDin s c) b c)

/-- Of two `WRF` to one byte value the later is the only one that counts (R83). -/
theorem written_written (b : Sym) (c d : Count) (s : State) :
    written b d (written b c s) = written b d s := by
  simp only [written, withDin, setFreq, invalidate, Memory.write_write]

/-- Two `WRF` to different byte values leave the same FREQ in either order (R83). -/
theorem freqKept_written_comm {b x : Sym} (hbx : b ≠ x) (c d : Count) (s : State) :
    FreqKept (written x d (written b c s)) (written b c (written x d s)) := by
  intro y
  simp only [freqAt_written]
  by_cases hb : y = b
  · have hx : y ≠ x := hb ▸ hbx
    rw [if_pos hb, if_neg hx, if_pos hb]
  · rw [if_neg hb, if_neg hb]

/-- Outside FREQ and the data word, two `WRF` leave the same to see in either order. -/
theorem sameVisible_written_comm {b x : Sym} (hbx : b ≠ x) (c d : Count) (s : State) :
    SameVisible (withDin (written x d (written b c s)) c) (written b c (written x d s)) :=
  .of_invalidated (written_invalidated x d _) (written_invalidated b c _)
    (freqKept_written_comm hbx c d s) ⟨rfl, rfl⟩ ⟨rfl, rfl, rfl⟩ ⟨rfl, rfl⟩ rfl

/-! ### The error record -/

/-- A response leaves the error record as it is (R77). -/
theorem respond_errorKept {c : RspCode} {d : RspData} {s t : State}
    (he : respond c d s = .next t) : ErrorKept s t := by
  cases he
  exact ⟨rfl, rfl⟩

/-- A command other than `CLR` keeps the error record, or is refused (R82, R150). -/
theorem exec_error_cases {i : Instr} {s t : State} (hi : i ≠ .clr) (he : exec i s = .next t) :
    ErrorKept s t ∨ ∃ c, refuse c s = .next t := by
  cases hr : isRead i with
  | true =>
    obtain ⟨d, hread⟩ | ⟨c, -, hrefuse⟩ := exec_read_cases hr s
    · exact .inl (respond_errorKept ((hread s.rsp).symm.trans he))
    · exact .inr ⟨c, hrefuse.symm.trans he⟩
  | false =>
    cases i with
    | rdf b | rdn n | rdc b | rds | rdw x => cases hr
    | clr => exact absurd rfl hi
    | nop => exact .inl (respond_errorKept he)
    | wrf b => exact .inl (respond_errorKept (s := invalidate (setFreq s b s.din)) he)
    | build =>
      have hk := buildState_keeps s
      obtain ⟨herr, hcode⟩ := respond_errorKept (s := buildState s) he
      exact .inl ⟨herr.trans hk.err, hcode.trans hk.errcode⟩
    | assign =>
      cases hb : s.built with
      | false => exact .inr ⟨.seq, (if_pos hb).symm.trans he⟩
      | true =>
        obtain ⟨u, hu, rfl⟩ := execAssign_keeps hb he
        exact .inl ⟨hu.err, hu.errcode⟩

/-- Once ERR is set, no command but `CLR` changes the error record: a refusal keeps the first code
(R82, R150). -/
theorem exec_errorKept {i : Instr} {s t : State} (hi : i ≠ .clr) (herr : s.err = true)
    (he : exec i s = .next t) : ErrorKept s t := by
  obtain hkept | ⟨c, hrefuse⟩ := exec_error_cases hi he
  · exact hkept
  · obtain ⟨u, hu, -, hset, -, hfirst, -⟩ := refuse_spec s c
    cases hu.symm.trans hrefuse
    exact ⟨hset.trans herr.symm, hfirst herr⟩

end Sys2Proof.Machine
end

section
/-! The statements of spec/40_frequency_table.md that are settled: `CLR`, `WRF` and `RDF`. -/

namespace Sys2Proof.Machine

/-- Settles O18: `CLR` leaves no count listed and everything derived withdrawn, as reset does, and
every other command keeps an error record that is set. -/
theorem clrZeroesTheTable : Obligations.ClrZeroesTheTable := by
  refine ⟨fun s => ?_, fun i s t he hset hclear => ?_⟩
  · have hinv := invalidate_spec (clearFreq s)
    refine ⟨_, rfl, rfl, fun _ => rfl, hinv, rfl, rfl, fun _ => rfl, fun _ => rfl, fun _ => rfl,
      fun _ => rfl, ⟨rfl, rfl, rfl⟩, ⟨rfl, rfl⟩, ⟨rfl, rfl⟩, fun hph hix hsp => ?_⟩
    exact .of_invalidated (invalidate_spec State.reset) hinv (fun _ => rfl) ⟨rfl, rfl⟩
      ⟨hph, hix, hsp⟩ ⟨rfl, rfl⟩ rfl
  · by_contra hi
    obtain ⟨herr, -⟩ := exec_errorKept hi hset he
    exact absurd (hclear.symm.trans (herr.trans hset)) Bool.false_ne_true

/-- Settles O19: the written entry reads as the data word, every other as before, and `invalidate`
touches no memory. -/
theorem wrfWritesOneEntry : Obligations.WrfWritesOneEntry := fun b s =>
  ⟨written b s.din s, exec_wrf b s, rfl, (freqAt_written ..).trans (if_pos rfl),
    fun _ hx => (freqAt_written ..).trans (if_neg hx), written_invalidated b s.din s,
    fun _ => rfl, fun _ => rfl, fun _ => rfl, fun _ => rfl, ⟨rfl, rfl⟩, ⟨rfl, rfl, rfl⟩,
    ⟨rfl, rfl⟩, ⟨rfl, rfl⟩⟩

/-- Settles O20, by the entry that each `WRF` writes. -/
theorem writesCommuteAndTheLaterWins : Obligations.WritesCommuteAndTheLaterWins := by
  refine ⟨fun b x c d s hbx => ?_, fun b c d s => ?_, fun b c d s => ?_⟩
  · exact ⟨_, _, rfl, rfl, freqKept_written_comm hbx c d s, sameVisible_written_comm hbx c d s⟩
  · refine ⟨written b d s, ?_, rfl⟩
    rw [runCommands_wrf, runCommands_wrf, written_written, runCommands]
  · have hread : freqAt (withDin (written b c s) d) b = c := (freqAt_written ..).trans (if_pos rfl)
    obtain ⟨t, ht, hresp, -⟩ := respond_spec (withDin (written b c s) d) .ok
      (.count (freqAt (withDin (written b c s) d) b))
    exact ⟨t, ht, hread ▸ hresp⟩

/-- Settles O21: `RDF` responds the entry and does no more, and neither reset nor `CLR` leaves a
count listed. -/
theorem rdfResponds : Obligations.RdfResponds := by
  refine ⟨fun b s => respond_spec s .ok (.count (freqAt s b)), fun _ => rfl, fun b s u hu => ?_⟩
  cases hu
  exact ⟨_, rfl, rfl⟩

end Sys2Proof.Machine
end

section
/-! SUPPORT. The state that a completed `BUILD` leaves, the leaves and children that the merge
invariant gives it, the keys of candidates, and what `RDN` and `RDC` answer (spec/41_tree_build.md
rules R87, R92, R95, R103 to R105, R109). -/

namespace Sys2Proof.Machine

/-! ### The state after a `BUILD` (R87, R95) -/

/-- `s` with the response that a command without data gives, held. -/
def responded (s : State) : State := { s with rsp := some ⟨.ok, .nothing⟩ }

theorem exec_build (s : State) : exec .build s = .next (responded (buildState s)) := by
  rw [exec, execBuild, respond, responded]

theorem candidates_responded (s : State) : candidates (responded s) = candidates s :=
  List.filter_congr fun _ _ => rfl

theorem MergeInv.responded {L : List (Sym × Weight)} {s : State} (h : MergeInv L s) :
    MergeInv L (responded s) := h.congr rfl rfl rfl rfl

theorem BuildCounts.responded {s t : State} (h : BuildCounts s t) :
    BuildCounts s (responded t) :=
  ⟨h.nleaf, h.next, h.root, h.built, h.empty, h.single, h.ph, h.ix⟩

theorem BuildKeeps.responded {s t : State} (h : BuildKeeps s t) :
    BuildKeeps (responded s) (responded t) :=
  ⟨h.freq, h.code, h.stk, h.codev, h.err, h.errcode, h.sp, h.wlen, h.wlenraw, h.din, rfl, h.host⟩

theorem TreeReady.responded {s t : State} (h : TreeReady s t) : TreeReady s (responded t) :=
  ⟨h.root, h.empty, h.nodes⟩

theorem SameTree.responded {s t : State} (h : SameTree s t) :
    SameTree (responded s) (responded t) :=
  ⟨h.next, h.nleaf, h.root, h.empty, h.single, h.nodes⟩

theorem TreeAt.responded {s : State} {T : HTree} (h : TreeAt s s.root T) :
    TreeAt (responded s) (responded s).root T :=
  .of_node (s := s) (t := Machine.responded s) rfl h

section

variable {s t : State} (ht : exec .build s = .next t)
include ht

theorem build_eq : t = responded (buildState s) :=
  (Host.Outcome.next.inj ((exec_build s).symm.trans ht)).symm

theorem build_inv : MergeInv (leafList s) t :=
  build_eq ht ▸ (buildState_inv s).1.responded

theorem build_counts : BuildCounts s t := build_eq ht ▸ (buildState_counts s).responded

theorem build_keeps : BuildKeeps (responded s) t := by
  rw [build_eq ht]
  exact (buildState_keeps s).responded

theorem build_freqKept : FreqKept s t := freqAt_congr (build_keeps ht).freq

theorem build_treeReady : TreeReady s t := build_eq ht ▸ (treeReady_build s).responded

/-- NODE at and above NEXT, and without a merge round M1 and M2, are as before (R61, R32). -/
theorem build_rest : (∀ i : NodeIdx, t.next.toNat ≤ i.toNat → nodeAt t i = nodeAt s i) ∧
    (presentCount s ≤ 1 → ScratchKept s t) := by
  have h := buildState_rest s
  rw [build_eq ht]
  generalize buildState s = u at h
  exact h

/-- With a byte present, the candidate left is the root (R95). -/
theorem build_candAt_iff (hk : 1 ≤ presentCount s) (i : NodeIdx) :
    candAt t i = true ↔ i = t.root := by
  have hroot : candidates t = [t.root] := by
    have h := buildState_root_cand hk
    rw [build_eq ht, candidates_responded]
    generalize buildState s = u at h
    exact h
  have hmem : i ∈ candidates t ↔ i = t.root := by rw [hroot, List.mem_singleton]
  rw [← hmem, mem_candidates]
  refine ⟨fun hc => ⟨?_, hc⟩, And.right⟩
  have hlt := (build_inv ht).candlt i hc
  have := t.next.isLt
  omega

/-- With no byte present, no candidate is left (R95). -/
theorem build_candAt_empty (hk : presentCount s = 0) (i : NodeIdx) : candAt t i = false := by
  by_contra hc
  have hlt := (build_inv ht).candlt i (Bool.eq_true_of_not_eq_false hc)
  have := (build_counts ht).next
  omega

/-- The tree at ROOT has the present bytes as its leaves, and its cost is the weight of the internal
nodes of NODE (R104, R138 item 7). -/
theorem build_tree (hk : 1 ≤ presentCount s) :
    ∃ T, TreeAt t t.root T ∧ T.leaves.Perm (leafList s) ∧
      T.cost 0 = innerTotal (buildState s) (presentCount s) (presentCount s - 1) := by
  obtain ⟨T, hT, hleaves, hsums, hinner⟩ := buildState_tree hk
  exact ⟨T, build_eq ht ▸ hT.responded, hleaves, hsums.cost_zero.trans hinner⟩

/-- A second state with the same FREQ gets the same tree (R106). -/
theorem build_sameTree {s' t' : State} (hf : FreqKept s s') (ht' : exec .build s' = .next t') :
    SameTree t t' := by
  rw [build_eq ht, build_eq ht']
  exact (buildState_sameTree hf).responded

end

/-! ### The leaves (R88, R104) -/

theorem allSyms_ascending : allSyms.Pairwise (· < ·) := by
  refine List.pairwise_map.2 (List.pairwise_lt_range.imp_of_mem fun {a b} ha hb hab => ?_)
  rw [List.mem_range] at ha hb
  rw [BitVec.lt_def, BitVec.toNat_ofNat, BitVec.toNat_ofNat]
  simp only [Config.NSYM, Config.SYMW] at ha hb ⊢
  omega

theorem presentSyms_ascending (s : State) : (presentSyms s).Pairwise (· < ·) :=
  allSyms_ascending.filter _

theorem leafList_getElem (s : State) {j : Nat} (h : j < (leafList s).length)
    (h' : j < (presentSyms s).length) : (leafList s)[j] =
      ((presentSyms s)[j], (freqAt s (presentSyms s)[j]).setWidth Config.WW) := by
  simp [leafList]

theorem mem_leafList {s : State} {p : Sym × Weight} : p ∈ leafList s ↔
    freqAt s p.1 ≠ 0 ∧ p.2 = (freqAt s p.1).setWidth Config.WW := by
  rw [leafList, List.mem_map]
  constructor
  · rintro ⟨b, hb, rfl⟩
    exact ⟨mem_presentSyms.1 hb, rfl⟩
  · rintro ⟨hb, hw⟩
    exact ⟨p.1, mem_presentSyms.2 hb, by rw [← hw]⟩

section

variable {L : List (Sym × Weight)} {s : State} (h : MergeInv L s)
include h

/-- The leaves in use are the nodes below the number of leaves (R104). -/
theorem MergeInv.leaf_iff {i : NodeIdx} (hi : i.toNat < s.next.toNat) :
    (nodeAt s i).kind = .leaf ↔ i.toNat < L.length := by
  constructor
  · intro hk
    by_contra hlt
    have := (h.inner i (by omega) hi).kind
    rw [hk] at this
    cases this
  · intro hlt
    rw [h.leafAt hlt]

theorem MergeInv.leaf_mem {i : NodeIdx} (hi : i.toNat < s.next.toNat)
    (hk : (nodeAt s i).kind = .leaf) : ((nodeAt s i).sym, (nodeAt s i).weight) ∈ L := by
  rw [h.leafAt ((h.leaf_iff hi).1 hk)]
  exact List.getElem_mem _

/-- Every leaf below a node in use is a leaf of the table (R104). -/
theorem MergeInv.leaves_subset {i : NodeIdx} {T : HTree} (hT : TreeAt s i T)
    (hi : i.toNat < s.next.toNat) : T.leaves ⊆ L := by
  induction hT with
  | leaf _ hk =>
    intro p hp
    rw [List.mem_singleton.1 hp]
    exact h.leaf_mem hi hk
  | internal _ hk _ _ ihl ihr =>
    have hin := h.children hi hk
    have hl := hin.left_lt
    have hr := hin.right_lt
    exact List.append_subset.2 ⟨ihl (by omega), ihr (by omega)⟩

end

/-- A node in use weighs what the counts of the leaves below it add up to (R105). -/
theorem MergeInv.weight_eq_counts {s t : State} (h : MergeInv (leafList s) t) {i : NodeIdx}
    {T : HTree} (hT : TreeAt t i T) (hi : i.toNat < t.next.toNat) :
    weightAt t i = (T.leaves.map fun p => (freqAt s p.1).toNat).sum := by
  rw [← h.treeAt_weight hT hi, leafTotal]
  refine congrArg List.sum (List.map_congr_left fun p hp => ?_)
  rw [(mem_leafList.1 (h.leaves_subset hT hi hp)).2, setWidth_count]

/-- A present byte is the `sym` of the leaf at its place among the present bytes, and of no other
(R104). -/
theorem MergeInv.unique_leaf {s t : State} (h : MergeInv (leafList s) t) {b : Sym}
    (hb : freqAt s b ≠ 0) :
    ∃! i : NodeIdx, i < t.next ∧ (nodeAt t i).kind = .leaf ∧ (nodeAt t i).sym = b := by
  have hge := h.ge
  have hsmall := h.small
  have hlen : (leafList s).length = (presentSyms s).length := leafList_length s
  have hsym : ∀ {i : NodeIdx} (hi : i.toNat < (presentSyms s).length),
      (nodeAt t i).sym = (presentSyms s)[i.toNat] := fun {i} hi => by
    rw [h.leafAt (by omega), leafList_getElem s (by omega) hi]
  obtain ⟨j, hj, rfl⟩ := List.getElem_of_mem (mem_presentSyms.2 hb)
  have hjn : (BitVec.ofNat 9 j).toNat = j := by
    rw [BitVec.toNat_ofNat]
    omega
  refine ⟨BitVec.ofNat 9 j, ⟨?_, ?_, ?_⟩, ?_⟩
  · rw [BitVec.lt_def]
    omega
  · rw [h.leaf_iff (by omega)]
    omega
  · rw [hsym (by omega)]
    simp only [hjn]
  · rintro i ⟨hi, hk, hs⟩
    have hlt := (h.leaf_iff (BitVec.lt_def.1 hi)).1 hk
    rw [hsym (by omega), (presentSyms_nodup s).getElem_inj_iff] at hs
    exact BitVec.eq_of_toNat_eq (hs.trans hjn.symm)

/-! ### Keys (R92) -/

theorem key_injective (s : State) {i j : NodeIdx} (h : key s i = key s j) : i = j := by
  have hkey := congrArg BitVec.toNat h
  rw [key_toNat, key_toNat] at hkey
  have hi : i.toNat < 512 := i.isLt
  have hj : j.toNat < 512 := j.isLt
  exact BitVec.eq_of_toNat_eq (by omega)

/-- Less weight is a lower key, and of equal weights the higher index. -/
theorem key_lt_of_weight {s : State} {i j : NodeIdx} (hne : j ≠ i)
    (h : weightAt s i < weightAt s j ∨ weightAt s i = weightAt s j ∧ j.toNat ≤ i.toNat) :
    key s i < key s j := by
  have hi : i.toNat < 512 := i.isLt
  have hj : j.toNat < 512 := j.isLt
  have hne' : j.toNat ≠ i.toNat := fun e => hne (BitVec.eq_of_toNat_eq e)
  rw [BitVec.lt_def, key_toNat, key_toNat]
  simp only [weightAt] at h
  omega

/-- The candidates after a merge round: the new node, and the old ones but the two taken (R94). -/
theorem candAt_mergeRound_iff (s : State) (i : NodeIdx) : candAt (mergeRound s) i = true ↔
    i = s.next ∨ candAt s i = true ∧ i ≠ (mergeRound s).m1 ∧ i ≠ (mergeRound s).m2 := by
  rw [candAt_mergeRound, m1_mergeRound, m2_mergeRound]
  by_cases hn : i = s.next
  · simp [hn]
  · by_cases h2 : i = leastCandidate (firstExtracted s)
    · simp [hn, ← h2]
    · by_cases h1 : i = leastCandidate s
      · simp [hn, h2, ← h1]
      · simp [hn, h1, h2]

/-! ### Depths (R109) -/

theorem HTree.follow_length_lt {T : HTree} {route : List Bool} {b : Sym} {w : Weight}
    (h : T.follow route = some (.leaf b w)) : route.length < T.leaves.length := by
  have hdepth := (HTree.paths_depth (HTree.mem_paths_of_follow 0 0 h)).2
  have := T.height_lt_leaves
  simp only at hdepth
  omega

/-! ### The cost (R122) -/

/-- The WLENRAW that `ASSIGN` leaves is the weight of the internal nodes (R122, R138 item 7). -/
theorem assigned_wlenraw {s0 : State} {xs : List LeafPath} (h : PathFacts s0 xs) (s : State) :
    (assigned s xs).wlenraw.toNat =
      innerTotal (buildState s0) (presentCount s0) (presentCount s0 - 1) := by
  rw [(assigned_sums h).1, ← h.cost]
  refine congrArg List.sum (List.map_congr_left fun x hx => ?_)
  rw [(h.entry hx).rawlen]

/-! ### Reading the products (R103, R135, R149) -/

theorem exec_rdc_served {s : State} (hv : s.codev = true) (b : Sym) :
    exec (.rdc b) s = respond .ok (.code (codeAt s b)) s := if_neg (ne_false_of_eq_true hv)

theorem exec_rdn_unbuilt {s : State} (hb : s.built = false) (i : NodeIdx) :
    exec (.rdn i) s = refuse .seq s := if_pos hb

theorem exec_rdn_above {s : State} (hb : s.built = true) {i : NodeIdx} (hi : s.next ≤ i) :
    exec (.rdn i) s = refuse .index s :=
  (if_neg (ne_false_of_eq_true hb)).trans (if_pos hi)

theorem exec_rdn_node {s : State} (hb : s.built = true) {i : NodeIdx} (hi : i < s.next) :
    exec (.rdn i) s = respond .ok (.node (nodeAt s i)) s :=
  (if_neg (ne_false_of_eq_true hb)).trans (if_neg (BitVec.not_le.2 hi))

end Sys2Proof.Machine
end

section
/-! The statements of spec/41_tree_build.md that are settled: `BUILD`, its procedures and
micro-operations, the tree it makes, and `RDN`. -/

namespace Sys2Proof.Machine

/-- Settles O35: B0 is the step of the acceptance, and the run of micro-operations after it is the
whole command. -/
theorem buildMicroOpsAgree : Obligations.BuildMicroOpsAgree := by
  intro s n hacc hn hreset
  have hk := presentCount_le s
  have hcount : presentCount (accepted s) = presentCount s := presentCount_congr fun _ => rfl
  obtain ⟨m, hm, rfl⟩ : ∃ m, m = (if presentCount s ≤ 1 then 257 else 257 + presentCount s) ∧
      n = m + 1 := ⟨_, rfl, by rw [hn]; split <;> omega⟩
  have hsteps := build_steps (accepted s) hacc.rsp
  rw [hcount, ← hm] at hsteps
  obtain ⟨hrun, hbusy⟩ := hacc.run rfl rfl hsteps hreset
  refine ⟨?_, ⟨_, exec_build _, hrun⟩, hbusy⟩
  rw [hm]
  split <;> omega

/-- Settles O36: the tree costs what its internal nodes weigh, which is no more than any tree over
the leaves costs, and is what the lengths that `ASSIGN` writes add up to. -/
theorem buildIsOptimal : Obligations.BuildIsOptimal := by
  intro s t T hk ht hT
  obtain ⟨T₀, hT₀, hleaves, hcost⟩ := build_tree ht hk
  cases hT.unique hT₀
  refine ⟨fun T' hT' => ?_, ?_⟩
  · rw [hcost]
    exact buildState_least hk T' (hT'.trans hleaves)
  · obtain ⟨xs, hxs, hassign⟩ := execAssign_spec s
    exact ⟨_, hassign _ (build_counts ht).built (build_treeReady ht),
      (assigned_wlenraw hxs _).trans hcost.symm⟩

/-- Settles O25, by the registers that `BUILD` leaves and the candidates left of the merge loop. -/
theorem buildCompletes : Obligations.BuildCompletes := by
  intro s
  have ht := exec_build s
  obtain ⟨hnleaf, hnext, hroot, hbuilt, hempty, hsingle, -⟩ := build_counts ht
  refine ⟨_, ht, (build_keeps ht).rsp, hnleaf, ?_, ?_, hempty, hsingle, hbuilt,
    fun hk => ⟨?_, build_candAt_iff ht hk⟩, build_candAt_empty ht⟩
  · rw [hnext]
    split <;> omega
  · rw [hroot]
    split <;> omega
  · obtain ⟨T, hT, -⟩ := build_tree ht hk
    exact ⟨T, hT⟩

/-- Settles O26: no procedure of `BUILD` writes outside its own registers, NODE and CAND, and a
table is served while CODEV stands. -/
theorem buildFrame : Obligations.BuildFrame := by
  intro s t ht
  have hk := build_keeps ht
  have hcode : CodeKept s t := codeAt_congr hk.code
  obtain ⟨hnode, hscratch⟩ := build_rest ht
  refine ⟨freqAt_congr hk.freq, hcode, hk.codev, ⟨hk.wlen, hk.wlenraw⟩, stkAt_congr hk.stk, hk.sp,
    ⟨hk.err, hk.errcode⟩, ⟨hk.din, hk.host⟩, fun i hi => hnode i (BitVec.le_def.1 hi), hscratch,
    fun hv b => ?_⟩
  obtain ⟨u, hu, hresp, -⟩ := respond_spec t .ok (.code (codeAt t b))
  exact ⟨u, (exec_rdc_served (hk.codev.trans hv) b).trans hu, hcode b ▸ hresp⟩

/-- Settles O27: the byte values are taken in ascending order, and no merge round writes a leaf. -/
theorem buildMakesLeaves : Obligations.BuildMakesLeaves := by
  intro s
  have hM := makeLeaves_spec s
  refine ⟨presentSyms_ascending s, fun _ => mem_presentSyms, by rw [hM.nleaf]; exact hM.next,
    hM.next, fun i => by rw [hM.cand, decide_eq_true_eq]; rfl, fun j hj t ht => ?_⟩
  have hj' : j < (leafList s).length := (leafList_length s).symm ▸ hj
  refine ⟨hM.leaf j hj, ?_⟩
  rw [(build_inv ht).leaf j hj', leafList_getElem s hj' hj]

/-- Settles O28, by the key as a number. -/
theorem extractMinIsLeast : Obligations.ExtractMinIsLeast := by
  refine fun s => ⟨key_toNat s, fun i j => key_injective s, fun c hc hcand => ?_⟩
  have hmem : c ∈ candidates s := mem_candidates.2 ⟨hc, hcand⟩
  obtain ⟨hleast, hmin⟩ := leastCandidate_spec (List.ne_nil_of_mem hmem)
  obtain ⟨hlt, hcand'⟩ := mem_candidates.1 hleast
  refine ⟨hcand', hlt, fun hne => ⟨key_lt_of_weight hne (hmin c hmem), ?_⟩⟩
  obtain hweight | ⟨hweight, hle⟩ := hmin c hmem
  · exact .inl (BitVec.lt_def.2 hweight)
  · refine .inr ⟨BitVec.eq_of_toNat_eq hweight, BitVec.lt_def.2 (Nat.lt_of_le_of_ne hle ?_)⟩
    exact fun e => hne (BitVec.eq_of_toNat_eq e)

/-- Settles O29: the enabled micro-operation is B3, whose merge round takes the least candidate and
then the least of the others. -/
theorem mergeRoundTakesTheTwoLeast : Obligations.MergeRoundTakesTheTwoLeast := by
  intro s hph hc hnext
  have hop : microOp s = .next (mergeRound s) := by
    rw [microOp_of_merge hph, if_pos hc, microB3, if_neg (Nat.ne_of_lt hnext)]
  have hfacts := roundFacts hc
  have hnode := nodeAt_mergeRound_next s
  rw [← m1_mergeRound, ← m2_mergeRound] at hfacts hnode
  have ho := mergeRound_only s
  refine ⟨mergeRound s, hop, hfacts.cand1, hfacts.cand2, hfacts.ne,
    fun c hlt hcand hne => key_lt_of_weight hne (hfacts.least1 c hcand hlt),
    fun c hlt hcand hne1 hne2 => key_lt_of_weight hne2 (hfacts.least2 c hcand hlt hne1), ?_,
    hnode, fun i hi => ?_, candAt_mergeRound_iff s, next_mergeRound s, nleaf_mergeRound s, ho.root,
    ⟨ho.built, ho.codev, ho.empty, ho.single⟩, freqAt_congr ho.freq, codeAt_congr ho.code,
    stkAt_congr ho.stk, ⟨ho.err, ho.errcode⟩, ⟨ho.ph, ho.ix, ho.sp⟩, ⟨ho.wlen, ho.wlenraw⟩,
    ⟨ho.din, ho.host⟩, ho.rsp⟩
  · obtain hlt | ⟨heq, -⟩ := hfacts.least1 _ hfacts.cand2 hfacts.lt2
    · exact BitVec.le_def.2 hlt.le
    · exact BitVec.le_def.2 heq.le
  · rw [nodeAt_mergeRound, if_neg hi]

/-- Settles O30: the leaves are the present bytes in order, and every later node in use is a merge
round's. -/
theorem buildNodeCounts : Obligations.BuildNodeCounts := by
  intro s t ht
  have h := build_inv ht
  have hnext := (build_counts ht).next
  have hlen := leafList_length s
  refine ⟨fun i hi => ?_, fun i hge hlt => (h.inner i (by omega) (by omega)).kind, hnext,
    fun b hb => h.unique_leaf hb, fun b hb i hi hk hsym => ?_⟩
  · rw [h.leafAt (by omega)]
  · have hmem := mem_leafList.1 (h.leaf_mem (BitVec.lt_def.1 hi) hk)
    exact hmem.1 (hsym ▸ hb)

/-- Settles O31: a leaf has its count, a merge round adds two weights below 2^40 without loss, and
the rounds take ever heavier pairs. -/
theorem buildWeights : Obligations.BuildWeights := by
  intro s t ht
  have h := build_inv ht
  have hcounts := build_counts ht
  refine ⟨fun i hi hk => ?_, fun i hi hk => (h.children (BitVec.lt_def.1 hi) hk).weight,
    fun i T hi hT => h.weight_eq_counts hT (BitVec.lt_def.1 hi), fun hk => ?_,
    fun i j hi hij hj => ?_⟩
  · have hweight := (mem_leafList.1 (h.leaf_mem (BitVec.lt_def.1 hi) hk)).2
    exact (congrArg BitVec.toNat hweight).trans (setWidth_count _)
  · obtain ⟨T, hT, hleaves, -⟩ := build_tree ht hk
    have hroot : t.root.toNat < t.next.toNat := by
      rw [hcounts.root, hcounts.next]
      omega
    calc weightAt t t.root
        = leafTotal T.leaves := (h.treeAt_weight hT hroot).symm
      _ = leafTotal (leafList s) := leafTotal_perm hleaves
      _ = totalCount s := leafTotal_leafList s
  · rw [← leafList_length] at hi
    exact BitVec.le_def.2 (h.rising i j hi (BitVec.le_def.1 hij) (BitVec.lt_def.1 hj))

/-- Settles O32: a node is taken by one round and no more, since being taken ends its candidacy, and
the root is the candidate left. -/
theorem buildOwnership : Obligations.BuildOwnership := by
  intro s t ht
  have h := build_inv ht
  have hcounts := build_counts ht
  have hused : ∀ {i : NodeIdx}, i < t.next → 1 ≤ presentCount s := fun {i} hi => by
    have := BitVec.lt_def.1 hi
    have := hcounts.next
    omega
  refine ⟨fun n hn hk => ?_, fun i hi hne => ?_, fun n hn hk => ?_⟩
  · have hin := h.children (BitVec.lt_def.1 hn) hk
    exact ⟨BitVec.lt_def.2 hin.left_lt, BitVec.lt_def.2 hin.right_lt, hin.left_ne_right⟩
  · have htaken : candAt t i = false :=
      Bool.eq_false_of_not_eq_true fun hc => hne ((build_candAt_iff ht (hused hi) i).1 hc)
    exact h.parent i (BitVec.lt_def.1 hi) htaken
  · have hcand := (build_candAt_iff ht (hused hn) _).2 rfl
    have horphan := h.orphan _ hcand n (BitVec.lt_def.1 hn)
    exact ⟨fun e => horphan ⟨hk, .inl e⟩, fun e => horphan ⟨hk, .inr e⟩⟩

/-- Settles O33: equal FREQ gives equal trees, and `BUILD` keeps FREQ. -/
theorem buildDependsOnFreqOnly : Obligations.BuildDependsOnFreqOnly := by
  refine ⟨fun s s' t t' hf ht ht' => ?_, fun s t u ht hu => ?_⟩
  · have hsame := build_sameTree ht hf ht'
    exact ⟨⟨hsame.next, hsame.nleaf, hsame.root⟩,
      (build_counts ht').built.trans (build_counts ht).built.symm, hsame.empty, hsame.single,
      fun i hi => hsame.nodes i (BitVec.lt_def.1 hi)⟩
  · have hsame := build_sameTree ht (build_freqKept ht) hu
    exact ⟨⟨hsame.next, hsame.nleaf, hsame.root⟩,
      ⟨(build_counts hu).built.trans (build_counts ht).built.symm, (build_keeps hu).codev,
        hsame.empty, hsame.single⟩, fun i hi => hsame.nodes i (BitVec.lt_def.1 hi)⟩

/-- Settles O34: a tree is less high than its leaves are many, and the tree at ROOT has k leaves. -/
theorem depthIsBounded : Obligations.DepthIsBounded := by
  refine ⟨fun T route b w h => Nat.le_sub_one_of_lt (HTree.follow_length_lt h),
    fun s t T route b w ht hk hT => ?_⟩
  obtain ⟨T₀, hT₀, hleaves, -⟩ := build_tree ht hk
  cases hT.unique hT₀
  have hlen : T.leaves.length = presentCount s := hleaves.length_eq.trans (leafList_length s)
  refine ⟨hlen, fun h => ?_⟩
  have hlt := HTree.follow_length_lt h
  have := presentCount_le s
  omega

/-- Settles O37: SEQ, then INDEX, then the node; no NEXT is above 511. -/
theorem rdnServesNode : Obligations.RdnServesNode := by
  intro s i
  obtain ⟨t, ht, hseq⟩ := refuse_spec s .seq
  obtain ⟨u, hu, hindex⟩ := refuse_spec s .index
  obtain ⟨v, hv, hnode⟩ := respond_spec s .ok (.node (nodeAt s i))
  refine ⟨fun hb => ⟨t, (exec_rdn_unbuilt hb i).trans ht, hseq⟩,
    fun hb hi => ⟨u, (exec_rdn_above hb hi).trans hu, hindex⟩,
    fun hb hi => ⟨v, (exec_rdn_node hb hi).trans hv, hnode⟩, ?_⟩
  rintro rfl
  cases hb : s.built with
  | false => exact ⟨t, (exec_rdn_unbuilt hb 511).trans ht, .inl hseq⟩
  | true =>
    have hi : s.next ≤ 511 := BitVec.le_def.2 (Nat.le_of_lt_succ s.next.isLt)
    exact ⟨u, (exec_rdn_above hb hi).trans hu, .inr hindex⟩

end Sys2Proof.Machine
end

section
/-! SUPPORT. The leaf paths behind a table: that they tell the bytes and the routes apart, what the
entries and sums are because of them, and what is left of the tree after an `ASSIGN`
(spec/42_encoding_assign.md rules R113 to R127, R135, R137, R138). -/

namespace Sys2Proof.Machine

/-! ### Present bytes and leaf paths -/

theorem presentCount_pos {s : State} {b : Sym} (hb : freqAt s b ≠ 0) : 1 ≤ presentCount s :=
  List.length_pos_of_mem (mem_presentSyms.2 hb)

/-- One leaf path lies wholly to the left of another, in units of depth 255. -/
def LeafPath.LeftOf (x y : LeafPath) : Prop :=
  (x.path + 1) * 2 ^ (255 - x.depth) ≤ y.path * 2 ^ (255 - y.depth)

section

variable {s : State} {xs : List LeafPath} (h : PathFacts s xs)
include h

/-- A byte has one leaf path (R104). -/
theorem PathFacts.eq_of_sym {x y : LeafPath} (hx : x ∈ xs) (hy : y ∈ xs) (e : x.sym = y.sym) :
    x = y :=
  List.inj_on_of_nodup_map h.nodup hx hy e

/-- Of two leaf paths one lies wholly to the left of the other (R127). -/
theorem PathFacts.disjoint_of_ne {x y : LeafPath} (hx : x ∈ xs) (hy : y ∈ xs) (hne : x ≠ y) :
    x.LeftOf y ∨ y.LeftOf x := by
  have : Std.Symm fun x y : LeafPath => x.LeftOf y ∨ y.LeftOf x := ⟨fun _ _ => Or.symm⟩
  have hpair : xs.Pairwise fun x y => x.LeftOf y ∨ y.LeftOf x := h.disjoint.imp Or.inl
  exact hpair.forall hx hy hne

/-- With at most one leaf the only path is the empty one (R120). -/
theorem PathFacts.entry_eq_fill (hk : presentCount s ≤ 1) {x : LeafPath} (hx : x ∈ xs) :
    x.entry = codeFill := by
  have hdepth : x.depth = 0 := by
    have := h.depth_le x hx
    omega
  have hpath : x.path = 0 := by
    have := h.path_lt x hx
    rw [hdepth] at this
    omega
  rw [LeafPath.entry, hdepth, hpath]
  rfl

/-- The leaf depths meet Kraft's equation (R127 fact d), byte by byte. -/
theorem PathFacts.kraft_syms (hk : 1 ≤ presentCount s) {d : Sym → Nat}
    (hd : ∀ x ∈ xs, d x.sym = x.depth) :
    ((presentSyms s).map fun b => 2 ^ (255 - d b)).sum = 2 ^ 255 := by
  rw [← (h.syms.map _).sum_eq, List.map_map, ← h.kraft hk]
  refine congrArg List.sum (List.map_congr_left fun x hx => ?_)
  rw [Function.comp_apply, hd x hx]

end

/-- A present byte is reached by one route only (R115). -/
theorem PathFacts.existsUnique_route {s : State} {T : HTree} (h : PathFacts s (T.paths 0 0))
    {b : Sym} (hb : freqAt s b ≠ 0) :
    ∃! route, T.follow route = some (.leaf b ((freqAt s b).setWidth Config.WW)) := by
  obtain ⟨x, hx, rfl, hw⟩ := h.present hb
  obtain ⟨route, hroute, hdepth, hpath⟩ := HTree.follow_of_mem_paths hx
  refine ⟨route, hw ▸ hroute, fun other hother => ?_⟩
  have hsame := h.eq_of_sym (HTree.mem_paths_of_follow 0 0 hother) hx rfl
  have hlen : 0 + other.length = x.depth := congrArg LeafPath.depth hsame
  have hvalue : routeValue 0 other = x.path := congrArg LeafPath.path hsame
  exact route_unique (by omega) (hvalue.trans hpath)

/-! ### The table of an `ASSIGN` -/

/-- With a tree current `ASSIGN` executes, and makes a table of the leaf paths (R113). -/
theorem Consistent.exec_assign {s : State} (h : Consistent s) (hb : s.built = true) :
    ∃ t xs, exec .assign s = .next t ∧ Responds t .ok .nothing ∧ TableOf s t xs := by
  obtain ⟨ys, -, he, -⟩ := h.assign_eq hb
  obtain ⟨t, ht, hresp, -⟩ := respond_spec (Machine.assigned s ys) .ok .nothing
  obtain ⟨xs, hxs⟩ := h.tableOf hb (he.trans ht)
  exact ⟨t, xs, he.trans ht, hresp, hxs⟩

/-- A current table is the table of the present FREQ (R40 item 6). -/
theorem Consistent.ownTable {s : State} (h : Consistent s) (hv : s.codev = true) :
    ∃ xs, TableOf s s xs := by
  obtain ⟨xs, hx, hcode, hwlen, hwlenraw⟩ := h.currentTable hv
  obtain ⟨hraw, hstripped⟩ := assigned_sums (s := s) hx
  exact ⟨xs, hx, fun _ => rfl, fun b hb => (hcode b).trans (codeAt_assigned_absent hx hb),
    fun x hm => (hcode x.sym).trans (codeAt_assigned_leaf hx hm),
    (congrArg BitVec.toNat hwlenraw).trans hraw, (congrArg BitVec.toNat hwlen).trans hstripped⟩

/-- Two current trees of equal counts get the same codes and sums (R138 item 8). -/
theorem Consistent.exec_assign_congr {s s' t t' : State} (h : Consistent s) (h' : Consistent s')
    (hb : s.built = true) (hb' : s'.built = true) (hf : FreqKept s s')
    (ht : exec .assign s = .next t) (ht' : exec .assign s' = .next t') :
    CodeKept t t' ∧ SumsKept t t' := by
  obtain ⟨xs, -, he, -, hall⟩ := h.assign_eq hb
  cases he.symm.trans ht
  cases (hall s' hb' ((h'.treeReady hb').congr hf.symm)).symm.trans ht'
  exact assigned_congr xs s s'

section

variable {s t : State} {xs : List LeafPath} (h : TableOf s t xs)
include h

/-- The entry of a byte says its route (R115 to R118). -/
theorem TableOf.codeOf {T : HTree} (hxs : xs = T.paths 0 0) {route : List Bool} {b : Sym}
    {w : Weight} (hf : T.follow route = some (.leaf b w)) : CodeOf (codeAt t b) route := by
  subst hxs
  exact h.leaf _ (HTree.mem_paths_of_follow 0 0 hf) ▸ h.facts.codeOf hf

/-- A leaf path is the raw path of its byte's entry: its depth many bits, of its path value (R116,
R127). -/
theorem TableOf.rawPath_spec {x : LeafPath} (hx : x ∈ xs) :
    (codeAt t x.sym).rawPath.length = x.depth ∧
      routeValue 0 (codeAt t x.sym).rawPath = x.path := by
  obtain ⟨hpresent, -⟩ := h.facts.sym_present hx
  obtain ⟨T, hxs, -⟩ := h.facts.tree (presentCount_pos hpresent)
  obtain ⟨route, hroute, hdepth, hpath⟩ := HTree.follow_of_mem_paths (hxs ▸ hx)
  rw [(h.codeOf hxs hroute).raw]
  exact ⟨(hdepth.trans (Nat.zero_add _)).symm, hpath.symm⟩

/-- No raw path of a present byte begins another's (R127, R138 item 4). -/
theorem TableOf.rawPath_not_prefix {b c : Sym} (hb : freqAt s b ≠ 0) (hc : freqAt s c ≠ 0)
    (hbc : b ≠ c) : ¬(codeAt t b).rawPath <+: (codeAt t c).rawPath := by
  obtain ⟨x, hx, rfl, -⟩ := h.present hb
  obtain ⟨y, hy, rfl, -⟩ := h.present hc
  obtain ⟨hxlen, hxpath⟩ := h.rawPath_spec hx
  obtain ⟨hylen, hypath⟩ := h.rawPath_spec hy
  have hk := presentCount_le s
  have hxdepth := h.facts.depth_le x hx
  have hydepth := h.facts.depth_le y hy
  refine not_prefix_of_disjoint (M := 255) (by omega) (by omega) ?_
  rw [hxlen, hxpath, hylen, hypath]
  exact h.facts.disjoint_of_ne hx hy fun e => hbc (congrArg LeafPath.sym e)

/-- LEN is the bit length of BITS, for absent bytes too (R117, R119). -/
theorem TableOf.len_eq_bitlen (b : Sym) : (codeAt t b).len.toNat = bitlen (codeAt t b).bits := by
  by_cases hb : freqAt s b = 0
  · rw [h.absent b hb]
    rfl
  · obtain ⟨x, hx, -, hentry⟩ := h.present hb
    rw [hentry]
    exact (h.facts.entry hx).len

/-- The stored code determines BITS: its first bit is 1, so it is the numeral (R127 fact c). -/
theorem TableOf.storedCode_eq_iff (b c : Sym) :
    (codeAt t b).storedCode = (codeAt t c).storedCode ↔ (codeAt t b).bits = (codeAt t c).bits := by
  rw [CodeEntry.storedCode, CodeEntry.storedCode, h.len_eq_bitlen, h.len_eq_bitlen]
  refine ⟨fun e => ?_, fun e => by rw [e]⟩
  have hlen := congrArg List.length e
  rw [bitString_length, bitString_length] at hlen
  rw [← hlen] at e
  exact bitString_inj _ e (lt_two_pow_bitlen _) (hlen ▸ lt_two_pow_bitlen _)

/-- One present byte has BITS = 0: that of the leftmost leaf (R127 fact a, R138 item 5). -/
theorem TableOf.existsUnique_bits_zero (hk : 1 ≤ presentCount s) :
    ∃! b, freqAt s b ≠ 0 ∧ (codeAt t b).bits = 0 := by
  obtain ⟨x, rest, hxs, hpath, hrest⟩ := h.facts.zero hk
  have hx : x ∈ xs := hxs ▸ List.mem_cons_self
  have hbits : ∀ y ∈ xs, (codeAt t y.sym).bits = 0 ↔ y.path = 0 := fun y hy => by
    rw [h.leaf y hy, ← (h.facts.entry hy).bits, ← BitVec.toNat_inj]
    rfl
  refine ⟨x.sym, ⟨(h.facts.sym_present hx).1, (hbits x hx).2 hpath⟩, fun c hc => ?_⟩
  obtain ⟨hpresent, hzero⟩ := hc
  obtain ⟨y, hy, rfl, -⟩ := h.present hpresent
  obtain rfl | hmem := List.mem_cons.1 (hxs ▸ hy)
  · rfl
  · exact absurd ((hbits y hy).1 hzero) (hrest y hmem).ne'

/-- The sums over the leaves are the sums over all bytes (R122). -/
theorem TableOf.wlenraw_eq : t.wlenraw.toNat = weightedSum t CodeEntry.rawlen :=
  h.raw.trans (sum_over_bytes h.facts CodeEntry.rawlen h.leaf h.freq)

theorem TableOf.wlen_eq : t.wlen.toNat = weightedSum t CodeEntry.len :=
  h.stripped.trans (sum_over_bytes h.facts CodeEntry.len h.leaf h.freq)

/-- Stripping makes no code longer (R122). -/
theorem TableOf.wlen_le : t.wlen ≤ t.wlenraw := by
  rw [BitVec.le_def, h.raw, h.stripped]
  exact List.sum_le_sum fun x hx => Nat.mul_le_mul_left _ (h.facts.entry hx).len_le

/-- With at most one leaf every entry is empty and both sums are 0 (R120, R121, R137). -/
theorem TableOf.empty_of_le_one (hk : presentCount s ≤ 1) :
    (∀ b, codeAt t b = codeFill) ∧ t.wlen = 0 ∧ t.wlenraw = 0 := by
  have hsum : ∀ f : CodeEntry → Len, f codeFill = 0 →
      (xs.map fun x => x.weight.toNat * (f x.entry).toNat).sum = 0 := fun f hf => by
    refine List.sum_eq_zero fun n hn => ?_
    obtain ⟨x, hx, rfl⟩ := List.mem_map.1 hn
    rw [h.facts.entry_eq_fill hk hx, hf]
    rfl
  refine ⟨fun b => ?_, BitVec.eq_of_toNat_eq (h.stripped.trans (hsum CodeEntry.len rfl)),
    BitVec.eq_of_toNat_eq (h.raw.trans (hsum CodeEntry.rawlen rfl))⟩
  by_cases hb : freqAt s b = 0
  · exact h.absent b hb
  · obtain ⟨x, hx, -, hentry⟩ := h.present hb
    rw [hentry, h.facts.entry_eq_fill hk hx]

/-- WLENRAW is the weight of the internal nodes of the current tree (R138 item 7). -/
theorem TableOf.wlenraw_eq_internalWeight (hr : TreeReady s s) :
    t.wlenraw.toNat = internalWeight s (presentCount s) := by
  have hnodes : internalWeight s (presentCount s) =
      innerTotal (buildState s) (presentCount s) (presentCount s - 1) := by
    have hk := presentCount_le s
    refine innerTotal_congr fun r hlt => ?_
    have hplace : (BitVec.ofNat 9 (presentCount s + r)).toNat = presentCount s + r := by
      rw [BitVec.toNat_ofNat]
      omega
    rw [weightAt, weightAt, hr.nodes _ (by omega)]
  calc t.wlenraw.toNat
      = (assigned s xs).wlenraw.toNat := h.raw.trans (assigned_sums h.facts).1.symm
    _ = innerTotal (buildState s) (presentCount s) (presentCount s - 1) :=
        assigned_wlenraw h.facts s
    _ = internalWeight s (presentCount s) := hnodes.symm

end

/-! ### A path of left turns (R127 fact a) -/

theorem bitString_zero (n : Nat) : bitString 0 n = List.replicate n false := by
  induction n with
  | zero => rfl
  | succ n ih =>
    have hbit : (0 : Path).getLsbD n = false := BitVec.getLsbD_zero
    rw [bitString, ih, hbit, List.replicate_succ]

theorem rawPath_of_bits_zero {e : CodeEntry} (h : e.bits = 0) : ∀ x ∈ e.rawPath, x = false := by
  rw [CodeEntry.rawPath, h]
  exact fun x hx => List.eq_of_mem_replicate (bitString_zero _ ▸ hx)

/-! ### Without a current tree or table (R123, R135, R137) -/

theorem exec_assign_unbuilt {s : State} (hb : s.built = false) :
    exec .assign s = refuse .seq s := if_pos hb

theorem exec_rdc_refused {s : State} (hv : s.codev = false) (b : Sym) :
    exec (.rdc b) s = refuse .seq s := if_pos hv

theorem exec_rdw_refused {s : State} (hv : s.codev = false) (x : BitVec 1) :
    exec (.rdw x) s = refuse .seq s := if_pos hv

theorem exec_rdw_served {s : State} (hv : s.codev = true) (x : BitVec 1) :
    exec (.rdw x) s = respond .ok (.sum (selectedSum x s)) s := if_neg (ne_false_of_eq_true hv)

/-- No command but `BUILD` makes a tree current (R25). -/
theorem exec_unbuilt {i : Instr} {s t : State} (hi : i ≠ .build) (hb : s.built = false)
    (he : exec i s = .next t) : t.built = false := by
  cases hr : isRead i with
  | true =>
    obtain ⟨d, hread⟩ | ⟨c, -, hrefuse⟩ := exec_read_cases hr s
    · cases (hread s.rsp).symm.trans he
      exact hb
    · cases hrefuse.symm.trans he
      exact hb
  | false =>
    cases i with
    | rdf b | rdn n | rdc b | rds | rdw x => cases hr
    | build => exact absurd rfl hi
    | nop =>
      cases he
      exact hb
    | clr | wrf b =>
      cases he
      rfl
    | assign =>
      cases (exec_assign_unbuilt hb).symm.trans he
      exact hb

/-- A run of commands that completes has completed its first one. -/
theorem runCommands_cons {i : Instr} {d : Count} {js : List (Instr × Count)} {s u : State}
    (h : runCommands ((i, d) :: js) s = .next u) :
    ∃ t, exec i (withDin s d) = .next t ∧ runCommands js t = .next u := by
  simp only [runCommands] at h
  split at h
  · exact ⟨_, ‹_›, h⟩
  · cases h
  · cases h

theorem runCommands_unbuilt {js : List (Instr × Count)} {s u : State}
    (hjs : ∀ j ∈ js, j.1 ≠ .build) (hb : s.built = false) (h : runCommands js s = .next u) :
    u.built = false := by
  induction js generalizing s with
  | nil =>
    cases h
    exact hb
  | cons j js ih =>
    obtain ⟨t, ht, hu⟩ := runCommands_cons h
    obtain ⟨hj, hrest⟩ := List.forall_mem_cons.1 hjs
    exact ih hrest (exec_unbuilt (s := withDin s j.2) hj hb ht) hu

/-! ### Two bytes that store one code (R127) -/

/-- Three bytes with counts 3, 2 and 1: their raw paths are "1", "01" and "00". -/
def threeCounts : State := { State.reset with freq := [(0x41, 3), (0x42, 2), (0x43, 1)] }

/-- Its tree. -/
def threeBuilt : State := responded (buildState threeCounts)

theorem consistent_threeBuilt : Consistent threeBuilt := by
  have hcounts : Consistent threeCounts :=
    .invalidated ⟨rfl, rfl, rfl, rfl, rfl, rfl, rfl, rfl, rfl⟩ ⟨rfl, rfl⟩ rfl
      ⟨fun _ => rfl, fun _ => rfl⟩ ⟨by decide, rfl, rfl, rfl, rfl⟩
  exact hcounts.executed (exec_build threeCounts)

/-- Whether a command completes with one BITS for both bytes. -/
def leavesEqualBits (b c : Sym) : Host.Outcome State Fault Refusal → Bool
  | .next t => decide ((codeAt t b).bits = (codeAt t c).bits)
  | .fault _ => false
  | .refused _ => false

theorem threeBuilt_equal_bits : leavesEqualBits 0x41 0x42 (exec .assign threeBuilt) = true := by
  decide +kernel

end Sys2Proof.Machine
end

section
/-! The statements of spec/42_encoding_assign.md that are settled: `ASSIGN`, its micro-operations, the
table it makes, and `RDC` and `RDW`. -/

namespace Sys2Proof.Machine

/-- Settles O39: the emitted leaf paths are the routes of the current tree, which tell its leaves
apart. -/
theorem assignCodesAreRoutes : Obligations.AssignCodesAreRoutes := by
  intro s h hb hempty
  obtain ⟨-, hcount, -⟩ := h.tree hb
  have hk : 1 ≤ presentCount s := by
    rw [hempty, eq_comm, decide_eq_false_iff_not] at hcount
    omega
  obtain ⟨t, xs, ht, -, htable⟩ := h.exec_assign hb
  obtain ⟨T, rfl, hT⟩ := htable.facts.tree hk
  refine ⟨t, T, ht, hT s (h.treeReady hb), fun b hp => htable.facts.existsUnique_route hp,
    fun route b w hroute => ?_⟩
  obtain ⟨hrawlen, hbits, hlen, hraw, hstored⟩ := htable.codeOf rfl hroute
  exact ⟨hrawlen, hbits, hlen, hraw, hstored⟩

/-- Settles O42, item by item from the leaf paths of the tree. -/
theorem tableFacts : Obligations.TableFacts := by
  intro s t h hb ht
  obtain ⟨xs, htable⟩ := h.tableOf hb ht
  have hready := h.treeReady hb
  refine ⟨htable.absent, fun b hp => ?_, fun hk b hp => ?_,
    fun b c => htable.rawPath_not_prefix, htable.existsUnique_bits_zero,
    ⟨htable.wlenraw_eq, htable.wlen_eq, htable.wlen_le⟩,
    fun _ => htable.wlenraw_eq_internalWeight hready,
    fun s' t' h' hb' hf ht' => h.exec_assign_congr h' hb hb' hf ht ht'⟩
  · obtain ⟨x, hx, -, hentry⟩ := htable.present hp
    obtain ⟨-, hrawlen, hlen, hbits, hle⟩ := htable.facts.entry hx
    rw [hentry]
    refine ⟨hrawlen.trans_le (htable.facts.depth_le x hx), hbits, hlen, BitVec.le_def.2 hle,
      fun T route w hT hroute => ?_⟩
    obtain ⟨T', hxs, hT'⟩ := htable.facts.tree (presentCount_pos hp)
    cases hT.unique (hT' s hready)
    exact hentry ▸ (htable.codeOf hxs hroute).rawlen
  · obtain ⟨x, hx, -, hentry⟩ := htable.present hp
    rw [hentry, (htable.facts.entry hx).rawlen]
    exact htable.facts.depth_pos hk x hx

/-- Settles O44: A0 is the step of the acceptance, and the run of micro-operations after it is the
whole command but for what it leaves in STK. -/
theorem assignMicroOpsAgree : Obligations.AssignMicroOpsAgree := by
  intro s n h hb hacc hn hreset
  have hk := presentCount_le s
  have hcount : presentCount (accepted s) = presentCount s := presentCount_congr fun _ => rfl
  obtain ⟨m, hm, rfl⟩ : ∃ m, m = (if presentCount s = 0 then 258 else 257 + 2 * presentCount s) ∧
      n = m + 1 := ⟨_, rfl, by rw [hn]; split <;> omega⟩
  obtain ⟨xs, k', hassign, hsteps⟩ := assign_steps h.accepted hb hacc.rsp
  rw [hcount, ← hm] at hsteps
  have hstart : startMicro .assign (accepted s) = .next (microA0 (accepted s)) :=
    if_neg (ne_false_of_eq_true hb)
  obtain ⟨hrun, hbusy⟩ := hacc.run hstart rfl hsteps hreset
  refine ⟨?_, ⟨_, _, hassign, hrun, rfl⟩, hbusy⟩
  rw [hm]
  split <;> omega

/-- Settles O38: a consistent tree is walked without a fault, and the walk writes CODE and the sums
alone. -/
theorem assignCompletes : Obligations.AssignCompletes := by
  intro s h hb
  obtain ⟨t, -, ht, -⟩ := h.exec_assign hb
  obtain ⟨u, hu, rfl⟩ := execAssign_keeps hb ht
  exact ⟨_, ht, rfl, rfl, rfl, rfl, rfl, rfl, fun b => freqAt_congr hu.freq b,
    fun i => nodeAt_congr hu.node i, fun i => candAt_congr hu.cand i,
    ⟨hu.next, hu.nleaf, hu.root⟩, hu.empty, hu.single, ⟨hu.err, hu.errcode⟩, ⟨hu.m1, hu.m2⟩,
    ⟨hu.din, hu.host⟩⟩

/-- Settles O40: SINGLE and EMPTY say that at most one byte is present. -/
theorem assignEdgeCases : Obligations.AssignEdgeCases := by
  intro s h hb
  obtain ⟨t, xs, ht, hresp, htable⟩ := h.exec_assign hb
  obtain ⟨-, hempty, hsingle, -⟩ := h.tree hb
  obtain ⟨t', ht', -, hcodev, hbuilt, -⟩ := assignCompletes s h hb
  cases ht.symm.trans ht'
  refine ⟨t, ht, hresp, htable.absent, fun hone => ?_, fun hnone => ?_⟩
  · have hk : presentCount s = 1 := of_decide_eq_true (hsingle.symm.trans hone)
    exact htable.empty_of_le_one hk.le
  · have hk : presentCount s = 0 := of_decide_eq_true (hempty.symm.trans hnone)
    obtain ⟨hcode, hwlen, hwlenraw⟩ := htable.empty_of_le_one (by omega)
    exact ⟨hcode, hwlen, hwlenraw, hcodev, hbuilt⟩

/-- Settles O41: what the leaves add up to is what all bytes do. -/
theorem assignSums : Obligations.AssignSums := by
  intro s h hb
  obtain ⟨t, xs, ht, -, htable⟩ := h.exec_assign hb
  exact ⟨t, ht, htable.wlenraw_eq, htable.wlen_eq, htable.wlen_le⟩

/-- Settles O43: equal raw lengths with equal BITS would be equal raw paths. Of three bytes with
counts 3, 2 and 1 the raw paths "1" and "01" are both stored as "1". -/
theorem onlyRawPathsArePrefixFree : Obligations.OnlyRawPathsArePrefixFree := by
  refine ⟨fun s t h hb ht => ?_, ?_⟩
  · obtain ⟨xs, htable⟩ := h.tableOf hb ht
    refine ⟨fun b c => htable.rawPath_not_prefix, fun hk => ?_, fun b c hp hq hbc hlen hbits => ?_,
      fun b c _ _ _ => htable.storedCode_eq_iff b c, fun hk => ?_⟩
    · obtain ⟨b, ⟨hp, hzero⟩, huniq⟩ := htable.existsUnique_bits_zero hk
      refine ⟨b, ⟨hp, hzero, BitVec.eq_of_toNat_eq ?_, rawPath_of_bits_zero hzero⟩,
        fun c ⟨hq, hzero', _⟩ => huniq c ⟨hq, hzero'⟩⟩
      rw [htable.len_eq_bitlen, hzero]
      rfl
    · refine htable.rawPath_not_prefix hp hq hbc ?_
      rw [CodeEntry.rawPath, CodeEntry.rawPath, hlen, hbits]
    · refine htable.facts.kraft_syms (by omega) fun x hx => ?_
      rw [htable.leaf x hx, (htable.facts.entry hx).rawlen]
  · have h := consistent_threeBuilt
    have hb : threeBuilt.built = true := (build_counts (exec_build threeCounts)).built
    have hf : FreqKept threeCounts threeBuilt := build_freqKept (exec_build threeCounts)
    obtain ⟨t, xs, ht, -, htable⟩ := h.exec_assign hb
    have hbits := threeBuilt_equal_bits
    rw [ht] at hbits
    refine ⟨threeBuilt, t, 0x41, 0x42, h, hb, ht, ?_, ?_, by decide,
      (htable.storedCode_eq_iff _ _).2 (of_decide_eq_true hbits)⟩
    · rw [hf]
      decide
    · rw [hf]
      decide

/-- Settles O45: `ASSIGN` clears BUILT, and only a `BUILD` sets it again. -/
theorem assignConsumesTheTree : Obligations.AssignConsumesTheTree := by
  intro s t hb ht
  obtain ⟨u, hu, rfl⟩ := execAssign_keeps hb ht
  refine ⟨rfl, fun i => nodeAt_congr hu.node i, ⟨hu.next, hu.nleaf, hu.root⟩, hu.empty, hu.single,
    fun js v hjs hv => ?_⟩
  have hunbuilt : v.built = false := runCommands_unbuilt hjs rfl hv
  obtain ⟨w, hw, hrefused⟩ := refuse_spec v .seq
  exact ⟨⟨w, (exec_assign_unbuilt hunbuilt).trans hw, hrefused⟩,
    fun i => ⟨w, (exec_rdn_unbuilt hunbuilt i).trans hw, hrefused⟩⟩

/-- Settles O47: SEQ, or the entry; a current table has nothing for an absent byte. -/
theorem rdcServesCode : Obligations.RdcServesCode := by
  intro s b
  obtain ⟨t, ht, hseq⟩ := refuse_spec s .seq
  obtain ⟨u, hu, hcode⟩ := respond_spec s .ok (.code (codeAt s b))
  refine ⟨fun hv => ⟨t, (exec_rdc_refused hv b).trans ht, hseq⟩,
    fun hv => ⟨u, (exec_rdc_served hv b).trans hu, hcode⟩, fun h hv hb => ?_⟩
  obtain ⟨xs, htable⟩ := h.ownTable hv
  exact htable.absent b hb

/-- Settles O48: SEQ, or the selected sum; a current table of at most one leaf has only empty
paths. -/
theorem rdwServesSums : Obligations.RdwServesSums := by
  intro s
  obtain ⟨t, ht, hseq⟩ := refuse_spec s .seq
  obtain ⟨u, hu, hwlen⟩ := respond_spec s .ok (.sum s.wlen)
  obtain ⟨v, hv', hwlenraw⟩ := respond_spec s .ok (.sum s.wlenraw)
  refine ⟨fun hv x => ⟨t, (exec_rdw_refused hv x).trans ht, hseq⟩,
    fun hv => ⟨⟨u, (exec_rdw_served hv 0).trans hu, hwlen⟩,
      ⟨v, (exec_rdw_served hv 1).trans hv', hwlenraw⟩⟩, fun h hv hk => ?_⟩
  obtain ⟨xs, htable⟩ := h.ownTable hv
  obtain ⟨-, hsums⟩ := htable.empty_of_le_one hk
  exact hsums

end Sys2Proof.Machine
end

section
/-! The statement of spec/43_status_and_misc.md settled here: `NOP`. -/

namespace Sys2Proof.Machine

/-- `NOP` is a response with code 0 and data 0 (R139). -/
theorem exec_nop (s : State) : exec .nop s = respond .ok .nothing s := by
  rw [exec, execNop]

/-- Settles O23: `NOP` only responds, and a response keeps the whole state. -/
theorem nopChangesNothing : Obligations.NopChangesNothing := by
  intro s
  rw [exec_nop]
  exact respond_spec s .ok .nothing

end Sys2Proof.Machine
end

section
/-! SUPPORT. Which commands are refused, that ERR plays no part in any, and how soon the refined
machine responds (spec/60_exceptions.md rules R145 to R152, R158). -/

namespace Sys2Proof.Machine

/-! ### Which commands are refused (R145, R148, R149) -/

/-- A word that is none of the ten commands is refused with ILLEGAL (R145). -/
theorem step_illegal {s : State} (hp : Presents s) (hw : wellFormedWord (portIn s).cmd = false) :
    step s = refuse .illegal (accepted s) := by
  refine (tick_presents hp).trans (accept_illegal fun i hi => ?_)
  exact absurd ((decode_command_iff _).1 ⟨i, hi⟩) (by simp [hw])

/-- Any other word that is taken is a command, and the step is its execution (R36, R74). -/
theorem step_command {s : State} (hp : Presents s) (hw : wellFormedWord (portIn s).cmd = true) :
    ∃ i, step s = exec i (accepted s) := by
  obtain ⟨i, hi⟩ := (decode_command_iff _).2 hw
  exact ⟨i, (tick_presents hp).trans (accept_command hi)⟩

/-- A command is refused with the code of R148's table, or responds OK; `ASSIGN` of a current tree
is the one command that in some states does neither (log entry 9). -/
theorem exec_cause_cases (i : Instr) (s : State) :
    (refusalCause i s ≠ .ok ∧ exec i s = refuse (refusalCause i s) s) ∨
      (refusalCause i s = .ok ∧ ∃ d u, exec i s = respond .ok d u) ∨
      (refusalCause i s = .ok ∧ i = .assign ∧ s.built = true) := by
  cases i with
  | nop | clr | wrf b | rdf b | build | rds => exact .inr (.inl ⟨rfl, _, _, rfl⟩)
  | assign =>
    cases hb : s.built with
    | false =>
      have hcause : refusalCause .assign s = .seq := by simp [refusalCause, hb]
      exact .inl (hcause ▸ ⟨by decide, exec_assign_unbuilt hb⟩)
    | true => exact .inr (.inr ⟨by simp [refusalCause, hb], rfl, rfl⟩)
  | rdn n =>
    cases hb : s.built with
    | false =>
      have hcause : refusalCause (.rdn n) s = .seq := by simp [refusalCause, hb]
      exact .inl (hcause ▸ ⟨by decide, exec_rdn_unbuilt hb n⟩)
    | true =>
      by_cases hn : n < s.next
      · exact .inr (.inl ⟨by simp [refusalCause, hb, hn], _, _, exec_rdn_node hb hn⟩)
      · have hcause : refusalCause (.rdn n) s = .index := by simp [refusalCause, hb, hn]
        exact .inl (hcause ▸ ⟨by decide, exec_rdn_above hb (BitVec.not_lt.1 hn)⟩)
  | rdc b =>
    cases hv : s.codev with
    | false =>
      have hcause : refusalCause (.rdc b) s = .seq := by simp [refusalCause, hv]
      exact .inl (hcause ▸ ⟨by decide, exec_rdc_refused hv b⟩)
    | true => exact .inr (.inl ⟨by simp [refusalCause, hv], _, _, exec_rdc_served hv b⟩)
  | rdw x =>
    cases hv : s.codev with
    | false =>
      have hcause : refusalCause (.rdw x) s = .seq := by simp [refusalCause, hv]
      exact .inl (hcause ▸ ⟨by decide, exec_rdw_refused hv x⟩)
    | true => exact .inr (.inl ⟨by simp [refusalCause, hv], _, _, exec_rdw_served hv x⟩)

/-- A command that completes responds the code of R148's table. -/
theorem exec_responds_cause {i : Instr} {s t : State} (he : exec i s = .next t) :
    ∃ d, Responds t (refusalCause i s) d := by
  obtain ⟨-, hrefuse⟩ | ⟨hok, d, u, hresp⟩ | ⟨hok, rfl, hb⟩ := exec_cause_cases i s
  · cases hrefuse.symm.trans he
    exact ⟨.nothing, rfl⟩
  · cases hresp.symm.trans he
    exact ⟨d, hok ▸ rfl⟩
  · obtain ⟨u, -, rfl⟩ := execAssign_keeps hb he
    exact ⟨.nothing, hok ▸ rfl⟩

/-- With the facts of R40 for `ASSIGN`'s walk, every command completes (R158, R159). -/
theorem exec_completes {i : Instr} {s : State} (h : i = .assign → Consistent s) :
    Completes (exec i s) := by
  obtain ⟨-, hrefuse⟩ | ⟨-, d, u, hresp⟩ | ⟨-, rfl, hb⟩ := exec_cause_cases i s
  · exact ⟨_, hrefuse⟩
  · exact ⟨_, hresp⟩
  · obtain ⟨t, -, ht, -⟩ := (h rfl).exec_assign hb
    exact ⟨t, ht⟩

/-! ### What a refusal does (R150, R151) -/

theorem refused_of_refuse {s t : State} {c : RspCode} (he : refuse c s = .next t) :
    Refused s t c := by
  obtain ⟨u, hu, hrefused⟩ := refuse_spec s c
  cases hu.symm.trans he
  exact hrefused

/-- A refusal's data is 0 (R150). -/
theorem Refused.dout_eq {s t : State} {c : RspCode} (h : Refused s t c) : dout t = 0 := by
  obtain ⟨-, -, -, -, hresp⟩ := h
  exact dout_eq_pack hresp

/-- A command that answers another code than OK was refused with it. -/
theorem exec_refused {i : Instr} {s t : State} {c : RspCode} {d : RspData}
    (he : exec i s = .next t) (hr : Responds t c d) (hc : c ≠ .ok) : Refused s t c := by
  obtain ⟨d', hcause⟩ := exec_responds_cause he
  cases hr.symm.trans hcause
  obtain ⟨-, hrefuse⟩ | ⟨hok, -⟩ | ⟨hok, -⟩ := exec_cause_cases i s
  · exact refused_of_refuse (hrefuse.symm.trans he)
  · exact absurd hok hc
  · exact absurd hok hc

/-! ### The error record across one sampling (R152) -/

/-- If the outcome is a next state, it has the error record of `s`. -/
def KeepsError (s : State) (o : Host.Outcome State Fault Refusal) : Prop :=
  ∀ t, o = .next t → ErrorKept s t

theorem KeepsError.next {s t : State} (h : ErrorKept s t) : KeepsError s (.next t) := by
  intro u hu
  cases hu
  exact h

theorem KeepsError.fault {s : State} {r : Fault} : KeepsError s (.fault r) := by
  intro u hu
  cases hu

theorem KeepsError.ite {s : State} {p : Prop} [Decidable p]
    {o o' : Host.Outcome State Fault Refusal} (h : KeepsError s o) (h' : KeepsError s o') :
    KeepsError s (if p then o else o') := by
  split
  · exact h
  · exact h'

theorem OnlyTree.errorKept {s t : State} (h : OnlyTree s t) : ErrorKept s t := ⟨h.err, h.errcode⟩

theorem microA2_errorKept (s : State) : ErrorKept s (microA2 s) := by
  rw [microA2]
  split <;> exact ⟨rfl, rfl⟩

theorem microA3_keepsError (s : State) : KeepsError s (microA3 s) := by
  refine .ite .fault (.ite .fault ?_)
  cases hk : (nodeAt s (stkAt s (s.sp.toNat - 1)).node).kind with
  | leaf =>
    simp only [hk]
    exact .next ⟨rfl, rfl⟩
  | internal =>
    simp only [hk]
    exact .ite .fault (.ite .fault (.next ⟨rfl, rfl⟩))

/-- No micro-operation writes the error record. -/
theorem microOp_keepsError (s : State) : KeepsError s (microOp s) := by
  cases hp : s.ph with
  | idle =>
    rw [microOp, hp]
    exact .next ⟨rfl, rfl⟩
  | scan =>
    rw [microOp_of_scan hp]
    have hleaf := (leafStep_only s (s.ix.setWidth Config.SYMW)).errorKept
    exact .ite (.ite .fault (.next hleaf))
      (.ite (.ite (.next ⟨rfl, rfl⟩) (.next ⟨rfl, rfl⟩)) .fault)
  | merge =>
    rw [microOp_of_merge hp]
    exact .ite (.ite .fault (.next (mergeRound_only s).errorKept))
      (.ite (.next ⟨rfl, rfl⟩) .fault)
  | clear =>
    rw [microOp_of_clear hp]
    exact .ite (.next ⟨rfl, rfl⟩) (.ite (.next (microA2_errorKept s)) .fault)
  | walk =>
    rw [microOp_of_walk hp]
    exact .ite (.next ⟨rfl, rfl⟩) (microA3_keepsError s)

/-- Once ERR is set, a refusal keeps the first code (R150). -/
theorem Refused.errorKept {s t : State} {c : RspCode} (h : Refused s t c) (herr : s.err = true) :
    ErrorKept s t := by
  obtain ⟨-, hset, -, hfirst, -⟩ := h
  exact ⟨hset.trans herr.symm, hfirst herr⟩

/-- Once ERR is set, a sampling that brings neither reset nor `CLR` keeps the error record. -/
theorem step_keepsError {s : State} (hrst : (portIn s).rst = false)
    (hclr : decode (portIn s).cmd ≠ .command .clr ∨ (portIn s).cmdValid = false)
    (herr : s.err = true) : KeepsError s (step s) := by
  intro t ht
  obtain ⟨hreset, -⟩ | ⟨-, -, hbusy⟩ | ⟨i, ⟨-, -, hvalid, hi⟩, hrun⟩ | ⟨-, hrefuse⟩ |
    ⟨-, -, hquiet⟩ := tick_cases exec s
  · simp [hrst] at hreset
  · have hkept := microOp_keepsError _ t (hbusy.symm.trans ht)
    rwa [takeResponse_eq_outside] at hkept
  · have hne : i ≠ .clr := by
      rintro rfl
      exact hclr.elim (· hi) (by simp [hvalid])
    exact exec_errorKept (s := accepted s) hne herr (hrun.symm.trans ht)
  · exact (refused_of_refuse (hrefuse.symm.trans ht)).errorKept herr
  · cases hquiet.symm.trans ht
    rw [takeResponse_eq_outside]
    exact ⟨rfl, rfl⟩

/-! ### Commands with another error record (R152) -/

/-- The outcomes differ in the error record at most. -/
def SameButError (o o' : Host.Outcome State Fault Refusal) : Prop :=
  mapNext (fun t => withError t false .ok) o = mapNext (fun t => withError t false .ok) o'

section

variable (s : State) (e : Bool) (c : RspCode)

theorem withError_eq_outside : withError s e c = outside s e c s.din s.rsp s.host := rfl

/-- `BUILD` carries the error record along. -/
theorem buildState_withError : buildState (withError s e c) = withError (buildState s) e c := by
  have hk := buildState_keeps s
  rw [withError_eq_outside, buildState_outside, withError_eq_outside, hk.din, hk.rsp, hk.host]

/-- So does `ASSIGN`: both runs are the run with the fields outside put back, and differ in the
error record. -/
theorem execAssign_sameButError :
    SameButError (execAssign (withError s e c)) (execAssign s) := by
  cases hb : s.built with
  | false =>
    have hb' : (withError s e c).built = false := hb
    rw [execAssign, execAssign, if_pos hb, if_pos hb']
    rfl
  | true =>
    have hself := execAssign_outside s s.err s.errcode s.din s.rsp s.host hb
    rw [outside_self] at hself
    rw [SameButError, hself, withError_eq_outside, execAssign_outside _ _ _ _ _ _ hb,
      mapNext_mapNext, mapNext_mapNext]
    rfl

/-- No command but `RDS` looks at the error record. -/
theorem exec_sameButError {i : Instr} (hi : i ≠ .rds) :
    SameButError (exec i (withError s e c)) (exec i s) := by
  cases i with
  | rds => exact absurd rfl hi
  | nop | clr | wrf b | rdf b => rfl
  | build =>
    show SameButError (execBuild (withError s e c)) (execBuild s)
    rw [execBuild, execBuild, buildState_withError]
    generalize buildState s = t
    rfl
  | assign => exact execAssign_sameButError s e c
  | rdn n =>
    show mapNext _ (execRdn n (withError s e c)) = mapNext _ (execRdn n s)
    simp only [execRdn, apply_ite (mapNext _)]
    rfl
  | rdc b =>
    show mapNext _ (execRdc b (withError s e c)) = mapNext _ (execRdc b s)
    simp only [execRdc, apply_ite (mapNext _)]
    rfl
  | rdw x =>
    show mapNext _ (execRdw x (withError s e c)) = mapNext _ (execRdw x s)
    simp only [execRdw, apply_ite (mapNext _)]
    rfl

end

/-! ### The refined machine responds (R158) -/

/-- Within `m` steps the refined machine holds a response, in a state with the facts of R40. -/
def RespondsWithin (m : Nat) (s : State) : Prop :=
  ∃ n t, 1 ≤ n ∧ n ≤ m ∧ microRun n s = .next t ∧ rspValid t = true ∧ Consistent t

theorem NoReset.mono {m n : Nat} {s : State} (h : NoReset n s) (hmn : m ≤ n) : NoReset m s :=
  fun q hq => h q ((List.take_prefix_take_left hmn).subset hq)

/-- But for `BUILD` and an `ASSIGN` that executes, the refined machine executes a command whole
(R30, R96, R128). -/
theorem startMicro_whole {i : Instr} {s : State} (hbuild : i ≠ .build)
    (hassign : ¬(i = .assign ∧ s.built = true)) : startMicro i s = exec i s := by
  by_cases hi : i = .assign
  · subst hi
    have hb : s.built = false := Bool.eq_false_iff.2 fun hb => hassign ⟨rfl, hb⟩
    exact (if_pos hb).trans (exec_assign_unbuilt hb).symm
  · exact startMicro_short hbuild hi s

theorem rspValid_of_exec {i : Instr} {s t : State} (he : exec i s = .next t) :
    rspValid t = true := by
  obtain ⟨r, hr, -⟩ := exec_responds he
  rw [rspValid, hr]
  rfl

theorem MemoriesCanonical.microRun {n : Nat} {s t : State} (h : MemoriesCanonical s)
    (he : microRun n s = .next t) : MemoriesCanonical t := by
  induction n generalizing s with
  | zero =>
    cases he
    exact h
  | succ n ih =>
    simp only [Machine.microRun] at he
    split at he
    · exact ih (h.tick .startMicro ‹_›) he
    · cases he
    · cases he

/-- STK between commands is none of the facts' business but for its canonical form. -/
theorem Consistent.withStk {s : State} (h : Consistent s) {k : Memory StkEntry}
    (hm : MemoriesCanonical { s with stk := k }) : Consistent { s with stk := k } :=
  h.transport (fun _ => rfl) (fun _ => rfl) (fun _ => rfl) ⟨rfl, rfl, rfl⟩ ⟨rfl, rfl, rfl, rfl⟩
    ⟨rfl, rfl, rfl⟩ ⟨rfl, rfl⟩ h.error hm

section

variable {s : State} {i : Instr}

/-- A command that the refined machine executes whole responds in one step (R30). -/
theorem Consistent.respondsWithin_one (h : Consistent s) (hacc : Accepts s i)
    (hwhole : startMicro i (Machine.accepted s) = exec i (Machine.accepted s)) :
    RespondsWithin 1 s := by
  obtain ⟨t, ht⟩ := exec_completes (i := i) fun _ => h.accepted
  have hmicro : microStep s = .next t := hacc.micro.trans (hwhole.trans ht)
  refine ⟨1, t, le_rfl, le_rfl, ?_, rspValid_of_exec ht, h.accepted.executed ht⟩
  rw [microRun, hmicro]
  rfl

/-- `BUILD` ends as the whole command does (R101). -/
theorem Consistent.respondsWithin_build (h : Consistent s) (hacc : Accepts s .build)
    (hreset : NoReset 514 s) : RespondsWithin 514 s := by
  have hk := presentCount_le s
  obtain ⟨n, hn⟩ : ∃ n, n = if presentCount s ≤ 1 then 258 else 258 + presentCount s := ⟨_, rfl⟩
  have hle : 1 ≤ n ∧ n ≤ 514 := by
    rw [hn]
    split <;> omega
  obtain ⟨-, ⟨t, ht, hrun⟩, -⟩ := buildMicroOpsAgree s n hacc hn (hreset.mono hle.2)
  exact ⟨n, _, hle.1, hle.2, hrun, rspValid_of_exec (t := t) ht,
    (h.accepted.executed ht).port t.din t.rsp (s.host.drop n)⟩

/-- `ASSIGN` of a current tree ends as the whole command does, but for what it leaves in STK
(R134). -/
theorem Consistent.respondsWithin_assign (h : Consistent s) (hacc : Accepts s .assign)
    (hb : s.built = true) (hreset : NoReset 770 s) : RespondsWithin 770 s := by
  have hk := presentCount_le s
  obtain ⟨n, hn⟩ : ∃ n, n = if presentCount s = 0 then 259 else 258 + 2 * presentCount s :=
    ⟨_, rfl⟩
  have hle : 1 ≤ n ∧ n ≤ 770 := by
    rw [hn]
    split <;> omega
  obtain ⟨-, ⟨t, u, ht, hrun, hstk⟩, -⟩ :=
    assignMicroOpsAgree s n h hb hacc hn (hreset.mono hle.2)
  have hu : u = { { t with host := s.host.drop n } with stk := u.stk } := by rw [← hstk]
  have ht' : Consistent { t with host := s.host.drop n } :=
    (h.accepted.executed ht).port t.din t.rsp (s.host.drop n)
  have hm : MemoriesCanonical u := h.memories.microRun hrun
  rw [hu] at hm hrun
  exact ⟨n, _, hle.1, hle.2, hrun, rspValid_of_exec (t := t) ht, ht'.withStk hm⟩

end

end Sys2Proof.Machine
end

section
/-! The statements of spec/60_exceptions.md that are settled: the refusals, the error record, and
that every command ends and responds. -/

namespace Sys2Proof.Machine

/-- Settles O57, by the cases of one sampling: only a command could stop, and none does. -/
theorem stepNeverStops : Obligations.StepNeverStops := by
  intro s h
  obtain ⟨-, hreset⟩ | ⟨-, hbusy, -⟩ | ⟨i, -, hrun⟩ | ⟨-, hrefuse⟩ | ⟨-, -, hquiet⟩ :=
    tick_cases exec s
  · exact ⟨_, hreset⟩
  · exact absurd h.idle.1 hbusy
  · obtain ⟨t, ht⟩ := exec_completes (i := i) fun _ => h.accepted
    exact ⟨t, hrun.trans ht⟩
  · exact ⟨_, hrefuse⟩
  · exact ⟨_, hquiet⟩

/-- Settles O60: `BUILD` and an `ASSIGN` that is not refused run the micro-operations of R101 and
R134, every other command is executed whole. -/
theorem everyCommandResponds : Obligations.EveryCommandResponds := by
  intro s i h hacc hreset
  by_cases hbuild : i = .build
  · obtain rfl := hbuild
    obtain ⟨n, t, hpos, hle, hrun⟩ := h.respondsWithin_build hacc (hreset.mono (by decide))
    exact ⟨n, t, hpos, hle.trans (by decide), fun _ => hle, fun hne => absurd rfl hne, hrun⟩
  · by_cases hassign : i = .assign ∧ s.built = true
    · obtain ⟨rfl, hb⟩ := hassign
      obtain ⟨n, t, hpos, hle, hrun⟩ := h.respondsWithin_assign hacc hb hreset
      exact ⟨n, t, hpos, hle, fun he => absurd he hbuild, fun _ hne => absurd rfl hne, hrun⟩
    · have hwhole : startMicro i (accepted s) = exec i (accepted s) :=
        startMicro_whole hbuild hassign
      obtain ⟨n, t, hpos, hle, hrun⟩ := h.respondsWithin_one hacc hwhole
      exact ⟨n, t, hpos, hle.trans (by decide), fun he => absurd he hbuild,
        fun _ _ => le_antisymm hle hpos, hrun⟩

/-- Settles O50: what answers another code than OK was refused, by R148's table or at decode. -/
theorem refusalWritesOnlyTheErrorRecord : Obligations.RefusalWritesOnlyTheErrorRecord := by
  refine ⟨fun i s t c d he hr hc => ?_, fun s t hp ht hne => ?_⟩
  · have hrefused := exec_refused he hr hc
    exact ⟨hrefused, hrefused.dout_eq⟩
  · cases hw : wellFormedWord (portIn s).cmd with
    | false =>
      have hrefused := refused_of_refuse ((step_illegal hp hw).symm.trans ht)
      obtain ⟨-, -, -, -, hresp⟩ := id hrefused
      exact ⟨.illegal, by decide, by rw [rspCode, hresp], hrefused, hrefused.dout_eq⟩
    | true =>
      obtain ⟨i, hi⟩ := step_command hp hw
      have he := hi.symm.trans ht
      obtain ⟨d, hresp⟩ := exec_responds_cause he
      have hcode : rspCode t = (refusalCause i (accepted s)).toBits := by rw [rspCode, hresp]
      have hc : refusalCause i (accepted s) ≠ .ok := fun hok =>
        hne (by rw [hcode, hok]; rfl)
      have hrefused := exec_refused he hresp hc
      exact ⟨_, hc, hcode, hrefused, hrefused.dout_eq⟩

/-- Settles O51: an undefined word is refused at decode, and a command answers by R148's table. -/
theorem whichCommandsAreRefused : Obligations.WhichCommandsAreRefused := by
  refine ⟨fun s hp hw => ⟨_, step_illegal hp hw, rfl⟩, fun i s h => ?_⟩
  obtain ⟨t, ht⟩ := exec_completes h
  obtain ⟨d, hresp⟩ := exec_responds_cause ht
  exact ⟨t, d, ht, hresp⟩

/-- Settles O52: only `CLR` and reset clear the record, and only `RDS` looks at it. -/
theorem errAltersNoCommand : Obligations.ErrAltersNoCommand := by
  refine ⟨fun i s t hi herr he => exec_errorKept hi herr he,
    fun s hrst hclr herr => step_keepsError hrst hclr herr,
    fun i s e c => ⟨fun hi => exec_sameButError s e c hi, ?_⟩⟩
  rintro rfl
  exact ⟨_, _, rfl, rfl, rfl, rfl, rfl⟩

/-- Settles O6: the word does not decode, so it is refused before any command could run. -/
theorem illegalWordIsRefused : Obligations.IllegalWordIsRefused := by
  intro s hp hw
  obtain ⟨t, ht, hrefused⟩ := refuse_spec (accepted s) .illegal
  exact ⟨t, (step_illegal hp hw).trans ht, hrefused⟩

/-- Settles O49: each of the four commands checks its product first. -/
theorem seqIsRaisedWithoutAProduct : Obligations.SeqIsRaisedWithoutAProduct := by
  intro s
  obtain ⟨t, ht, hseq⟩ := refuse_spec s .seq
  exact ⟨fun hb => ⟨⟨t, (exec_assign_unbuilt hb).trans ht, hseq⟩,
      fun i => ⟨t, (exec_rdn_unbuilt hb i).trans ht, hseq⟩⟩,
    fun hv => ⟨fun b => ⟨t, (exec_rdc_refused hv b).trans ht, hseq⟩,
      fun x => ⟨t, (exec_rdw_refused hv x).trans ht, hseq⟩⟩⟩

end Sys2Proof.Machine
end

section
/-! SUPPORT. What the commands do to BUILT and CODEV, and two facts of the reset state
(spec/70_reset_and_hazards.md rules R164 to R166). -/

namespace Sys2Proof.Machine

/-! ### The flags (R165) -/

/-- `CLR` and `WRF` leave what `invalidate` does (R82 to R84). -/
theorem exec_invalidated {i : Instr} {s t : State} (hi : i = .clr ∨ ∃ b, i = .wrf b)
    (he : exec i s = .next t) : Invalidated t := by
  obtain rfl | ⟨b, rfl⟩ := hi
  · cases he
    exact invalidate_spec (clearFreq s)
  · cases he
    exact written_invalidated b s.din s

theorem refusalCause_assign_ok {s : State} (hok : refusalCause .assign s = .ok) :
    s.built = true := by
  by_contra hb
  simp [refusalCause, hb] at hok

/-- A read, a `NOP` and a refused command write nothing but the error record and the response (R53,
R139, R150). -/
theorem exec_allButErrorKept {i : Instr} {s t : State}
    (hi : isRead i = true ∨ i = .nop ∨ refusalCause i s ≠ .ok) (he : exec i s = .next t) :
    AllButErrorKept s t := by
  obtain hread | rfl | hcause := hi
  · obtain ⟨d, hresp⟩ | ⟨c, -, hrefuse⟩ := exec_read_cases hread s
    · cases (hresp s.rsp).symm.trans he
      exact .refl s
    · obtain ⟨hkept, -⟩ := refused_of_refuse (hrefuse.symm.trans he)
      exact hkept
  · cases he
    exact .refl s
  · obtain ⟨d, hresp⟩ := exec_responds_cause he
    obtain ⟨hkept, -⟩ := exec_refused he hresp hcause
    exact hkept

/-! ### The reset state (R41, R164) -/

/-- No byte is present after reset. -/
theorem presentCount_reset : presentCount State.reset = 0 := by
  have hnone : presentSyms State.reset = [] := by
    rw [presentSyms, List.filter_eq_nil_iff]
    exact fun b _ => by simp [show freqAt State.reset b = 0 from rfl]
  rw [presentCount, hnone, List.length_nil]

/-- After reset there is nothing for `CLR` to clear (R164). -/
theorem exec_clr_reset : exec .clr State.reset = respond .ok .nothing State.reset := rfl

end Sys2Proof.Machine
end

section
/-! The statements of spec/70_reset_and_hazards.md that are settled: reset, the first command after
it, and the life of the tree and of the table. -/

namespace Sys2Proof.Machine

/-- Settles O53, by what R165's rows have in common: an invalidation, a tree made, a tree consumed,
or nothing written. -/
theorem flagLife : Obligations.FlagLife := by
  refine fun i s t he => ⟨fun hi => ?_, ?_, ?_, fun hi => ?_⟩
  · obtain ⟨hbuilt, hcodev, -⟩ := exec_invalidated hi he
    exact ⟨hbuilt, hcodev⟩
  · rintro rfl
    exact ⟨(build_counts he).built, (build_keeps he).codev⟩
  · rintro rfl hok
    obtain ⟨u, -, rfl⟩ := execAssign_keeps (refusalCause_assign_ok hok) he
    exact ⟨rfl, rfl⟩
  · obtain ⟨-, -, -, -, -, -, ⟨hbuilt, hcodev, -, -⟩, -⟩ := exec_allButErrorKept hi he
    exact ⟨hbuilt, hcodev⟩

/-- Without a current table, only an `ASSIGN` of a current tree makes one (R26). -/
theorem exec_untabled {i : Instr} {s t : State} (hi : s.built = false ∨ i ≠ .assign)
    (hv : s.codev = false) (he : exec i s = .next t) : t.codev = false := by
  obtain ⟨hclear, hbuild, -, hkeep⟩ := flagLife i s t he
  cases i with
  | clr => exact (hclear (.inl rfl)).2
  | wrf b => exact (hclear (.inr ⟨b, rfl⟩)).2
  | build => exact (hbuild rfl).2.trans hv
  | assign =>
    have hb : s.built = false := hi.resolve_right (absurd rfl)
    exact (hkeep (.inr (.inr (by simp [refusalCause, hb])))).2.trans hv
  | nop => exact (hkeep (.inr (.inl rfl))).2.trans hv
  | rdf b | rdn n | rdc b | rds | rdw x => exact (hkeep (.inl rfl)).2.trans hv

/-- Neither commands without a `BUILD` from a state without a tree, nor commands without an
`ASSIGN`, make a table. -/
theorem runCommands_untabled {js : List (Instr × Count)} {s u : State}
    (hjs : (s.built = false ∧ ∀ j ∈ js, j.1 ≠ .build) ∨ ∀ j ∈ js, j.1 ≠ .assign)
    (hv : s.codev = false) (h : runCommands js s = .next u) : u.codev = false := by
  induction js generalizing s with
  | nil =>
    cases h
    exact hv
  | cons j js ih =>
    obtain ⟨t, ht, hu⟩ := runCommands_cons h
    obtain ⟨hb, hbuild⟩ | hassign := hjs
    · obtain ⟨hj, hrest⟩ := List.forall_mem_cons.1 hbuild
      have hbt : t.built = false := exec_unbuilt (s := withDin s j.2) hj hb ht
      exact ih (.inl ⟨hbt, hrest⟩) (exec_untabled (s := withDin s j.2) (.inl hb) hv ht) hu
    · obtain ⟨hj, hrest⟩ := List.forall_mem_cons.1 hassign
      exact ih (.inr hrest) (exec_untabled (s := withDin s j.2) (.inr hj) hv ht) hu

/-- Settles O54: the write clears BUILT and CODEV, the commands after it do not set them again, and
without them the four commands are refused. -/
theorem writeWithdrawsTreeAndTable : Obligations.WriteWithdrawsTreeAndTable := by
  intro i s t hi he js u hu
  obtain ⟨hb, hv, -⟩ := exec_invalidated hi he
  obtain ⟨htree, htable⟩ := seqIsRaisedWithoutAProduct u
  exact ⟨fun hjs => htree (runCommands_unbuilt hjs hb hu),
    fun hjs => htable (runCommands_untabled (hjs.imp_left fun h => ⟨hb, h⟩) hv hu)⟩

/-- Settles O2, by the branch of `tick` that comes first in both machines. -/
theorem rstReplacesAnyState : Obligations.RstReplacesAnyState :=
  fun _ h => ⟨tick_rst h, tick_rst h⟩

/-- Settles O3: the reset state has no byte present, no tree and no table, and reads as zero. -/
theorem straightAfterReset : Obligations.StraightAfterReset := by
  obtain ⟨htree, htable⟩ := seqIsRaisedWithoutAProduct State.reset
  obtain ⟨hassign, hrdn⟩ := htree rfl
  obtain ⟨hrdc, hrdw⟩ := htable rfl
  obtain ⟨t, ht, hresp, hkept⟩ := respond_spec State.reset .ok .nothing
  have hcounts := build_counts (exec_build State.reset)
  have hnleaf := hcounts.nleaf.trans presentCount_reset
  have hempty := hcounts.empty.trans (decide_eq_true presentCount_reset)
  have hstatus : status State.reset = 0 := by decide
  exact ⟨⟨_, exec_build _, rfl, BitVec.eq_of_toNat_eq hnleaf, hempty⟩, hassign, hrdn, hrdc, hrdw,
    fun _ => ⟨_, rfl, rfl⟩, ⟨_, rfl, by rw [Responds, hstatus]⟩,
    ⟨t, exec_clr_reset.trans ht, hkept, hresp⟩, ⟨t, (exec_nop _).trans ht, hresp⟩,
    fun b => ⟨_, exec_wrf b _, rfl⟩⟩

end Sys2Proof.Machine
end
